-- ==== Sys2Proof/Word.lean ====
section
/-! DEFINITION. The words of the block's interfaces and their plainest arithmetic. -/

namespace Sys2Proof

/-- One byte: what the bus port moves (R85) and what a video memory holds (R50). -/
abbrev Byte := BitVec 8

/-- A 16-bit register or a halfword of a video memory (R84). -/
abbrev Half := BitVec 16

/-- An operation word `OP` (R110). -/
abbrev OpWord := BitVec 64

/-- A 15-bit BGR555 colour: red in bits 4:0, green in 9:5, blue in 14:10 (R12). -/
abbrev Colour := BitVec 15

/-- `{hi, lo}`: the halfword whose high byte is `hi` and whose low byte is `lo` (R10, R84). -/
def halfOf (hi lo : Byte) : Half := hi ++ lo

end Sys2Proof
end

