-- ==== Sys2Proof/Config.lean ====
section
/-! DEFINITION. The block's fixed parameters (R8) and the values the spec leaves open (R9): the free
values are constants without a body. -/

namespace Sys2Proof.Config

/-- `SCREEN_W` (R8). -/
abbrev screenW : Nat := 240
/-- `SCREEN_H` (R8): scanlines 0..159 are visible. -/
abbrev screenH : Nat := 160
/-- `TOTAL_LINES` (R8). -/
abbrev totalLines : Nat := 228
/-- `DRAW_CYCLES` (R8). -/
abbrev drawCycles : Int := 960
/-- `HBLANK_CYCLES` (R8). -/
abbrev hblankCycles : Int := 272
/-- `LINE_CYCLES` (R8). -/
abbrev lineCycles : Int := 1232
/-- `NUM_OBJ` (R8). -/
abbrev numObj : Nat := 128
/-- `VRAM_SIZE` in bytes (R8). -/
abbrev vramSize : Nat := 98304
/-- `PRAM_SIZE` in bytes (R8). -/
abbrev pramSize : Nat := 1024
/-- `OAM_SIZE` in bytes (R8). -/
abbrev oamSize : Nat := 1024
/-- The value `2^63 - 1`, which no due time and no clock value reaches (R52, R201, R205, R209). -/
abbrev tickLimit : Int := 9223372036854775807

/-- The three video memories of the block (R50). -/
inductive VMem where
  | vram
  | pram
  | oam
  deriving DecidableEq, Repr

/-- How many bytes a video memory has (R8, R50). -/
def VMem.size : VMem → Nat
  | .vram => vramSize
  | .pram => pramSize
  | .oam => oamSize

/-- `GAMMA_CURVE` (R9, R420): the colour-corrected 8-bit red, green and blue of a 5-bit red, green
and blue. FREE VALUE (assumption 4): the spec leaves the curve open, so no claim can know a value
of it. -/
opaque gammaCurve : BitVec 5 → BitVec 5 → BitVec 5 → Byte × Byte × Byte

/-- What a BUS READ of a video memory byte returns when the contents at power-on are unknown and no
bus write has stored the byte. FREE VALUE (assumption 3): `VIDEO_MEM_INIT` is open (R9, R472). -/
opaque videoMemInit : VMem → Nat → Byte

end Sys2Proof.Config
end

