-- ==== Sys2Proof/Syntax.lean ====
section
/-! DEFINITION. The operations of the block (`30_encoding.md`): one constructor per row of the opcode
table, with its operands as R111 to R117 name them, and the reasons for which the decoder refuses a word. -/

namespace Sys2Proof

/-- The two affine backgrounds, BG2 and BG3 (R26, R27). -/
inductive AffineBg where
  | bg2
  | bg3
  deriving DecidableEq, Repr

/-- The four affine coefficients of a background, `param = ADDR[2:1]` (R117). -/
inductive AffineParam where
  | pa
  | pb
  | pc
  | pd
  deriving DecidableEq, Repr

/-- The axis of an affine reference register, `axis = ADDR[2]` (R117): `BGnX` or `BGnY`. -/
inductive Axis where
  | x
  | y
  deriving DecidableEq, Repr

/-- The axis of a scroll register, `axis = ADDR[1]` (R117): `BGnHOFS` or `BGnVOFS`. -/
inductive Scroll where
  | h
  | v
  deriving DecidableEq, Repr

/-- Window 0 or window 1, `n = ADDR[1]` (R117). -/
inductive WindowId where
  | win0
  | win1
  deriving DecidableEq, Repr

/-- An operation of the block. `lane` is the byte lane of a register access (R114); the offset `o` of
`W_VRAM_HI` and `R_VRAM_HI` counts from VRAM offset 0x10000. -/
inductive Instr where
  /-- `W_DISPCNT` (R143). -/
  | wDispcnt (lane : BitVec 1) (data : Byte)
  /-- `R_DISPCNT` (R144). -/
  | rDispcnt (lane : BitVec 1)
  /-- `W_NOREG_002` (R145). -/
  | wNoreg002 (lane : BitVec 1) (data : Byte)
  /-- `R_NOREG_002` (R146). -/
  | rNoreg002 (lane : BitVec 1)
  /-- `W_DISPSTAT` (R147). -/
  | wDispstat (lane : BitVec 1) (data : Byte)
  /-- `R_DISPSTAT` (R148). -/
  | rDispstat (lane : BitVec 1)
  /-- `W_VCOUNT` (R149). -/
  | wVcount (lane : BitVec 1) (data : Byte)
  /-- `R_VCOUNT` (R150). -/
  | rVcount (lane : BitVec 1)
  /-- `W_BGCNT` (R151). -/
  | wBgcnt (n : Fin 4) (lane : BitVec 1) (data : Byte)
  /-- `R_BGCNT` (R152). -/
  | rBgcnt (n : Fin 4) (lane : BitVec 1)
  /-- `W_BGOFS` (R153). -/
  | wBgofs (n : Fin 4) (axis : Scroll) (lane : BitVec 1) (data : Byte)
  /-- `R_BGOFS` (R154). -/
  | rBgofs (n : Fin 4) (axis : Scroll) (lane : BitVec 1)
  /-- `W_BGP` (R155). -/
  | wBgp (n : AffineBg) (param : AffineParam) (lane : BitVec 1) (data : Byte)
  /-- `R_BGP` (R156). -/
  | rBgp (n : AffineBg) (param : AffineParam) (lane : BitVec 1)
  /-- `W_BGREF` (R157). -/
  | wBgref (n : AffineBg) (axis : Axis) (lane : BitVec 2) (data : Byte)
  /-- `R_BGREF` (R158). -/
  | rBgref (n : AffineBg) (axis : Axis) (lane : BitVec 2)
  /-- `W_WINH` (R159). -/
  | wWinh (n : WindowId) (lane : BitVec 1) (data : Byte)
  /-- `R_WINH` (R160). -/
  | rWinh (n : WindowId) (lane : BitVec 1)
  /-- `W_WINV` (R161). -/
  | wWinv (n : WindowId) (lane : BitVec 1) (data : Byte)
  /-- `R_WINV` (R162). -/
  | rWinv (n : WindowId) (lane : BitVec 1)
  /-- `W_WININ` (R163). -/
  | wWinin (lane : BitVec 1) (data : Byte)
  /-- `R_WININ` (R164). -/
  | rWinin (lane : BitVec 1)
  /-- `W_WINOUT` (R165). -/
  | wWinout (lane : BitVec 1) (data : Byte)
  /-- `R_WINOUT` (R166). -/
  | rWinout (lane : BitVec 1)
  /-- `W_MOSAIC` (R167). -/
  | wMosaic (lane : BitVec 1) (data : Byte)
  /-- `R_MOSAIC` (R168). -/
  | rMosaic (lane : BitVec 1)
  /-- `W_NOREG_04E` (R145). -/
  | wNoreg04e (lane : BitVec 1) (data : Byte)
  /-- `R_NOREG_04E` (R146). -/
  | rNoreg04e (lane : BitVec 1)
  /-- `W_BLDCNT` (R169). -/
  | wBldcnt (lane : BitVec 1) (data : Byte)
  /-- `R_BLDCNT` (R170). -/
  | rBldcnt (lane : BitVec 1)
  /-- `W_BLDALPHA` (R171). -/
  | wBldalpha (lane : BitVec 1) (data : Byte)
  /-- `R_BLDALPHA` (R172). -/
  | rBldalpha (lane : BitVec 1)
  /-- `W_BLDY` (R173). -/
  | wBldy (lane : BitVec 1) (data : Byte)
  /-- `R_BLDY` (R174). -/
  | rBldy (lane : BitVec 1)
  /-- `W_NOREG_056` (R145). -/
  | wNoreg056 (lane : BitVec 1) (data : Byte)
  /-- `R_NOREG_056` (R146). -/
  | rNoreg056 (lane : BitVec 1)
  /-- `W_NOREG_058` (R145). -/
  | wNoreg058 (offset : BitVec 3) (data : Byte)
  /-- `R_NOREG_058` (R146). -/
  | rNoreg058 (offset : BitVec 3)
  /-- `W_IE` (R175). -/
  | wIe (lane : BitVec 1) (data : Byte)
  /-- `R_IE` (R176). -/
  | rIe (lane : BitVec 1)
  /-- `W_IF` (R177). -/
  | wIf (lane : BitVec 1) (data : Byte)
  /-- `R_IF` (R178). -/
  | rIf (lane : BitVec 1)
  /-- `W_IME` (R179). -/
  | wIme (lane : BitVec 1) (data : Byte)
  /-- `R_IME` (R180). -/
  | rIme (lane : BitVec 1)
  /-- `W_NOREG_20A` (R145). -/
  | wNoreg20a (lane : BitVec 1) (data : Byte)
  /-- `R_NOREG_20A` (R146). -/
  | rNoreg20a (lane : BitVec 1)
  /-- `W_PRAM` (R181). -/
  | wPram (o : BitVec 10) (data : Byte)
  /-- `R_PRAM` (R182). -/
  | rPram (o : BitVec 10)
  /-- `W_VRAM_LO` (R183). -/
  | wVramLo (o : BitVec 16) (data : Byte)
  /-- `R_VRAM_LO` (R184). -/
  | rVramLo (o : BitVec 16)
  /-- `W_VRAM_HI` (R183). -/
  | wVramHi (o : BitVec 15) (data : Byte)
  /-- `R_VRAM_HI` (R184). -/
  | rVramHi (o : BitVec 15)
  /-- `W_OAM` (R185). -/
  | wOam (o : BitVec 10) (data : Byte)
  /-- `R_OAM` (R186). -/
  | rOam (o : BitVec 10)
  /-- `SCHED.ADD` (R202). -/
  | schedAdd (tag : Byte) (delay : BitVec 48)
  /-- `SCHED.POP` (R203). -/
  | schedPop
  /-- `SCHED.CANCEL` (R204). -/
  | schedCancel (tag : Byte)
  /-- `SCHED.ADVANCE` (R205). -/
  | schedAdvance (n : BitVec 48)
  /-- `SCHED.DRAIN` (R206). -/
  | schedDrain
  /-- `SCHED.HALTSKIP` (R210). -/
  | schedHaltskip
  /-- `SCHED.NEXT` (R209). -/
  | schedNext
  /-- `SCHED.NOW` (R209). -/
  | schedNow
  /-- `EVENT.HBLANK_START` (R232). -/
  | eventHblankStart (lateness : BitVec 48)
  /-- `EVENT.HBLANK_END` (R234). -/
  | eventHblankEnd (lateness : BitVec 48)
  /-- `IRQ.FLAG` (R262). -/
  | irqFlag (kind : BitVec 4)
  /-- `IRQ.LINE` (R263). -/
  | irqLine
  /-- `IRQ.HALTEXIT` (R265). -/
  | irqHaltexit
  /-- `HOST.READFRAME` (R280). -/
  | hostReadframe
  /-- `HOST.CLEARREADY` (R281). -/
  | hostClearready
  /-- `HOST.SETCC` (R283). -/
  | hostSetcc (enable : BitVec 1)
  /-- `HOST.READY` (R282). -/
  | hostReady
  /-- `HOST.FRAMES` (R284). -/
  | hostFrames
  /-- `RENDER.LINE` (R300). -/
  | renderLine (y : Byte)
  deriving DecidableEq, Repr

/-- Why the decoder refuses a word (R118). A refusal is the decoder's verdict, no fault of the block. -/
inductive DecodeRefusal where
  /-- `reserved_port`: `PORT` is 6..15. -/
  | reservedPort
  /-- `reserved_sub`: a `SUB` value that R116 reserves. -/
  | reservedSub
  /-- `nonzero_reserved`: a nonzero bit in a must-be-0 field. -/
  | nonzeroReserved
  /-- `unowned_address`: a `BUS` address outside the ranges of R81. -/
  | unownedAddress
  /-- `bad_kind`: `IRQ.FLAG` with kind 14 or 15. -/
  | badKind
  /-- `bad_line`: `RENDER.LINE` with `y >= 160`. -/
  | badLine
  deriving DecidableEq, Repr

end Sys2Proof
end

