-- ==== Sys2Proof/WellFormed.lean ====
section
/-! DEFINITION. The operand values an operation word can spell (R115, R118). -/

namespace Sys2Proof

/-- The operands of `i` are values a word can spell: `IRQ.FLAG` takes kinds 0..13 and `RENDER.LINE`
takes visible scanlines 0..159 (R115); every other operand takes every value of its width. -/
def Instr.wf : Instr → Bool
  | .wDispcnt _ _ => true
  | .rDispcnt _ => true
  | .wNoreg002 _ _ => true
  | .rNoreg002 _ => true
  | .wDispstat _ _ => true
  | .rDispstat _ => true
  | .wVcount _ _ => true
  | .rVcount _ => true
  | .wBgcnt _ _ _ => true
  | .rBgcnt _ _ => true
  | .wBgofs _ _ _ _ => true
  | .rBgofs _ _ _ => true
  | .wBgp _ _ _ _ => true
  | .rBgp _ _ _ => true
  | .wBgref _ _ _ _ => true
  | .rBgref _ _ _ => true
  | .wWinh _ _ _ => true
  | .rWinh _ _ => true
  | .wWinv _ _ _ => true
  | .rWinv _ _ => true
  | .wWinin _ _ => true
  | .rWinin _ => true
  | .wWinout _ _ => true
  | .rWinout _ => true
  | .wMosaic _ _ => true
  | .rMosaic _ => true
  | .wNoreg04e _ _ => true
  | .rNoreg04e _ => true
  | .wBldcnt _ _ => true
  | .rBldcnt _ => true
  | .wBldalpha _ _ => true
  | .rBldalpha _ => true
  | .wBldy _ _ => true
  | .rBldy _ => true
  | .wNoreg056 _ _ => true
  | .rNoreg056 _ => true
  | .wNoreg058 _ _ => true
  | .rNoreg058 _ => true
  | .wIe _ _ => true
  | .rIe _ => true
  | .wIf _ _ => true
  | .rIf _ => true
  | .wIme _ _ => true
  | .rIme _ => true
  | .wNoreg20a _ _ => true
  | .rNoreg20a _ => true
  | .wPram _ _ => true
  | .rPram _ => true
  | .wVramLo _ _ => true
  | .rVramLo _ => true
  | .wVramHi _ _ => true
  | .rVramHi _ => true
  | .wOam _ _ => true
  | .rOam _ => true
  | .schedAdd _ _ => true
  | .schedPop => true
  | .schedCancel _ => true
  | .schedAdvance _ => true
  | .schedDrain => true
  | .schedHaltskip => true
  | .schedNext => true
  | .schedNow => true
  | .eventHblankStart _ => true
  | .eventHblankEnd _ => true
  | .irqFlag kind => decide (kind.toNat < 14)
  | .irqLine => true
  | .irqHaltexit => true
  | .hostReadframe => true
  | .hostClearready => true
  | .hostSetcc _ => true
  | .hostReady => true
  | .hostFrames => true
  | .renderLine y => decide (y.toNat < Config.screenH)

end Sys2Proof
end

