-- ==== Sys2Proof/Decode.lean ====
section
/-! DEFINITION. The decoder of operation words, total and rejecting by name (R110 to R118), and the
encoder written from the same layouts. -/

namespace Sys2Proof

/-- The target of a bus access: one constructor per line of the address map (R117), with the
sub-fields of the line. -/
inductive BusTarget where
  | dispcnt (lane : BitVec 1)
  | noreg002 (lane : BitVec 1)
  | dispstat (lane : BitVec 1)
  | vcount (lane : BitVec 1)
  | bgcnt (n : Fin 4) (lane : BitVec 1)
  | bgofs (n : Fin 4) (axis : Scroll) (lane : BitVec 1)
  | bgp (n : AffineBg) (param : AffineParam) (lane : BitVec 1)
  | bgref (n : AffineBg) (axis : Axis) (lane : BitVec 2)
  | winh (n : WindowId) (lane : BitVec 1)
  | winv (n : WindowId) (lane : BitVec 1)
  | winin (lane : BitVec 1)
  | winout (lane : BitVec 1)
  | mosaic (lane : BitVec 1)
  | noreg04e (lane : BitVec 1)
  | bldcnt (lane : BitVec 1)
  | bldalpha (lane : BitVec 1)
  | bldy (lane : BitVec 1)
  | noreg056 (lane : BitVec 1)
  | noreg058 (offset : BitVec 3)
  | ie (lane : BitVec 1)
  | iflag (lane : BitVec 1)
  | ime (lane : BitVec 1)
  | noreg20a (lane : BitVec 1)
  | pram (o : BitVec 10)
  | vramLo (o : BitVec 16)
  | vramHi (o : BitVec 15)
  | oam (o : BitVec 10)
  deriving DecidableEq, Repr

/-- The byte lane `ADDR[0]` of a halfword register (R114). -/
def laneOf (a : Nat) : BitVec 1 := BitVec.ofNat 1 a

/-- `n = 2 + ADDR[4]` (R117). -/
def affineBgOf (a : Nat) : AffineBg := if a / 16 % 2 = 0 then .bg2 else .bg3

/-- `param = ADDR[2:1]` (R117): 0 PA, 1 PB, 2 PC, 3 PD. -/
def affineParamOf (a : Nat) : AffineParam :=
  match a / 2 % 4 with
  | 0 => .pa
  | 1 => .pb
  | 2 => .pc
  | _ => .pd

/-- `n = ADDR[1]` (R117). -/
def windowOf (a : Nat) : WindowId := if a / 2 % 2 = 0 then .win0 else .win1

/-- The address map of R117, as the ascending list of its ranges; an address outside the ranges of R81
has no target. -/
def busTarget (a : Nat) : Option BusTarget :=
  if a < 0x04000000 then none
  else if a < 0x04000002 then some (.dispcnt (laneOf a))
  else if a < 0x04000004 then some (.noreg002 (laneOf a))
  else if a < 0x04000006 then some (.dispstat (laneOf a))
  else if a < 0x04000008 then some (.vcount (laneOf a))
  else if a < 0x04000010 then some (.bgcnt (Fin.ofNat 4 (a / 2)) (laneOf a))
  else if a < 0x04000020 then
    some (.bgofs (Fin.ofNat 4 (a / 4)) (if a / 2 % 2 = 0 then .h else .v) (laneOf a))
  else if a < 0x04000040 then
    if a % 16 < 8 then some (.bgp (affineBgOf a) (affineParamOf a) (laneOf a))
    else some (.bgref (affineBgOf a) (if a / 4 % 2 = 0 then .x else .y) (BitVec.ofNat 2 a))
  else if a < 0x04000044 then some (.winh (windowOf a) (laneOf a))
  else if a < 0x04000048 then some (.winv (windowOf a) (laneOf a))
  else if a < 0x0400004A then some (.winin (laneOf a))
  else if a < 0x0400004C then some (.winout (laneOf a))
  else if a < 0x0400004E then some (.mosaic (laneOf a))
  else if a < 0x04000050 then some (.noreg04e (laneOf a))
  else if a < 0x04000052 then some (.bldcnt (laneOf a))
  else if a < 0x04000054 then some (.bldalpha (laneOf a))
  else if a < 0x04000056 then some (.bldy (laneOf a))
  else if a < 0x04000058 then some (.noreg056 (laneOf a))
  else if a < 0x04000060 then some (.noreg058 (BitVec.ofNat 3 a))
  else if a < 0x04000200 then none
  else if a < 0x04000202 then some (.ie (laneOf a))
  else if a < 0x04000204 then some (.iflag (laneOf a))
  else if a < 0x04000208 then none
  else if a < 0x0400020A then some (.ime (laneOf a))
  else if a < 0x0400020C then some (.noreg20a (laneOf a))
  else if a < 0x05000000 then none
  else if a < 0x05000400 then some (.pram (BitVec.ofNat 10 a))
  else if a < 0x06000000 then none
  else if a < 0x06010000 then some (.vramLo (BitVec.ofNat 16 a))
  else if a < 0x06018000 then some (.vramHi (BitVec.ofNat 15 a))
  else if a < 0x07000000 then none
  else if a < 0x07000400 then some (.oam (BitVec.ofNat 10 a))
  else none

/-- The `W_*` row of a bus target (R117). -/
def BusTarget.write (d : Byte) : BusTarget → Instr
  | .dispcnt l => .wDispcnt l d
  | .noreg002 l => .wNoreg002 l d
  | .dispstat l => .wDispstat l d
  | .vcount l => .wVcount l d
  | .bgcnt n l => .wBgcnt n l d
  | .bgofs n ax l => .wBgofs n ax l d
  | .bgp n p l => .wBgp n p l d
  | .bgref n ax l => .wBgref n ax l d
  | .winh n l => .wWinh n l d
  | .winv n l => .wWinv n l d
  | .winin l => .wWinin l d
  | .winout l => .wWinout l d
  | .mosaic l => .wMosaic l d
  | .noreg04e l => .wNoreg04e l d
  | .bldcnt l => .wBldcnt l d
  | .bldalpha l => .wBldalpha l d
  | .bldy l => .wBldy l d
  | .noreg056 l => .wNoreg056 l d
  | .noreg058 o => .wNoreg058 o d
  | .ie l => .wIe l d
  | .iflag l => .wIf l d
  | .ime l => .wIme l d
  | .noreg20a l => .wNoreg20a l d
  | .pram o => .wPram o d
  | .vramLo o => .wVramLo o d
  | .vramHi o => .wVramHi o d
  | .oam o => .wOam o d

/-- The `R_*` row of a bus target (R117). -/
def BusTarget.read : BusTarget → Instr
  | .dispcnt l => .rDispcnt l
  | .noreg002 l => .rNoreg002 l
  | .dispstat l => .rDispstat l
  | .vcount l => .rVcount l
  | .bgcnt n l => .rBgcnt n l
  | .bgofs n ax l => .rBgofs n ax l
  | .bgp n p l => .rBgp n p l
  | .bgref n ax l => .rBgref n ax l
  | .winh n l => .rWinh n l
  | .winv n l => .rWinv n l
  | .winin l => .rWinin l
  | .winout l => .rWinout l
  | .mosaic l => .rMosaic l
  | .noreg04e l => .rNoreg04e l
  | .bldcnt l => .rBldcnt l
  | .bldalpha l => .rBldalpha l
  | .bldy l => .rBldy l
  | .noreg056 l => .rNoreg056 l
  | .noreg058 o => .rNoreg058 o
  | .ie l => .rIe l
  | .iflag l => .rIf l
  | .ime l => .rIme l
  | .noreg20a l => .rNoreg20a l
  | .pram o => .rPram o
  | .vramLo o => .rVramLo o
  | .vramHi o => .rVramHi o
  | .oam o => .rOam o

/-- Format `BUS` (R111): bits 58:40 and the `DATA` of a read must be 0; assumption 1 fixes which reason
is given when a word breaks two rules. -/
def decodeBus (w : OpWord) : Except DecodeRefusal Instr :=
  let wr := w.extractLsb' 59 1
  let addr := w.extractLsb' 8 32
  let data := w.extractLsb' 0 8
  if w.extractLsb' 40 19 ≠ 0 then .error .nonzeroReserved
  else if wr = 0 ∧ data ≠ 0 then .error .nonzeroReserved
  else
    match busTarget addr.toNat with
    | none => .error .unownedAddress
    | some t => .ok (if wr = 1 then t.write data else t.read)

/-- A command without operands: its `TAG` and `ARG` must be 0 (R115). -/
def bare (i : Instr) (tag : Byte) (arg : BitVec 48) : Except DecodeRefusal Instr :=
  if tag = 0 ∧ arg = 0 then .ok i else .error .nonzeroReserved

/-- A command whose one operand is the whole `ARG`: its `TAG` must be 0 (R115). -/
def argOnly (i : Instr) (tag : Byte) : Except DecodeRefusal Instr :=
  if tag = 0 then .ok i else .error .nonzeroReserved

/-- Format `SCHED` (R112, R115, R116). -/
def decodeSched (sub : Nat) (tag : Byte) (arg : BitVec 48) : Except DecodeRefusal Instr :=
  match sub with
  | 0 => .ok (.schedAdd tag arg)
  | 1 => bare .schedPop tag arg
  | 2 => if arg = 0 then .ok (.schedCancel tag) else .error .nonzeroReserved
  | 3 => argOnly (.schedAdvance arg) tag
  | 4 => bare .schedDrain tag arg
  | 5 => bare .schedHaltskip tag arg
  | 6 => bare .schedNext tag arg
  | 7 => bare .schedNow tag arg
  | _ => .error .reservedSub

/-- Format `EVENT` (R112, R115, R116). -/
def decodeEvent (sub : Nat) (tag : Byte) (arg : BitVec 48) : Except DecodeRefusal Instr :=
  match sub with
  | 0 => argOnly (.eventHblankStart arg) tag
  | 1 => argOnly (.eventHblankEnd arg) tag
  | _ => .error .reservedSub

/-- Format `IRQ` (R112, R115, R116): kinds 14 and 15 are refused. -/
def decodeIrq (sub : Nat) (tag : Byte) (arg : BitVec 48) : Except DecodeRefusal Instr :=
  match sub with
  | 0 =>
    if tag ≠ 0 ∨ arg.extractLsb' 4 44 ≠ 0 then .error .nonzeroReserved
    else if 14 ≤ (arg.extractLsb' 0 4).toNat then .error .badKind
    else .ok (.irqFlag (arg.extractLsb' 0 4))
  | 1 => bare .irqLine tag arg
  | 2 => bare .irqHaltexit tag arg
  | _ => .error .reservedSub

/-- Format `HOST` (R112, R115, R116). -/
def decodeHost (sub : Nat) (tag : Byte) (arg : BitVec 48) : Except DecodeRefusal Instr :=
  match sub with
  | 0 => bare .hostReadframe tag arg
  | 1 => bare .hostClearready tag arg
  | 2 =>
    if tag ≠ 0 ∨ arg.extractLsb' 1 47 ≠ 0 then .error .nonzeroReserved
    else .ok (.hostSetcc (arg.extractLsb' 0 1))
  | 3 => bare .hostReady tag arg
  | 4 => bare .hostFrames tag arg
  | _ => .error .reservedSub

/-- Format `RENDER` (R112, R115, R116): lines 160..255 are refused. -/
def decodeRender (sub : Nat) (tag : Byte) (arg : BitVec 48) : Except DecodeRefusal Instr :=
  match sub with
  | 0 =>
    if tag ≠ 0 ∨ arg.extractLsb' 8 40 ≠ 0 then .error .nonzeroReserved
    else if Config.screenH ≤ (arg.extractLsb' 0 8).toNat then .error .badLine
    else .ok (.renderLine (arg.extractLsb' 0 8))
  | _ => .error .reservedSub

/-- The decoder (R110, R118): one operation for every word that spells one, and a refusal with its
reason for every other word. -/
def decode (w : OpWord) : Except DecodeRefusal Instr :=
  let sub := (w.extractLsb' 56 4).toNat
  let tag := w.extractLsb' 48 8
  let arg := w.extractLsb' 0 48
  match (w.extractLsb' 60 4).toNat with
  | 0 => decodeBus w
  | 1 => decodeSched sub tag arg
  | 2 => decodeEvent sub tag arg
  | 3 => decodeIrq sub tag arg
  | 4 => decodeHost sub tag arg
  | 5 => decodeRender sub tag arg
  | _ => .error .reservedPort

/-- The word whose first `nbits` bits are those of `w` and whose other bits are 0. -/
def wordOf (nbits w : Nat) : OpWord := BitVec.ofNat 64 (w % 2 ^ nbits)

/-- What the decoder reads from an opcode-table row's word. -/
def decodeTableWord (nbits w : Nat) : Option Instr :=
  match decode (wordOf nbits w) with
  | .ok i => some i
  | .error _ => none

/-- `ADDR[4]` of an affine background's registers (R117). -/
def AffineBg.code : AffineBg → Nat
  | .bg2 => 0
  | .bg3 => 1

/-- `ADDR[2:1]` of an affine coefficient (R117). -/
def AffineParam.code : AffineParam → Nat
  | .pa => 0
  | .pb => 1
  | .pc => 2
  | .pd => 3

/-- `ADDR[2]` of an affine reference register (R117). -/
def Axis.code : Axis → Nat
  | .x => 0
  | .y => 1

/-- `ADDR[1]` of a scroll register (R117). -/
def Scroll.code : Scroll → Nat
  | .h => 0
  | .v => 1

/-- `ADDR[1]` of a window register (R117). -/
def WindowId.code : WindowId → Nat
  | .win0 => 0
  | .win1 => 1

/-- The bus address of a target (R81, R117): the inverse of `busTarget`. -/
def BusTarget.addr : BusTarget → Nat
  | .dispcnt l => 0x04000000 + l.toNat
  | .noreg002 l => 0x04000002 + l.toNat
  | .dispstat l => 0x04000004 + l.toNat
  | .vcount l => 0x04000006 + l.toNat
  | .bgcnt n l => 0x04000008 + 2 * n.val + l.toNat
  | .bgofs n ax l => 0x04000010 + 4 * n.val + 2 * ax.code + l.toNat
  | .bgp n p l => 0x04000020 + 16 * n.code + 2 * p.code + l.toNat
  | .bgref n ax l => 0x04000028 + 16 * n.code + 4 * ax.code + l.toNat
  | .winh n l => 0x04000040 + 2 * n.code + l.toNat
  | .winv n l => 0x04000044 + 2 * n.code + l.toNat
  | .winin l => 0x04000048 + l.toNat
  | .winout l => 0x0400004A + l.toNat
  | .mosaic l => 0x0400004C + l.toNat
  | .noreg04e l => 0x0400004E + l.toNat
  | .bldcnt l => 0x04000050 + l.toNat
  | .bldalpha l => 0x04000052 + l.toNat
  | .bldy l => 0x04000054 + l.toNat
  | .noreg056 l => 0x04000056 + l.toNat
  | .noreg058 o => 0x04000058 + o.toNat
  | .ie l => 0x04000200 + l.toNat
  | .iflag l => 0x04000202 + l.toNat
  | .ime l => 0x04000208 + l.toNat
  | .noreg20a l => 0x0400020A + l.toNat
  | .pram o => 0x05000000 + o.toNat
  | .vramLo o => 0x06000000 + o.toNat
  | .vramHi o => 0x06010000 + o.toNat
  | .oam o => 0x07000000 + o.toNat

/-- A `BUS` word (R111): `PORT` 0, `WR`, nineteen zero bits, `ADDR`, `DATA`. -/
def busWord (wr : BitVec 1) (t : BusTarget) (data : Byte) : OpWord :=
  0#4 ++ wr ++ 0#19 ++ BitVec.ofNat 32 t.addr ++ data

/-- A word of the other formats (R112): `PORT`, `SUB`, `TAG`, `ARG`. -/
def cmdWord (port sub : BitVec 4) (tag : Byte) (arg : BitVec 48) : OpWord :=
  port ++ sub ++ tag ++ arg

/-- The operation word of an operation (R111, R112, R115 to R117). -/
def encode : Instr → OpWord
  | .wDispcnt lane data => busWord 1 (.dispcnt lane) data
  | .rDispcnt lane => busWord 0 (.dispcnt lane) 0
  | .wNoreg002 lane data => busWord 1 (.noreg002 lane) data
  | .rNoreg002 lane => busWord 0 (.noreg002 lane) 0
  | .wDispstat lane data => busWord 1 (.dispstat lane) data
  | .rDispstat lane => busWord 0 (.dispstat lane) 0
  | .wVcount lane data => busWord 1 (.vcount lane) data
  | .rVcount lane => busWord 0 (.vcount lane) 0
  | .wBgcnt n lane data => busWord 1 (.bgcnt n lane) data
  | .rBgcnt n lane => busWord 0 (.bgcnt n lane) 0
  | .wBgofs n axis lane data => busWord 1 (.bgofs n axis lane) data
  | .rBgofs n axis lane => busWord 0 (.bgofs n axis lane) 0
  | .wBgp n param lane data => busWord 1 (.bgp n param lane) data
  | .rBgp n param lane => busWord 0 (.bgp n param lane) 0
  | .wBgref n axis lane data => busWord 1 (.bgref n axis lane) data
  | .rBgref n axis lane => busWord 0 (.bgref n axis lane) 0
  | .wWinh n lane data => busWord 1 (.winh n lane) data
  | .rWinh n lane => busWord 0 (.winh n lane) 0
  | .wWinv n lane data => busWord 1 (.winv n lane) data
  | .rWinv n lane => busWord 0 (.winv n lane) 0
  | .wWinin lane data => busWord 1 (.winin lane) data
  | .rWinin lane => busWord 0 (.winin lane) 0
  | .wWinout lane data => busWord 1 (.winout lane) data
  | .rWinout lane => busWord 0 (.winout lane) 0
  | .wMosaic lane data => busWord 1 (.mosaic lane) data
  | .rMosaic lane => busWord 0 (.mosaic lane) 0
  | .wNoreg04e lane data => busWord 1 (.noreg04e lane) data
  | .rNoreg04e lane => busWord 0 (.noreg04e lane) 0
  | .wBldcnt lane data => busWord 1 (.bldcnt lane) data
  | .rBldcnt lane => busWord 0 (.bldcnt lane) 0
  | .wBldalpha lane data => busWord 1 (.bldalpha lane) data
  | .rBldalpha lane => busWord 0 (.bldalpha lane) 0
  | .wBldy lane data => busWord 1 (.bldy lane) data
  | .rBldy lane => busWord 0 (.bldy lane) 0
  | .wNoreg056 lane data => busWord 1 (.noreg056 lane) data
  | .rNoreg056 lane => busWord 0 (.noreg056 lane) 0
  | .wNoreg058 offset data => busWord 1 (.noreg058 offset) data
  | .rNoreg058 offset => busWord 0 (.noreg058 offset) 0
  | .wIe lane data => busWord 1 (.ie lane) data
  | .rIe lane => busWord 0 (.ie lane) 0
  | .wIf lane data => busWord 1 (.iflag lane) data
  | .rIf lane => busWord 0 (.iflag lane) 0
  | .wIme lane data => busWord 1 (.ime lane) data
  | .rIme lane => busWord 0 (.ime lane) 0
  | .wNoreg20a lane data => busWord 1 (.noreg20a lane) data
  | .rNoreg20a lane => busWord 0 (.noreg20a lane) 0
  | .wPram o data => busWord 1 (.pram o) data
  | .rPram o => busWord 0 (.pram o) 0
  | .wVramLo o data => busWord 1 (.vramLo o) data
  | .rVramLo o => busWord 0 (.vramLo o) 0
  | .wVramHi o data => busWord 1 (.vramHi o) data
  | .rVramHi o => busWord 0 (.vramHi o) 0
  | .wOam o data => busWord 1 (.oam o) data
  | .rOam o => busWord 0 (.oam o) 0
  | .schedAdd tag delay => cmdWord 1 0 tag delay
  | .schedPop => cmdWord 1 1 0 0
  | .schedCancel tag => cmdWord 1 2 tag 0
  | .schedAdvance n => cmdWord 1 3 0 n
  | .schedDrain => cmdWord 1 4 0 0
  | .schedHaltskip => cmdWord 1 5 0 0
  | .schedNext => cmdWord 1 6 0 0
  | .schedNow => cmdWord 1 7 0 0
  | .eventHblankStart lateness => cmdWord 2 0 0 lateness
  | .eventHblankEnd lateness => cmdWord 2 1 0 lateness
  | .irqFlag kind => cmdWord 3 0 0 (0#44 ++ kind)
  | .irqLine => cmdWord 3 1 0 0
  | .irqHaltexit => cmdWord 3 2 0 0
  | .hostReadframe => cmdWord 4 0 0 0
  | .hostClearready => cmdWord 4 1 0 0
  | .hostSetcc enable => cmdWord 4 2 0 (0#47 ++ enable)
  | .hostReady => cmdWord 4 3 0 0
  | .hostFrames => cmdWord 4 4 0 0
  | .renderLine y => cmdWord 5 0 0 (0#40 ++ y)

end Sys2Proof
end

