-- ==== Sys2Proof/Machine/State.lean ====
section
/-! DEFINITION. The state of the block as plain data (`10_state.md`), the reasons a step can stop, and
the state after power-on reset (R470). -/

namespace Sys2Proof.Machine

open Sys2Proof.Config

/-- An output pixel, RGBA8888 (R12). -/
structure Pixel where
  r : Byte
  g : Byte
  b : Byte
  a : Byte
  deriving DecidableEq, Repr

/-- A row of pixels, column 0 first (R42). -/
abbrev Row := List Pixel

/-- A framebuffer, row 0 first: pixel (x, y) is element x of row y (R42, R280). -/
abbrev Frame := List Row

/-- The LCD registers (R21 to R23). -/
structure Display where
  /-- `DISPCNT` (R21). -/
  dispcnt : Half
  /-- `DISPSTAT` (R22), the three status bits 2:0 included. -/
  dispstat : Half
  /-- `VCOUNT[7:0]` (R23); `VCOUNT[15:8]` reads 0 and holds nothing. -/
  vcount : Byte
  deriving DecidableEq, Repr

/-- The registers every background has (R24, R25). -/
structure Bg where
  /-- `BGnCNT` (R24). -/
  cnt : Half
  /-- `BGnHOFS` (R25). -/
  hofs : Half
  /-- `BGnVOFS` (R25). -/
  vofs : Half
  deriving DecidableEq, Repr

/-- The registers and latches of an affine background (R26, R27, R40, R41). -/
structure Affine where
  /-- `BGnPA` (R26). -/
  pa : Half
  /-- `BGnPB` (R26). -/
  pb : Half
  /-- `BGnPC` (R26). -/
  pc : Half
  /-- `BGnPD` (R26). -/
  pd : Half
  /-- `BGnX`, the written reference point (R27). -/
  x : BitVec 32
  /-- `BGnY`, the written reference point (R27). -/
  y : BitVec 32
  /-- `refX[n]`, the internal reference (R40). -/
  refX : BitVec 28
  /-- `refY[n]`, the internal reference (R40). -/
  refY : BitVec 28
  /-- `mosRefX[n]`, the reference latched by vertical mosaic (R41). -/
  mosRefX : BitVec 28
  /-- `mosRefY[n]`, the reference latched by vertical mosaic (R41). -/
  mosRefY : BitVec 28
  deriving DecidableEq, Repr

/-- The background layers: four sets of layer registers and the two affine units. -/
structure Backgrounds where
  bg0 : Bg
  bg1 : Bg
  bg2 : Bg
  bg3 : Bg
  aff2 : Affine
  aff3 : Affine
  deriving DecidableEq, Repr

/-- The window registers (R28 to R31). -/
structure Windows where
  /-- `WIN0H` (R28). -/
  win0h : Half
  /-- `WIN1H` (R28). -/
  win1h : Half
  /-- `WIN0V` (R29). -/
  win0v : Half
  /-- `WIN1V` (R29). -/
  win1v : Half
  /-- `WININ` (R30). -/
  winin : Half
  /-- `WINOUT` (R31). -/
  winout : Half
  deriving DecidableEq, Repr

/-- The mosaic and colour-effect registers (R32 to R35). -/
structure Effects where
  /-- `MOSAIC` (R32). -/
  mosaic : Half
  /-- `BLDCNT` (R33). -/
  bldcnt : Half
  /-- `BLDALPHA` (R34). -/
  bldalpha : Half
  /-- `BLDY` (R35). -/
  bldy : Half
  deriving DecidableEq, Repr

/-- The interrupt register bank (R36 to R38). -/
structure IrqBank where
  /-- `IE` (R36). -/
  ie : Half
  /-- `IF` (R37). -/
  iflag : Half
  /-- `IME` (R38). -/
  ime : Half
  deriving DecidableEq, Repr

/-- The vertical mosaic state shared by the backgrounds (R41); the latched references stand with the
affine units. -/
structure MosaicState where
  /-- `mosV`, 0..16. -/
  v : Fin 17
  /-- `mosLine`, the scanline last sampled. -/
  line : Byte
  deriving DecidableEq, Repr

/-- The renderer's output side and its bookkeeping (R42, R43, R48). -/
structure Output where
  front : Frame
  back : Frame
  /-- `colorCorrection` (R43). -/
  colorCorrection : Bool
  /-- `frameCounter`, modulo 2^64 (R48). -/
  frameCounter : BitVec 64
  /-- `frameReady` (R48). -/
  frameReady : Bool
  deriving DecidableEq, Repr

/-- A pending event `(due, tag, seq)` (R45). -/
structure Event where
  due : Int
  tag : Byte
  seq : BitVec 64
  deriving DecidableEq, Repr

/-- The scheduler (R45, R206). The multiset of pending events is the list of them in the order of R200,
so that equal multisets are equal lists. -/
structure Sched where
  /-- `current_ticks` (R45). -/
  ticks : Int
  queue : List Event
  /-- `nextSeq` (R45). -/
  nextSeq : BitVec 64
  /-- `draining` (R206, R210). -/
  draining : Bool
  /-- The parameter `SCHED_CAPACITY` (R9, R201): `none` is unbounded. No operation writes it. -/
  capacity : Option Nat
  deriving DecidableEq, Repr

/-- One video memory as plain data: the bytes it lists, and what a byte it does not list reads as.
`unlisted = some b`: every unlisted byte holds `b`. `unlisted = none`: the contents at power-on are
unknown, and the listed bytes are those a bus write has stored (R472). No operation writes `unlisted`. -/
structure Memory where
  unlisted : Option Byte
  cells : List Host.Cell
  deriving DecidableEq, Repr

/-- The video memories (R50). -/
structure Video where
  vram : Memory
  pram : Memory
  oam : Memory
  deriving DecidableEq, Repr

/-- Who issues the operation being executed: the environment, through the port, or the block itself
(R110: the `EVENT` and `RENDER` formats and `SCHED.POP` are internal). Assumption 8. -/
inductive Issuer where
  | environment
  | internal
  deriving DecidableEq, Repr

/-- The signals an operation emits (R113). -/
inductive Signal where
  /-- `FIRE(tag, lateness)`: an external event's callback is due. -/
  | fire (tag : Byte) (lateness : Int)
  /-- `DMA_HBLANK()`. -/
  | dmaHblank
  /-- `DMA_VBLANK()`. -/
  | dmaVblank
  deriving DecidableEq, Repr

/-- What the block puts on its ports: returned values and emitted signals. -/
inductive PortOut where
  /-- `RDATA` of a bus read (R111). -/
  | rdata (b : Byte)
  /-- A 1-bit `RVAL` (R210, R263, R265, R282). -/
  | rbit (b : Bool)
  /-- An s64 `RVAL` of `SCHED.NEXT` or `SCHED.NOW` (R209). -/
  | rticks (t : Int)
  /-- The u64 `RVAL` of `HOST.FRAMES` (R284). -/
  | rcount (n : BitVec 64)
  /-- The `RVAL` of `SCHED.POP` (R203). -/
  | revent (due : Int) (tag : Byte)
  /-- The `RVAL` of `HOST.READFRAME` (R280). -/
  | rframe (f : Frame)
  /-- An emitted signal (R113). -/
  | signal (g : Signal)
  deriving DecidableEq, Repr

/-- The block's ports and its environment as data: the model's own state (assumptions 6, 7, 8, 11, 12). -/
structure Ports where
  /-- Who issues the operation being executed. -/
  issuer : Issuer
  /-- The operation words the environment offers next, oldest first. -/
  input : List OpWord
  /-- The words the environment issues in response to the next emitted signals, one list for each
  signal, the next signal's first; a signal beyond the list is answered by no word. -/
  responses : List (List OpWord)
  /-- What the present operation has put on the ports so far, oldest first. -/
  out : List PortOut
  /-- The refused words that a response held, with their reasons (R443), oldest first. -/
  refusals : List (OpWord × DecodeRefusal)
  deriving DecidableEq, Repr

/-- The info of `TickOverflow`. R442's table gives "tag or n, due" for its two causes together; the model records
what the pseudocode of each gives, `{tag, due}` (R201) and `{n}` (R205): the model's choice (assumption 30). -/
inductive OverflowInfo where
  /-- A due time would reach `2^63 - 1`. -/
  | due (tag : Byte) (due : Int)
  /-- The clock would reach `2^63 - 1` by an advance of `n`. -/
  | advance (n : Int)
  deriving DecidableEq, Repr

/-- The kinds of fault the block raises, each with the info it records (R442). They are recorded in
`State.faults`; raising one is a next state, the stopped block (R440, R441). -/
inductive FaultKind where
  | negativeDelay (tag : Byte) (delay : Int)
  | tickOverflow (info : OverflowInfo)
  | queueFull (tag : Byte)
  | reservedTag (tag : Byte)
  | popEmpty
  | internalOnly (op : OpWord)
  | timeDecrease (n : Int)
  | drainReentry
  | callbackAdvance (n : Int)
  | unimplementedPath (dispcnt : Half)
  | prohibitedObject (index : Nat) (attr0 : Half)
  | uninitRead (memory : VMem) (offset : Nat)
  deriving DecidableEq, Repr

/-- The operation that raised a fault (R440): an operation word, or an operation the block issued itself. -/
inductive FaultOp where
  | word (w : OpWord)
  | hblankStart (lateness : Int)
  | hblankEnd (lateness : Int)
  | renderLine (y : Nat)
  deriving DecidableEq, Repr

/-- A fault record `(kind, info, op)` (R440). -/
structure FaultRecord where
  kind : FaultKind
  op : FaultOp
  deriving DecidableEq, Repr

/-- Every piece of state of the block, and the model's own ports. -/
structure State where
  display : Display
  bgs : Backgrounds
  win : Windows
  fx : Effects
  irq : IrqBank
  mos : MosaicState
  output : Output
  sched : Sched
  /-- `faults` (R49), oldest first. -/
  faults : List FaultRecord
  video : Video
  ports : Ports
  deriving DecidableEq, Repr

/-- Why the machine has no further step. The faults of R442 are no such reason: they are recorded in the
state (assumption 9). -/
inductive Fault where
  /-- Raised by `SCHED.HALTSKIP` when the halt-exit condition is false and no event is pending: R210 calls
  the machine stuck, for no event can ever end the halt. Safe: the spec gives no step here. -/
  | haltStuck
  deriving DecidableEq, Repr

/-- Why a word has no meaning. -/
inductive Refusal where
  /-- Raised by `exec` for an instruction whose meaning is not written yet. Safe: no step is claimed. -/
  | notModelled (mnemonic : String)
  /-- Raised by `step` when the offered word spells no operation (R118, R443). Safe: the spec gives such
  a word no operation, and the run does not go on past it. -/
  | refusedWord (reason : DecodeRefusal)
  deriving DecidableEq, Repr

/-- The outcome of an operation. -/
abbrev Step := Host.Outcome State Fault Refusal

/-- A framebuffer whose pixels are all `(0, 0, 0, 0)` (R42). -/
def Frame.zero : Frame :=
  List.replicate screenH (List.replicate screenW ⟨0, 0, 0, 0⟩)

/-- A background's registers after reset (R24, R25). -/
def Bg.reset : Bg := ⟨0, 0, 0⟩

/-- An affine unit after reset (R26, R27, R40, R41). -/
def Affine.reset : Affine := ⟨0, 0, 0, 0, 0, 0, 0, 0, 0, 0⟩

/-- The state after power-on reset (R470) for given values of the open parameters (R9): the video memories'
contents `VIDEO_MEM_INIT`, the bound `SCHED_CAPACITY`, and the environment's behaviour, as the words it issues in
response to the signals to come (D17, assumption 6). -/
def State.resetWith (video : Video) (capacity : Option Nat) (responses : List (List OpWord)) : State where
  display := ⟨0, 0, 0⟩
  bgs := ⟨Bg.reset, Bg.reset, Bg.reset, Bg.reset, Affine.reset, Affine.reset⟩
  win := ⟨0, 0, 0, 0, 0, 0⟩
  fx := ⟨0, 0, 0, 0⟩
  irq := ⟨0, 0, 0⟩
  mos := ⟨0, 0⟩
  output := ⟨Frame.zero, Frame.zero, false, 0, false⟩
  sched := ⟨0, [⟨960, 0, 0⟩], 1, false, capacity⟩
  faults := []
  video := video
  ports := ⟨.environment, [], responses, [], []⟩

/-- The state after power-on reset (R470). `VIDEO_MEM_INIT` is taken as all zero (assumption 2, unsafe),
`SCHED_CAPACITY` as its default, unbounded (assumption 5), and the environment as one whose callbacks and DMA
transfers issue no word (assumption 6, unsafe for a claim about the run from this state). -/
def State.reset : State :=
  State.resetWith ⟨⟨some 0, []⟩, ⟨some 0, []⟩, ⟨some 0, []⟩⟩ none []

end Sys2Proof.Machine
end

