-- ==== Sys2Proof/Machine/Ops.lean ====
section
/-! DEFINITION. The shared operations: video memory, the ports, raising a fault, and what a stopped block
does. Raising a fault is the block's one kind of exception entry; the block has no return from it (R440,
R441), and interrupt entry and return are the CPU's (R452). -/

namespace Sys2Proof.Machine

open Sys2Proof.Config

/-! ## Video memory -/

/-- The byte listed for offset `a`, if there is one. -/
def lookupCell : List Host.Cell → Nat → Option Byte
  | [], _ => none
  | (k, v) :: rest, a => if k = a then some v else lookupCell rest a

/-- The cells with offset `a` listed as `v`, in rising order of offsets. -/
def insertCell (a : Nat) (v : Byte) : List Host.Cell → List Host.Cell
  | [] => [(a, v)]
  | (k, w) :: rest =>
    if a < k then (a, v) :: (k, w) :: rest
    else if a = k then (a, v) :: rest
    else (k, w) :: insertCell a v rest

/-- The cells without offset `a`. -/
def eraseCell (a : Nat) (cells : List Host.Cell) : List Host.Cell :=
  cells.filter fun c => c.1 ≠ a

/-- The byte at offset `a`; `none` if its contents are unknown. This is the one definition of what an
unlisted offset reads as. -/
def Memory.read? (m : Memory) (a : Nat) : Option Byte :=
  match lookupCell m.cells a with
  | some v => some v
  | none => m.unlisted

/-- Store one byte, keeping the canonical form: a byte equal to what an unlisted offset reads as is
not listed. -/
def Memory.write (m : Memory) (a : Nat) (v : Byte) : Memory :=
  if m.unlisted = some v then { m with cells := eraseCell a m.cells }
  else { m with cells := insertCell a v m.cells }

/-- The canonical form of a memory of `size` bytes: offsets strictly rise and are below `size`, and no
listed byte equals what an unlisted offset reads as. -/
abbrev Memory.wf (size : Nat) (m : Memory) : Prop :=
  m.cells.Pairwise (fun p q => p.1 < q.1) ∧
    ∀ c ∈ m.cells, c.1 < size ∧ m.unlisted ≠ some c.2

/-- The memory a name stands for. -/
def Video.mem (v : Video) : VMem → Memory
  | .vram => v.vram
  | .pram => v.pram
  | .oam => v.oam

/-- Store one byte of a video memory (R89). -/
def Video.store (v : Video) (m : VMem) (a : Nat) (b : Byte) : Video :=
  match m with
  | .vram => { v with vram := v.vram.write a b }
  | .pram => { v with pram := v.pram.write a b }
  | .oam => { v with oam := v.oam.write a b }

/-- All three memories are in canonical form. -/
abbrev Video.wf (v : Video) : Prop :=
  v.vram.wf vramSize ∧ v.pram.wf pramSize ∧ v.oam.wf oamSize

/-- The byte of a video memory at an offset, `none` if its contents are unknown. -/
def State.byte? (s : State) (m : VMem) (a : Nat) : Option Byte :=
  (s.video.mem m).read? a

/-- What a bus read of a video memory byte returns (R89): the byte, or, where its contents are unknown, the
free value (assumption 3). -/
def State.busByte (s : State) (m : VMem) (a : Nat) : Byte :=
  match s.byte? m a with
  | some v => v
  | none => videoMemInit m a

/-- Store one byte of a video memory. -/
def State.storeByte (s : State) (m : VMem) (a : Nat) (b : Byte) : State :=
  { s with video := s.video.store m a b }

/-! ## Renderer reads -/

/-- What the renderer computes, or the fault it meets first. -/
abbrev Fetch (α : Type) := Except FaultKind α

/-- `X8(a)` (R11): a renderer read of one byte; a byte of unknown contents raises `UninitRead` (R472). -/
def State.fetch8 (s : State) (m : VMem) (a : Nat) : Fetch Byte :=
  match s.byte? m a with
  | some v => .ok v
  | none => .error (.uninitRead m a)

/-- `X16(a)` (R11): the little-endian halfword at an even offset, the low byte read first (assumption 18). -/
def State.fetch16 (s : State) (m : VMem) (a : Nat) : Fetch Half := do
  let lo ← s.fetch8 m a
  let hi ← s.fetch8 m (a + 1)
  pure (halfOf hi lo)

/-! ## Ports -/

/-- Put a value or a signal on the ports. -/
def State.put (s : State) (o : PortOut) : State :=
  { s with ports := { s.ports with out := s.ports.out ++ [o] } }

/-! ## Faults -/

/-- The block is stopped (R441). -/
def State.stopped (s : State) : Bool := !s.faults.isEmpty

/-- `raise Fault(kind, info)` (R440): the record is appended and nothing else changes; every operation
that raises ends there. -/
def State.raise (s : State) (kind : FaultKind) (op : FaultOp) : State :=
  { s with faults := s.faults ++ [⟨kind, op⟩] }

/-- The rest of an operation after a step that may have raised a fault (R440): nothing more is done once
the block is stopped. -/
def State.proceed (s : State) (rest : State → State) : State :=
  if s.stopped then s else rest s

/-- An operation that returns no value: a stopped block changes no state (R441). -/
def State.act (s : State) (effect : State → State) : Step :=
  .next (if s.stopped then s else effect s)

/-- An operation that only returns a value: a stopped block returns its `zero` instead (R441). -/
def State.query (s : State) (value zero : PortOut) : Step :=
  .next (s.put (if s.stopped then zero else value))

/-- An operation that acts and may return a value: a stopped block changes no state and returns `zero`
(R441). -/
def State.actReturning (s : State) (zero : PortOut) (effect : State → Step) : Step :=
  if s.stopped then .next (s.put zero) else effect s

/-- A bus read returns one byte and changes no state (R141); a stopped block returns 0 (R441). -/
def State.busRead (s : State) (value : Byte) : Step :=
  s.query (.rdata value) (.rdata 0)

/-- The operation `i`, offered on the port by the environment, is internal (R203, R238, R300). -/
def State.raiseInternalOnly (s : State) (i : Instr) : State :=
  s.raise (.internalOnly (encode i)) (.word (encode i))

/-- The state an operation leaves, for an operation that has a next state. -/
def stateAfter (s : State) : Step → State
  | .next t => t
  | .fault _ => s
  | .refused _ => s

end Sys2Proof.Machine
end

