-- ==== Sys2Proof/Machine/Operands.lean ====
section
/-! DEFINITION. Operand assembly (R114, R115), byte lanes (R140, R141), the registers an operand
selects, and the fields of the registers (`10_state.md`). -/

namespace Sys2Proof.Machine

/-! ## Byte lanes -/

/-- Byte `lane` of a value (R141): bits `8*lane+7 : 8*lane`. -/
def readLane {w : Nat} (v : BitVec w) (lane : Nat) : Byte :=
  v.extractLsb' (8 * lane) 8

/-- R140: the register after a write of byte `d` at `lane`, with writable mask `m`. -/
def writeLane {w : Nat} (reg m : BitVec w) (lane : Nat) (d : Byte) : BitVec w :=
  let sel : BitVec w := (0xFF : BitVec w) <<< (8 * lane)
  (reg &&& ~~~sel) ||| ((d.setWidth w <<< (8 * lane)) &&& m) ||| (reg &&& ~~~m &&& sel)

/-! ## Operands -/

/-- `sext_48(ARG)` (R115). -/
def argInt (arg : BitVec 48) : Int := arg.toInt

/-- Bit `i` of a register field, as 0 or 1. -/
def flag {w : Nat} (v : BitVec w) (i : Nat) : Bool := v.getLsbD i

/-- The unsigned field of `len` bits from bit `lo` up (R10). -/
def field {w : Nat} (v : BitVec w) (lo len : Nat) : Nat := (v.extractLsb' lo len).toNat

/-- `v` with bit `i` set to `b` and every other bit unchanged. -/
def setBit (v : Half) (i : Nat) (b : Bool) : Half :=
  if b then v ||| (1#16 <<< i) else v &&& ~~~(1#16 <<< i)

/-! ## Registers an operand selects -/

/-- The layer registers of background `n` (R24, R25). -/
def Backgrounds.bg (b : Backgrounds) (n : Fin 4) : Bg :=
  match n with
  | 0 => b.bg0
  | 1 => b.bg1
  | 2 => b.bg2
  | 3 => b.bg3

/-- The layer registers with those of background `n` replaced. -/
def Backgrounds.setBg (b : Backgrounds) (n : Fin 4) (r : Bg) : Backgrounds :=
  match n with
  | 0 => { b with bg0 := r }
  | 1 => { b with bg1 := r }
  | 2 => { b with bg2 := r }
  | 3 => { b with bg3 := r }

/-- The affine unit of BG2 or BG3. -/
def Backgrounds.aff (b : Backgrounds) : AffineBg → Affine
  | .bg2 => b.aff2
  | .bg3 => b.aff3

/-- The affine units with that of `n` replaced. -/
def Backgrounds.setAff (b : Backgrounds) (n : AffineBg) (a : Affine) : Backgrounds :=
  match n with
  | .bg2 => { b with aff2 := a }
  | .bg3 => { b with aff3 := a }

/-- Both affine units changed by one function, `for n in {2, 3}` (R237, R303, R341). -/
def Backgrounds.mapAff (b : Backgrounds) (f : Affine → Affine) : Backgrounds :=
  { b with aff2 := f b.aff2, aff3 := f b.aff3 }

/-- `BGnHOFS` or `BGnVOFS` (R25). -/
def Bg.ofs (r : Bg) : Scroll → Half
  | .h => r.hofs
  | .v => r.vofs

/-- `BGnHOFS` or `BGnVOFS` replaced. -/
def Bg.setOfs (r : Bg) (axis : Scroll) (v : Half) : Bg :=
  match axis with
  | .h => { r with hofs := v }
  | .v => { r with vofs := v }

/-- `BGnPA` .. `BGnPD` (R26). -/
def Affine.param (a : Affine) : AffineParam → Half
  | .pa => a.pa
  | .pb => a.pb
  | .pc => a.pc
  | .pd => a.pd

/-- One of `BGnPA` .. `BGnPD` replaced. -/
def Affine.setParam (a : Affine) (p : AffineParam) (v : Half) : Affine :=
  match p with
  | .pa => { a with pa := v }
  | .pb => { a with pb := v }
  | .pc => { a with pc := v }
  | .pd => { a with pd := v }

/-- `BGnX` or `BGnY` (R27). -/
def Affine.latch (a : Affine) : Axis → BitVec 32
  | .x => a.x
  | .y => a.y

/-- `BGnX` or `BGnY` replaced and the internal reference of that axis reloaded from it (R157). -/
def Affine.setLatch (a : Affine) (axis : Axis) (v : BitVec 32) : Affine :=
  match axis with
  | .x => { a with x := v, refX := v.extractLsb' 0 28 }
  | .y => { a with y := v, refY := v.extractLsb' 0 28 }

/-- Both internal references reloaded from the latches (R237). -/
def Affine.reload (a : Affine) : Affine :=
  { a with refX := a.x.extractLsb' 0 28, refY := a.y.extractLsb' 0 28 }

/-- `WIN0H` or `WIN1H` (R28). -/
def Windows.h (w : Windows) : WindowId → Half
  | .win0 => w.win0h
  | .win1 => w.win1h

/-- `WIN0H` or `WIN1H` replaced. -/
def Windows.setH (w : Windows) (n : WindowId) (v : Half) : Windows :=
  match n with
  | .win0 => { w with win0h := v }
  | .win1 => { w with win1h := v }

/-- `WIN0V` or `WIN1V` (R29). -/
def Windows.v (w : Windows) : WindowId → Half
  | .win0 => w.win0v
  | .win1 => w.win1v

/-- `WIN0V` or `WIN1V` replaced. -/
def Windows.setV (w : Windows) (n : WindowId) (v : Half) : Windows :=
  match n with
  | .win0 => { w with win0v := v }
  | .win1 => { w with win1v := v }

/-! ## Fields of DISPCNT (R21) -/

/-- `MODE`. -/
def dispMode (d : Half) : Nat := field d 0 3
/-- `FRAME`. -/
def dispFrame (d : Half) : Nat := field d 4 1
/-- `OBJ_1D`. -/
def dispObj1d (d : Half) : Bool := flag d 6
/-- `FORCED_BLANK`. -/
def dispForcedBlank (d : Half) : Bool := flag d 7
/-- `BG_EN[n]`. -/
def dispBgEn (d : Half) (n : Fin 4) : Bool := flag d (8 + n.val)
/-- `OBJ_EN`. -/
def dispObjEn (d : Half) : Bool := flag d 12
/-- `WIN0_EN` or `WIN1_EN`. -/
def dispWinEn (d : Half) : WindowId → Bool
  | .win0 => flag d 13
  | .win1 => flag d 14
/-- `OBJWIN_EN`. -/
def dispObjwinEn (d : Half) : Bool := flag d 15

/-! ## Fields of BGnCNT (R24) -/

/-- `PRIO`. -/
def bgPrio (c : Half) : Nat := field c 0 2
/-- `CBB * 0x4000`: the base of the tile data in VRAM. -/
def bgCharBase (c : Half) : Nat := field c 2 2 * 0x4000
/-- `MOSAIC`. -/
def bgMosaic (c : Half) : Bool := flag c 6
/-- `COLOR8`. -/
def bgColor8 (c : Half) : Bool := flag c 7
/-- `SBB * 0x800`: the base of the map in VRAM. -/
def bgScreenBase (c : Half) : Nat := field c 8 5 * 0x800
/-- `WRAP`. -/
def bgWrap (c : Half) : Bool := flag c 13
/-- `SIZE`. -/
def bgSize (c : Half) : Nat := field c 14 2

/-! ## Fields of MOSAIC (R32) -/

/-- `BG_H`. -/
def mosBgH (m : Half) : Nat := field m 0 4
/-- `BG_V`. -/
def mosBgV (m : Half) : Nat := field m 4 4
/-- `OBJ_H`. -/
def mosObjH (m : Half) : Nat := field m 8 4
/-- `OBJ_V`. -/
def mosObjV (m : Half) : Nat := field m 12 4

/-! ## Fields of BLDCNT, BLDALPHA and BLDY (R33 to R35), with the clamp of R402 -/

/-- `T1[b]`. -/
def bldT1 (c : Half) (b : Nat) : Bool := flag c b
/-- `EFFECT`. -/
def bldEffect (c : Half) : Nat := field c 6 2
/-- `T2[b]`. -/
def bldT2 (c : Half) (b : Nat) : Bool := flag c (8 + b)
/-- `eva = min(16, EVA)`. -/
def bldEva (a : Half) : Nat := min 16 (field a 0 5)
/-- `evb = min(16, EVB)`. -/
def bldEvb (a : Half) : Nat := min 16 (field a 8 5)
/-- `evy = min(16, EVY)`. -/
def bldEvy (y : Half) : Nat := min 16 (field y 0 5)

end Sys2Proof.Machine
end

