-- ==== Sys2Proof/Machine/Flags.lean ====
section
/-! DEFINITION. Every flag of the block (R51): the status and enable bits of DISPSTAT, the pending flags of
IF, the interrupt line and the halt-exit condition. -/

namespace Sys2Proof.Machine

/-! ## DISPSTAT (R22) -/

/-- `VBLANK`. -/
def statVblank (d : Half) : Bool := flag d 0
/-- `HBLANK`. -/
def statHblank (d : Half) : Bool := flag d 1
/-- `VCOUNT_MATCH`. -/
def statMatch (d : Half) : Bool := flag d 2
/-- `VBLANK_IRQ_EN`. -/
def statVblankIrqEn (d : Half) : Bool := flag d 3
/-- `HBLANK_IRQ_EN`. -/
def statHblankIrqEn (d : Half) : Bool := flag d 4
/-- `VCOUNT_IRQ_EN`. -/
def statVcountIrqEn (d : Half) : Bool := flag d 5
/-- `LYC`. -/
def statLyc (d : Half) : Byte := d.extractLsb' 8 8

/-- `DISPSTAT.VBLANK <- b`. -/
def State.setVblank (s : State) (b : Bool) : State :=
  { s with display := { s.display with dispstat := setBit s.display.dispstat 0 b } }

/-- `DISPSTAT.HBLANK <- b`. -/
def State.setHblank (s : State) (b : Bool) : State :=
  { s with display := { s.display with dispstat := setBit s.display.dispstat 1 b } }

/-- `DISPSTAT.VCOUNT_MATCH <- b`. -/
def State.setMatch (s : State) (b : Bool) : State :=
  { s with display := { s.display with dispstat := setBit s.display.dispstat 2 b } }

/-- The read value of DISPSTAT (R148): bits 7:6 read 0. -/
def dispstatValue (d : Half) : Half := d &&& 0xFF3F

/-! ## The interrupt bank (R260 to R265) -/

/-- The bits of `IE`, `IF` that hold an interrupt kind: 13:0 (R36, R37). -/
def kindMask : Half := 0x3FFF

/-- `flag_interrupt(k)` (R262): `IF <- IF | (1 << k)`. -/
def State.flagInterrupt (s : State) (k : Nat) : State :=
  { s with irq := { s.irq with iflag := s.irq.iflag ||| (1#16 <<< k) } }

/-- `flag_interrupt(k)` if `en`. -/
def State.flagInterruptIf (s : State) (en : Bool) (k : Nat) : State :=
  if en then s.flagInterrupt k else s

/-- `IF` after a bus write of `d` at `lane` (R177): write 1 to clear. -/
def clearFlags (f : Half) (lane : Nat) (d : Byte) : Half :=
  f &&& ~~~((d.setWidth 16 <<< (8 * lane)) &&& kindMask)

/-- The halt-exit condition (R265): some kind is enabled and pending; `IME` plays no part. -/
def IrqBank.haltExit (b : IrqBank) : Bool := decide (b.ie &&& b.iflag &&& kindMask ≠ 0)

/-- The level of the interrupt line (R264). -/
def IrqBank.line (b : IrqBank) : Bool := flag b.ime 0 && b.haltExit

end Sys2Proof.Machine
end

