-- ==== Sys2Proof/Machine/BusBackground.lean ====
section
/-! DEFINITION. Bus accesses to the background layer registers (R151 to R158). -/

namespace Sys2Proof.Machine

/-- `W_BGCNT` (R151): R140 on `BGnCNT` with `M = 0xFFCF`. -/
def execWBgcnt (n : Fin 4) (lane : BitVec 1) (data : Byte) (s : State) : Step :=
  s.act fun s =>
    let r := s.bgs.bg n
    { s with bgs := s.bgs.setBg n { r with cnt := writeLane r.cnt 0xFFCF lane.toNat data } }

/-- `R_BGCNT` (R152): `V = BGnCNT & 0xFFCF`. -/
def execRBgcnt (n : Fin 4) (lane : BitVec 1) (s : State) : Step :=
  s.busRead (readLane ((s.bgs.bg n).cnt &&& 0xFFCF) lane.toNat)

/-- `W_BGOFS` (R153): R140 on `BGnHOFS` or `BGnVOFS` with `M = 0x01FF`. -/
def execWBgofs (n : Fin 4) (axis : Scroll) (lane : BitVec 1) (data : Byte) (s : State) : Step :=
  s.act fun s =>
    let r := s.bgs.bg n
    { s with bgs := s.bgs.setBg n (r.setOfs axis (writeLane (r.ofs axis) 0x01FF lane.toNat data)) }

/-- `R_BGOFS` (R154): write-only, reads 0. -/
def execRBgofs (_n : Fin 4) (_axis : Scroll) (_lane : BitVec 1) (s : State) : Step :=
  s.busRead 0

/-- `W_BGP` (R155): R140 on the coefficient with `M = 0xFFFF`. -/
def execWBgp (n : AffineBg) (param : AffineParam) (lane : BitVec 1) (data : Byte) (s : State) : Step :=
  s.act fun s =>
    let a := s.bgs.aff n
    { s with bgs := s.bgs.setAff n (a.setParam param (writeLane (a.param param) 0xFFFF lane.toNat data)) }

/-- `R_BGP` (R156): write-only, reads 0. -/
def execRBgp (_n : AffineBg) (_param : AffineParam) (_lane : BitVec 1) (s : State) : Step :=
  s.busRead 0

/-- `W_BGREF` (R157): R140 on `BGnX` or `BGnY` with `M = 0x0FFFFFFF`, and the internal reference of that
axis takes the new latch. -/
def execWBgref (n : AffineBg) (axis : Axis) (lane : BitVec 2) (data : Byte) (s : State) : Step :=
  s.act fun s =>
    let a := s.bgs.aff n
    { s with bgs := s.bgs.setAff n (a.setLatch axis (writeLane (a.latch axis) 0x0FFFFFFF lane.toNat data)) }

/-- `R_BGREF` (R158): write-only, reads 0. -/
def execRBgref (_n : AffineBg) (_axis : Axis) (_lane : BitVec 2) (s : State) : Step :=
  s.busRead 0

end Sys2Proof.Machine
end

