-- ==== Sys2Proof/Machine/BusDisplay.lean ====
section
/-! DEFINITION. Bus accesses to the LCD registers and to the owned offsets that name no register
(R143 to R150). -/

namespace Sys2Proof.Machine

/-- `W_DISPCNT` (R143): R140 with `M = 0xFFF7`. -/
def execWDispcnt (lane : BitVec 1) (data : Byte) (s : State) : Step :=
  s.act fun s =>
    { s with display := { s.display with dispcnt := writeLane s.display.dispcnt 0xFFF7 lane.toNat data } }

/-- `R_DISPCNT` (R144): `V = DISPCNT & 0xFFF7`. -/
def execRDispcnt (lane : BitVec 1) (s : State) : Step :=
  s.busRead (readLane (s.display.dispcnt &&& 0xFFF7) lane.toNat)

/-- `W_DISPSTAT` (R147): R140 with `M = 0xFF38`; the match is not evaluated here. -/
def execWDispstat (lane : BitVec 1) (data : Byte) (s : State) : Step :=
  s.act fun s =>
    { s with display := { s.display with dispstat := writeLane s.display.dispstat 0xFF38 lane.toNat data } }

/-- `R_DISPSTAT` (R148). -/
def execRDispstat (lane : BitVec 1) (s : State) : Step :=
  s.busRead (readLane (dispstatValue s.display.dispstat) lane.toNat)

/-- `W_VCOUNT` (R149): no operation. -/
def execWVcount (_lane : BitVec 1) (_data : Byte) (s : State) : Step :=
  s.act fun s => s

/-- `R_VCOUNT` (R150): `V = zext_16(VCOUNT[7:0])`. -/
def execRVcount (lane : BitVec 1) (s : State) : Step :=
  s.busRead (readLane (s.display.vcount.setWidth 16) lane.toNat)

/-- `W_NOREG_002` (R145): no operation. -/
def execWNoreg002 (_lane : BitVec 1) (_data : Byte) (s : State) : Step :=
  s.act fun s => s

/-- `R_NOREG_002` (R146): reads 0. -/
def execRNoreg002 (_lane : BitVec 1) (s : State) : Step :=
  s.busRead 0

/-- `W_NOREG_04E` (R145): no operation. -/
def execWNoreg04e (_lane : BitVec 1) (_data : Byte) (s : State) : Step :=
  s.act fun s => s

/-- `R_NOREG_04E` (R146): reads 0. -/
def execRNoreg04e (_lane : BitVec 1) (s : State) : Step :=
  s.busRead 0

/-- `W_NOREG_056` (R145): no operation. -/
def execWNoreg056 (_lane : BitVec 1) (_data : Byte) (s : State) : Step :=
  s.act fun s => s

/-- `R_NOREG_056` (R146): reads 0. -/
def execRNoreg056 (_lane : BitVec 1) (s : State) : Step :=
  s.busRead 0

/-- `W_NOREG_058` (R145): no operation. -/
def execWNoreg058 (_offset : BitVec 3) (_data : Byte) (s : State) : Step :=
  s.act fun s => s

/-- `R_NOREG_058` (R146): reads 0. -/
def execRNoreg058 (_offset : BitVec 3) (s : State) : Step :=
  s.busRead 0

/-- `W_NOREG_20A` (R145): no operation. -/
def execWNoreg20a (_lane : BitVec 1) (_data : Byte) (s : State) : Step :=
  s.act fun s => s

/-- `R_NOREG_20A` (R146): reads 0. -/
def execRNoreg20a (_lane : BitVec 1) (s : State) : Step :=
  s.busRead 0

end Sys2Proof.Machine
end

