-- ==== Sys2Proof/Machine/BusEffect.lean ====
section
/-! DEFINITION. Bus accesses to the mosaic and colour-effect registers (R167 to R174). -/

namespace Sys2Proof.Machine

/-- `W_MOSAIC` (R167): R140 with `M = 0xFFFF`. -/
def execWMosaic (lane : BitVec 1) (data : Byte) (s : State) : Step :=
  s.act fun s => { s with fx := { s.fx with mosaic := writeLane s.fx.mosaic 0xFFFF lane.toNat data } }

/-- `R_MOSAIC` (R168): write-only, reads 0. -/
def execRMosaic (_lane : BitVec 1) (s : State) : Step :=
  s.busRead 0

/-- `W_BLDCNT` (R169): R140 with `M = 0x3FFF`. -/
def execWBldcnt (lane : BitVec 1) (data : Byte) (s : State) : Step :=
  s.act fun s => { s with fx := { s.fx with bldcnt := writeLane s.fx.bldcnt 0x3FFF lane.toNat data } }

/-- `R_BLDCNT` (R170): `V = BLDCNT & 0x3FFF`. -/
def execRBldcnt (lane : BitVec 1) (s : State) : Step :=
  s.busRead (readLane (s.fx.bldcnt &&& 0x3FFF) lane.toNat)

/-- `W_BLDALPHA` (R171): R140 with `M = 0x1F1F`. -/
def execWBldalpha (lane : BitVec 1) (data : Byte) (s : State) : Step :=
  s.act fun s => { s with fx := { s.fx with bldalpha := writeLane s.fx.bldalpha 0x1F1F lane.toNat data } }

/-- `R_BLDALPHA` (R172): `V = BLDALPHA & 0x1F1F`. -/
def execRBldalpha (lane : BitVec 1) (s : State) : Step :=
  s.busRead (readLane (s.fx.bldalpha &&& 0x1F1F) lane.toNat)

/-- `W_BLDY` (R173): R140 with `M = 0x001F`. -/
def execWBldy (lane : BitVec 1) (data : Byte) (s : State) : Step :=
  s.act fun s => { s with fx := { s.fx with bldy := writeLane s.fx.bldy 0x001F lane.toNat data } }

/-- `R_BLDY` (R174): write-only, reads 0. -/
def execRBldy (_lane : BitVec 1) (s : State) : Step :=
  s.busRead 0

end Sys2Proof.Machine
end

