-- ==== Sys2Proof/Machine/BusIrq.lean ====
section
/-! DEFINITION. Bus accesses to the interrupt register bank (R175 to R180) and the operations of the `IRQ`
port (R262 to R265). -/

namespace Sys2Proof.Machine

/-- `W_IE` (R175): R140 with `M = 0x3FFF`. -/
def execWIe (lane : BitVec 1) (data : Byte) (s : State) : Step :=
  s.act fun s => { s with irq := { s.irq with ie := writeLane s.irq.ie 0x3FFF lane.toNat data } }

/-- `R_IE` (R176): `V = IE & 0x3FFF`. -/
def execRIe (lane : BitVec 1) (s : State) : Step :=
  s.busRead (readLane (s.irq.ie &&& 0x3FFF) lane.toNat)

/-- `W_IF` (R177): write 1 to clear. -/
def execWIf (lane : BitVec 1) (data : Byte) (s : State) : Step :=
  s.act fun s => { s with irq := { s.irq with iflag := clearFlags s.irq.iflag lane.toNat data } }

/-- `R_IF` (R178): `V = IF & 0x3FFF`; reading acknowledges nothing. -/
def execRIf (lane : BitVec 1) (s : State) : Step :=
  s.busRead (readLane (s.irq.iflag &&& 0x3FFF) lane.toNat)

/-- `W_IME` (R179): R140 with `M = 0x0001`. -/
def execWIme (lane : BitVec 1) (data : Byte) (s : State) : Step :=
  s.act fun s => { s with irq := { s.irq with ime := writeLane s.irq.ime 0x0001 lane.toNat data } }

/-- `R_IME` (R180): `V = IME & 0x0001`. -/
def execRIme (lane : BitVec 1) (s : State) : Step :=
  s.busRead (readLane (s.irq.ime &&& 0x0001) lane.toNat)

/-- `IRQ.FLAG` (R262): the flag is set whatever `IE` and `IME` hold. -/
def execIrqFlag (kind : BitVec 4) (s : State) : Step :=
  s.act fun s => s.flagInterrupt kind.toNat

/-- `IRQ.LINE` (R263): `RVAL <- IRQ`, the level of R264. -/
def execIrqLine (s : State) : Step :=
  s.query (.rbit s.irq.line) (.rbit false)

/-- `IRQ.HALTEXIT` (R265): the halt-exit condition. -/
def execIrqHaltexit (s : State) : Step :=
  s.query (.rbit s.irq.haltExit) (.rbit false)

end Sys2Proof.Machine
end

