-- ==== Sys2Proof/Machine/BusVideo.lean ====
section
/-! DEFINITION. Bus accesses to the video memories (R181 to R186). -/

namespace Sys2Proof.Machine

/-- The VRAM offset of `W_VRAM_HI` and `R_VRAM_HI` (R183): 0x10000..0x17FFF. -/
def vramHiOffset (o : BitVec 15) : Nat := 0x10000 + o.toNat

/-- `W_PRAM` (R181): `PRAM[o] <- DATA`. -/
def execWPram (o : BitVec 10) (data : Byte) (s : State) : Step :=
  s.act fun s => s.storeByte .pram o.toNat data

/-- `R_PRAM` (R182): `RDATA <- PRAM[o]`. -/
def execRPram (o : BitVec 10) (s : State) : Step :=
  s.busRead (s.busByte .pram o.toNat)

/-- `W_VRAM_LO` (R183): `VRAM[o] <- DATA`. -/
def execWVramLo (o : BitVec 16) (data : Byte) (s : State) : Step :=
  s.act fun s => s.storeByte .vram o.toNat data

/-- `R_VRAM_LO` (R184): `RDATA <- VRAM[o]`. -/
def execRVramLo (o : BitVec 16) (s : State) : Step :=
  s.busRead (s.busByte .vram o.toNat)

/-- `W_VRAM_HI` (R183): `VRAM[o] <- DATA`. -/
def execWVramHi (o : BitVec 15) (data : Byte) (s : State) : Step :=
  s.act fun s => s.storeByte .vram (vramHiOffset o) data

/-- `R_VRAM_HI` (R184): `RDATA <- VRAM[o]`. -/
def execRVramHi (o : BitVec 15) (s : State) : Step :=
  s.busRead (s.busByte .vram (vramHiOffset o))

/-- `W_OAM` (R185): `OAM[o] <- DATA`. -/
def execWOam (o : BitVec 10) (data : Byte) (s : State) : Step :=
  s.act fun s => s.storeByte .oam o.toNat data

/-- `R_OAM` (R186): `RDATA <- OAM[o]`. -/
def execROam (o : BitVec 10) (s : State) : Step :=
  s.busRead (s.busByte .oam o.toNat)

end Sys2Proof.Machine
end

