-- ==== Sys2Proof/Machine/BusWindow.lean ====
section
/-! DEFINITION. Bus accesses to the window registers (R159 to R166). -/

namespace Sys2Proof.Machine

/-- `W_WINH` (R159): R140 on `WINnH` with `M = 0xFFFF`. -/
def execWWinh (n : WindowId) (lane : BitVec 1) (data : Byte) (s : State) : Step :=
  s.act fun s => { s with win := s.win.setH n (writeLane (s.win.h n) 0xFFFF lane.toNat data) }

/-- `R_WINH` (R160): write-only, reads 0. -/
def execRWinh (_n : WindowId) (_lane : BitVec 1) (s : State) : Step :=
  s.busRead 0

/-- `W_WINV` (R161): R140 on `WINnV` with `M = 0xFFFF`. -/
def execWWinv (n : WindowId) (lane : BitVec 1) (data : Byte) (s : State) : Step :=
  s.act fun s => { s with win := s.win.setV n (writeLane (s.win.v n) 0xFFFF lane.toNat data) }

/-- `R_WINV` (R162): write-only, reads 0. -/
def execRWinv (_n : WindowId) (_lane : BitVec 1) (s : State) : Step :=
  s.busRead 0

/-- `W_WININ` (R163): R140 with `M = 0x3F3F`. -/
def execWWinin (lane : BitVec 1) (data : Byte) (s : State) : Step :=
  s.act fun s => { s with win := { s.win with winin := writeLane s.win.winin 0x3F3F lane.toNat data } }

/-- `R_WININ` (R164): `V = WININ & 0x3F3F`. -/
def execRWinin (lane : BitVec 1) (s : State) : Step :=
  s.busRead (readLane (s.win.winin &&& 0x3F3F) lane.toNat)

/-- `W_WINOUT` (R165): R140 with `M = 0x3F3F`. -/
def execWWinout (lane : BitVec 1) (data : Byte) (s : State) : Step :=
  s.act fun s => { s with win := { s.win with winout := writeLane s.win.winout 0x3F3F lane.toNat data } }

/-- `R_WINOUT` (R166): `V = WINOUT & 0x3F3F`. -/
def execRWinout (lane : BitVec 1) (s : State) : Step :=
  s.busRead (readLane (s.win.winout &&& 0x3F3F) lane.toNat)

end Sys2Proof.Machine
end

