-- ==== Sys2Proof/Machine/HostPort.lean ====
section
/-! DEFINITION. The host port (R280 to R284). No host operation moves the clock or touches bus state
(R286). -/

namespace Sys2Proof.Machine

/-- `HOST.READFRAME` (R280): `RVAL <- front`. -/
def execHostReadframe (s : State) : Step :=
  s.query (.rframe s.output.front) (.rframe Frame.zero)

/-- `HOST.CLEARREADY` (R281): `frameReady <- 0`. -/
def execHostClearready (s : State) : Step :=
  s.act fun s => { s with output := { s.output with frameReady := false } }

/-- `HOST.SETCC` (R283): `colorCorrection <- enable`. -/
def execHostSetcc (enable : BitVec 1) (s : State) : Step :=
  s.act fun s => { s with output := { s.output with colorCorrection := decide (enable = 1) } }

/-- `HOST.READY` (R282): `RVAL <- frameReady`. -/
def execHostReady (s : State) : Step :=
  s.query (.rbit s.output.frameReady) (.rbit false)

/-- `HOST.FRAMES` (R284): `RVAL <- frameCounter`. -/
def execHostFrames (s : State) : Step :=
  s.query (.rcount s.output.frameCounter) (.rcount 0)

end Sys2Proof.Machine
end

