-- ==== Sys2Proof/Machine/Sched.lean ====
section
/-! DEFINITION. The event scheduler's order, its primitives, and the operations that fire no event
(R200 to R205, R209, R211). -/

namespace Sys2Proof.Machine

open Sys2Proof.Config

/-- The tag `HBLANK_START` (R46). -/
abbrev tagHblankStart : Byte := 0

/-- The tag `HBLANK_END` (R46). -/
abbrev tagHblankEnd : Byte := 1

/-- The tag belongs to the LCD timing controller (R46). -/
def isLcdTag (tag : Byte) : Bool := decide (tag = tagHblankStart ∨ tag = tagHblankEnd)

/-- The order of events (R200): by `due`, then by `seq`. -/
def Event.before (a b : Event) : Bool :=
  decide (a.due < b.due ∨ (a.due = b.due ∧ a.seq.toNat < b.seq.toNat))

/-- The pending events with `e` added, in the order of R200. -/
def insertEvent (e : Event) : List Event → List Event
  | [] => [e]
  | f :: rest => if e.before f then e :: f :: rest else f :: insertEvent e rest

/-- The pending events without the first one that carries `tag` (R204). -/
def cancelTag (tag : Byte) : List Event → List Event
  | [] => []
  | e :: rest => if e.tag = tag then rest else e :: cancelTag tag rest

/-- `next_event_ticks` (R45, R209): the least due time, or `2^63 - 1` when nothing is pending. -/
def Sched.nextTicks (q : Sched) : Int :=
  match q.queue with
  | [] => tickLimit
  | e :: _ => e.due

/-- The queue is as full as `SCHED_CAPACITY` allows (R201). -/
def Sched.full (q : Sched) : Bool :=
  match q.capacity with
  | none => false
  | some c => decide (q.queue.length = c)

/-- `schedule(tag, delay)` (R201), with the checks in the order of R445; `op` is the operation that calls it. -/
def State.schedule (s : State) (tag : Byte) (delay : Int) (op : FaultOp) : State :=
  let due := s.sched.ticks + delay
  if delay < 0 then s.raise (.negativeDelay tag delay) op
  else if tickLimit ≤ due then s.raise (.tickOverflow (.due tag due)) op
  else if s.sched.full then s.raise (.queueFull tag) op
  else
    { s with sched := { s.sched with
        queue := insertEvent ⟨due, tag, s.sched.nextSeq⟩ s.sched.queue
        nextSeq := s.sched.nextSeq + 1 } }

/-- `SCHED.ADD` (R202). -/
def execSchedAdd (tag : Byte) (delay : BitVec 48) (s : State) : Step :=
  s.act fun s =>
    let op := FaultOp.word (encode (.schedAdd tag delay))
    if isLcdTag tag then s.raise (.reservedTag tag) op
    else s.schedule tag (argInt delay) op

/-- The internal `POP` (R203): the first pending event leaves the queue and its due time and tag are
returned. -/
def State.popReturning (s : State) : State :=
  match s.sched.queue with
  | [] => s.raise .popEmpty (.word (encode .schedPop))
  | e :: rest => { s with sched := { s.sched with queue := rest } }.put (.revent e.due e.tag)

/-- `SCHED.POP` (R203): internal; offered by the environment it raises `InternalOnly`. -/
def execSchedPop (s : State) : Step :=
  s.actReturning (.revent 0 0) fun s =>
    match s.ports.issuer with
    | .environment => .next (s.raiseInternalOnly .schedPop)
    | .internal => .next s.popReturning

/-- `SCHED.CANCEL` (R204). -/
def execSchedCancel (tag : Byte) (s : State) : Step :=
  s.act fun s =>
    if isLcdTag tag then s.raise (.reservedTag tag) (.word (encode (.schedCancel tag)))
    else { s with sched := { s.sched with queue := cancelTag tag s.sched.queue } }

/-- The clock advance of R205. -/
def State.advance (s : State) (n : Int) (op : FaultOp) : State :=
  if n < 0 then s.raise (.timeDecrease n) op
  else if tickLimit ≤ s.sched.ticks + n then s.raise (.tickOverflow (.advance n)) op
  else { s with sched := { s.sched with ticks := s.sched.ticks + n } }

/-- `SCHED.ADVANCE` (R205); from inside a drain it raises `CallbackAdvance` (R211, assumptions 16
and 28). -/
def execSchedAdvance (n : BitVec 48) (s : State) : Step :=
  s.act fun s =>
    let op := FaultOp.word (encode (.schedAdvance n))
    if s.sched.draining then s.raise (.callbackAdvance (argInt n)) op
    else s.advance (argInt n) op

/-- `SCHED.NEXT` (R209). -/
def execSchedNext (s : State) : Step :=
  s.query (.rticks s.sched.nextTicks) (.rticks 0)

/-- `SCHED.NOW` (R209). -/
def execSchedNow (s : State) : Step :=
  s.query (.rticks s.sched.ticks) (.rticks 0)

end Sys2Proof.Machine
end

