-- ==== Sys2Proof/Machine/Callback.lean ====
section
/-! DEFINITION. Emitting a signal, and the operations the environment issues in response to it before the
emitting operation goes on (R113, R207, R211). -/

namespace Sys2Proof.Machine

/-- An operation that ends in one fault, if the block is not stopped. -/
def State.refuseInResponse (s : State) (zero : List PortOut) (kind : FaultKind) (i : Instr) : State :=
  if s.stopped then zero.foldl State.put s else s.raise kind (.word (encode i))

/-- One operation of a response (R211). A drain or halt skip raises `DrainReentry` (R207), an advance
`CallbackAdvance`, an internal operation `InternalOnly`; every other operation is its own meaning. That the
advance of a DMA transfer (R113) faults as a callback's does, where R211 speaks of callbacks only, is the model's
choice (assumption 28). -/
def State.respond (s : State) (i : Instr) : State :=
  match i with
  | .wDispcnt lane data => stateAfter s (execWDispcnt lane data s)
  | .rDispcnt lane => stateAfter s (execRDispcnt lane s)
  | .wNoreg002 lane data => stateAfter s (execWNoreg002 lane data s)
  | .rNoreg002 lane => stateAfter s (execRNoreg002 lane s)
  | .wDispstat lane data => stateAfter s (execWDispstat lane data s)
  | .rDispstat lane => stateAfter s (execRDispstat lane s)
  | .wVcount lane data => stateAfter s (execWVcount lane data s)
  | .rVcount lane => stateAfter s (execRVcount lane s)
  | .wBgcnt n lane data => stateAfter s (execWBgcnt n lane data s)
  | .rBgcnt n lane => stateAfter s (execRBgcnt n lane s)
  | .wBgofs n axis lane data => stateAfter s (execWBgofs n axis lane data s)
  | .rBgofs n axis lane => stateAfter s (execRBgofs n axis lane s)
  | .wBgp n param lane data => stateAfter s (execWBgp n param lane data s)
  | .rBgp n param lane => stateAfter s (execRBgp n param lane s)
  | .wBgref n axis lane data => stateAfter s (execWBgref n axis lane data s)
  | .rBgref n axis lane => stateAfter s (execRBgref n axis lane s)
  | .wWinh n lane data => stateAfter s (execWWinh n lane data s)
  | .rWinh n lane => stateAfter s (execRWinh n lane s)
  | .wWinv n lane data => stateAfter s (execWWinv n lane data s)
  | .rWinv n lane => stateAfter s (execRWinv n lane s)
  | .wWinin lane data => stateAfter s (execWWinin lane data s)
  | .rWinin lane => stateAfter s (execRWinin lane s)
  | .wWinout lane data => stateAfter s (execWWinout lane data s)
  | .rWinout lane => stateAfter s (execRWinout lane s)
  | .wMosaic lane data => stateAfter s (execWMosaic lane data s)
  | .rMosaic lane => stateAfter s (execRMosaic lane s)
  | .wNoreg04e lane data => stateAfter s (execWNoreg04e lane data s)
  | .rNoreg04e lane => stateAfter s (execRNoreg04e lane s)
  | .wBldcnt lane data => stateAfter s (execWBldcnt lane data s)
  | .rBldcnt lane => stateAfter s (execRBldcnt lane s)
  | .wBldalpha lane data => stateAfter s (execWBldalpha lane data s)
  | .rBldalpha lane => stateAfter s (execRBldalpha lane s)
  | .wBldy lane data => stateAfter s (execWBldy lane data s)
  | .rBldy lane => stateAfter s (execRBldy lane s)
  | .wNoreg056 lane data => stateAfter s (execWNoreg056 lane data s)
  | .rNoreg056 lane => stateAfter s (execRNoreg056 lane s)
  | .wNoreg058 offset data => stateAfter s (execWNoreg058 offset data s)
  | .rNoreg058 offset => stateAfter s (execRNoreg058 offset s)
  | .wIe lane data => stateAfter s (execWIe lane data s)
  | .rIe lane => stateAfter s (execRIe lane s)
  | .wIf lane data => stateAfter s (execWIf lane data s)
  | .rIf lane => stateAfter s (execRIf lane s)
  | .wIme lane data => stateAfter s (execWIme lane data s)
  | .rIme lane => stateAfter s (execRIme lane s)
  | .wNoreg20a lane data => stateAfter s (execWNoreg20a lane data s)
  | .rNoreg20a lane => stateAfter s (execRNoreg20a lane s)
  | .wPram o data => stateAfter s (execWPram o data s)
  | .rPram o => stateAfter s (execRPram o s)
  | .wVramLo o data => stateAfter s (execWVramLo o data s)
  | .rVramLo o => stateAfter s (execRVramLo o s)
  | .wVramHi o data => stateAfter s (execWVramHi o data s)
  | .rVramHi o => stateAfter s (execRVramHi o s)
  | .wOam o data => stateAfter s (execWOam o data s)
  | .rOam o => stateAfter s (execROam o s)
  | .schedAdd tag delay => stateAfter s (execSchedAdd tag delay s)
  | .schedPop => s.refuseInResponse [.revent 0 0] (.internalOnly (encode .schedPop)) .schedPop
  | .schedCancel tag => stateAfter s (execSchedCancel tag s)
  | .schedAdvance n => s.refuseInResponse [] (.callbackAdvance (argInt n)) (.schedAdvance n)
  | .schedDrain => s.refuseInResponse [] .drainReentry .schedDrain
  | .schedHaltskip => s.refuseInResponse [.rbit false] .drainReentry .schedHaltskip
  | .schedNext => stateAfter s (execSchedNext s)
  | .schedNow => stateAfter s (execSchedNow s)
  | .eventHblankStart lateness =>
    s.refuseInResponse [] (.internalOnly (encode (.eventHblankStart lateness))) (.eventHblankStart lateness)
  | .eventHblankEnd lateness =>
    s.refuseInResponse [] (.internalOnly (encode (.eventHblankEnd lateness))) (.eventHblankEnd lateness)
  | .irqFlag kind => stateAfter s (execIrqFlag kind s)
  | .irqLine => stateAfter s (execIrqLine s)
  | .irqHaltexit => stateAfter s (execIrqHaltexit s)
  | .hostReadframe => stateAfter s (execHostReadframe s)
  | .hostClearready => stateAfter s (execHostClearready s)
  | .hostSetcc enable => stateAfter s (execHostSetcc enable s)
  | .hostReady => stateAfter s (execHostReady s)
  | .hostFrames => stateAfter s (execHostFrames s)
  | .renderLine y => s.refuseInResponse [] (.internalOnly (encode (.renderLine y))) (.renderLine y)

/-- One word of a response. A refused word has no effect but its mark (R118, R443, assumption 12). -/
def State.respondWord (s : State) (w : OpWord) : State :=
  match decode w with
  | .ok i => s.respond i
  | .error r => { s with ports := { s.ports with refusals := s.ports.refusals ++ [(w, r)] } }

/-- The words the environment issues in response to the next signal. -/
def State.nextResponse (s : State) : List OpWord := s.ports.responses.headD []

/-- `emit g` (R113): the signal is put on the port, and the environment's response to it is carried out to
its end before the emitting operation goes on. -/
def State.emit (s : State) (g : Signal) : State :=
  let t := { s with ports := { s.ports with responses := s.ports.responses.tail } }.put (.signal g)
  s.nextResponse.foldl State.respondWord t

end Sys2Proof.Machine
end

