-- ==== Sys2Proof/Machine/RenderBg.lean ====
section
/-! DEFINITION. The background layers of the scanline renderer: modes and layer order, text, affine and
bitmap layers, and horizontal mosaic (R301 to R340). -/

namespace Sys2Proof.Machine

open Sys2Proof.Config

/-- Where a pixel comes from (R304, R401). -/
inductive Src where
  | bg (n : Fin 4)
  | obj
  | bd
  | empty
  deriving DecidableEq, Repr

/-- A pixel record `(colour, prio, src)` (R304); `semi` marks a semi-transparent object (R359). -/
structure Px where
  colour : Colour
  prio : Nat
  src : Src
  semi : Bool
  deriving DecidableEq, Repr

/-- The kind of a background layer (R301). -/
inductive LayerKind where
  | text
  | affine
  | bitmap3
  | bitmap4
  | bitmap5
  deriving DecidableEq, Repr

/-- `mode_layers(m)` (R301) at background `n`; `none` is absent. -/
def layerKind (mode : Nat) (n : Fin 4) : Option LayerKind :=
  match mode, n with
  | 0, _ => some .text
  | 1, 0 => some .text
  | 1, 1 => some .text
  | 1, 2 => some .affine
  | 2, 2 => some .affine
  | 2, 3 => some .affine
  | 3, 2 => some .bitmap3
  | 4, 2 => some .bitmap4
  | 5, 2 => some .bitmap5
  | _, _ => none

/-- Background `n` is enabled and present (R302). -/
def State.layerShown (s : State) (n : Fin 4) : Bool :=
  dispBgEn s.display.dispcnt n && (layerKind (dispMode s.display.dispcnt) n).isSome

/-- `layer_order` (R302): the shown backgrounds back to front, by `(PRIO, n)` descending. -/
def State.layerOrder (s : State) : List (Fin 4) :=
  [3, 2, 1, 0].flatMap fun prio =>
    ([3, 2, 1, 0] : List (Fin 4)).filter fun n =>
      s.layerShown n && decide (bgPrio (s.bgs.bg n).cnt = prio)

/-- The 15-bit colour at an even offset of palette memory; bit 15 is ignored (R12). -/
def State.paletteColour (s : State) (a : Nat) : Fetch Colour := do
  let h ← s.fetch16 .pram a
  pure (h.extractLsb' 0 15)

/-- A pixel of background `n` (R304). -/
def State.bgPx (s : State) (n : Fin 4) (c : Colour) : Px :=
  ⟨c, bgPrio (s.bgs.bg n).cnt, .bg n, false⟩

/-- The nibble of a 4-bit-per-pixel byte: even columns in the low nibble (R312, R354). -/
def nibble (b : Byte) (x : Nat) : Nat :=
  if x % 2 = 0 then field b 0 4 else field b 4 4

/-! ## Text layers -/

/-- The width of a text layer in pixels (R310). -/
def textWidth (size : Nat) : Nat := if size = 1 ∨ size = 3 then 512 else 256

/-- The height of a text layer in pixels (R310). -/
def textHeight (size : Nat) : Nat := if size = 2 ∨ size = 3 then 512 else 256

/-- The screenblock of a map position (R311). -/
def screenBlock (size mx my : Nat) : Nat :=
  match size with
  | 0 => 0
  | 1 => mx / 256
  | 2 => my / 256
  | _ => 2 * (my / 256) + mx / 256

/-- `tile_pixel(n, e, px, py)` (R312) with the fetch limit of R315. -/
def State.tilePixel (s : State) (n : Fin 4) (e : Half) (px py : Nat) : Fetch (Option Px) :=
  let cnt := (s.bgs.bg n).cnt
  let tile := field e 0 10
  let px := if flag e 10 then 7 - px else px
  let py := if flag e 11 then 7 - py else py
  let base := bgCharBase cnt
  if bgColor8 cnt then
    let a := base + tile * 64 + py * 8 + px
    if 0x10000 ≤ a then .ok none
    else do
      let b ← s.fetch8 .vram a
      let i := b.toNat
      if i = 0 then pure none
      else do
        let c ← s.paletteColour (2 * i)
        pure (some (s.bgPx n c))
  else
    let a := base + tile * 32 + py * 4 + px / 2
    if 0x10000 ≤ a then .ok none
    else do
      let b ← s.fetch8 .vram a
      let i := nibble b px
      if i = 0 then pure none
      else do
        let c ← s.paletteColour (2 * (16 * field e 12 4 + i))
        pure (some (s.bgPx n c))

/-- The VRAM offset of the map entry of a text layer at map position `(mx, my)` (R311). -/
def textEntryAddr (cnt : Half) (mx my : Nat) : Nat :=
  bgScreenBase cnt + screenBlock (bgSize cnt) mx my * 0x800 + my % 256 / 8 * 64 + mx % 256 / 8 * 2

/-- `text_pixel(n, x, y)` (R311). -/
def State.textPixel (s : State) (n : Fin 4) (y x : Nat) : Fetch (Option Px) :=
  let r := s.bgs.bg n
  let yy := if bgMosaic r.cnt then s.mos.line.toNat else y
  let mx := (x + field r.hofs 0 9) % textWidth (bgSize r.cnt)
  let my := (yy + field r.vofs 0 9) % textHeight (bgSize r.cnt)
  let ea := textEntryAddr r.cnt mx my
  if 0x10000 ≤ ea then .ok none
  else do
    let e ← s.fetch16 .vram ea
    s.tilePixel n e (mx % 8) (my % 8)

/-! ## Affine and bitmap layers -/

/-- The affine unit of background `n`; only BG2 and BG3 are ever affine (R301). -/
def affineOf (n : Fin 4) : AffineBg := if n = 3 then .bg3 else .bg2

/-- The texel `(tx, ty)` that column `x` samples (R321): the reference point plus `x` steps, with the
fraction dropped by an arithmetic shift of 8 (a floor division by 256, R10). -/
def State.affineTexel (s : State) (n : Fin 4) (x : Nat) : Int × Int :=
  let a := s.bgs.aff (affineOf n)
  let mosaic := bgMosaic (s.bgs.bg n).cnt
  let rx := if mosaic then a.mosRefX else a.refX
  let ry := if mosaic then a.mosRefY else a.refY
  ((rx.toInt + a.pa.toInt * x) / 256, (ry.toInt + a.pc.toInt * x) / 256)

/-- `0 <= t < size`. -/
def inside (t : Int) (size : Nat) : Bool := decide (0 ≤ t ∧ t < size)

/-- The size in pixels of an affine layer (R320). -/
def affineSize (cnt : Half) : Nat := 128 <<< bgSize cnt

/-- The texel of an affine layer at `(tx, ty)` inside its square (R321). -/
def State.affineTile (s : State) (n : Fin 4) (tx ty : Nat) : Fetch (Option Px) :=
  let cnt := (s.bgs.bg n).cnt
  let ma := bgScreenBase cnt + ty / 8 * (affineSize cnt / 8) + tx / 8
  if 0x10000 ≤ ma then .ok none
  else do
    let t ← s.fetch8 .vram ma
    let a := bgCharBase cnt + t.toNat * 64 + ty % 8 * 8 + tx % 8
    if 0x10000 ≤ a then pure none
    else do
      let i ← s.fetch8 .vram a
      if i = 0 then pure none
      else do
        let c ← s.paletteColour (2 * i.toNat)
        pure (some (s.bgPx n c))

/-- `affine_pixel(n, x)` (R321): wrapped or clipped by `WRAP`. -/
def State.affinePixel (s : State) (n : Fin 4) (x : Nat) : Fetch (Option Px) :=
  let size := affineSize (s.bgs.bg n).cnt
  let t := s.affineTexel n x
  if bgWrap (s.bgs.bg n).cnt then
    s.affineTile n (t.1 % size).toNat (t.2 % size).toNat
  else if inside t.1 size && inside t.2 size then s.affineTile n t.1.toNat t.2.toNat
  else .ok none

/-- The base of the frame that `DISPCNT.FRAME` selects in modes 4 and 5 (R330). -/
def State.frameBase (s : State) : Nat := 0xA000 * dispFrame s.display.dispcnt

/-- The pixel function of a bitmap layer of size `w` by `h` (R330): always clipped, never wrapped. -/
def State.bitmapPixel (s : State) (n : Fin 4) (w h : Nat) (texel : Nat → Nat → Fetch (Option Px)) (x : Nat) :
    Fetch (Option Px) :=
  let t := s.affineTexel n x
  if inside t.1 w && inside t.2 h then texel t.1.toNat t.2.toNat else .ok none

/-- A 16-bit bitmap pixel at VRAM offset `a` (R331, R333): never transparent. -/
def State.direct16 (s : State) (n : Fin 4) (a : Nat) : Fetch (Option Px) := do
  let h ← s.fetch16 .vram a
  pure (some (s.bgPx n (h.extractLsb' 0 15)))

/-- Mode 3 (R331). -/
def State.bitmap3Texel (s : State) (n : Fin 4) (tx ty : Nat) : Fetch (Option Px) :=
  s.direct16 n (2 * (240 * ty + tx))

/-- Mode 4 (R332). -/
def State.bitmap4Texel (s : State) (n : Fin 4) (tx ty : Nat) : Fetch (Option Px) := do
  let i ← s.fetch8 .vram (s.frameBase + 240 * ty + tx)
  if i = 0 then pure none
  else do
    let c ← s.paletteColour (2 * i.toNat)
    pure (some (s.bgPx n c))

/-- Mode 5 (R333). -/
def State.bitmap5Texel (s : State) (n : Fin 4) (tx ty : Nat) : Fetch (Option Px) :=
  s.direct16 n (s.frameBase + 2 * (160 * ty + tx))

/-! ## A layer's row -/

/-- The unmosaicked pixel function of a layer of a given kind (R311, R321, R330). -/
def State.layerPixel (s : State) (kind : LayerKind) (n : Fin 4) (y x : Nat) : Fetch (Option Px) :=
  match kind with
  | .text => s.textPixel n y x
  | .affine => s.affinePixel n x
  | .bitmap3 => s.bitmapPixel n 240 160 (s.bitmap3Texel n) x
  | .bitmap4 => s.bitmapPixel n 240 160 (s.bitmap4Texel n) x
  | .bitmap5 => s.bitmapPixel n 160 128 (s.bitmap5Texel n) x

/-- The sample-and-hold of R340 over the columns `xs`, from counter `h` and held sample `held`. -/
def holdRow (size : Nat) (f : Nat → Fetch (Option Px)) :
    List Nat → Nat → Option Px → Fetch (List (Option Px))
  | [], _, _ => .ok []
  | x :: xs, h, held => do
    let held ← (if h = 0 then f x else pure held)
    let rest ← holdRow size f xs (if h + 1 > size then 0 else h + 1) held
    pure (held :: rest)

/-- The screen's columns. -/
def columns : List Nat := List.range screenW

/-- `bg_column` of a layer at every column of a scanline: held when `BGnCNT.MOSAIC = 1`, and otherwise
the pixel function itself (R340). -/
def State.bgRow (s : State) (n : Fin 4) (y : Nat) : Fetch (List (Option Px)) :=
  match layerKind (dispMode s.display.dispcnt) n with
  | none => .ok (columns.map fun _ => none)
  | some kind =>
    let f := s.layerPixel kind n y
    if bgMosaic (s.bgs.bg n).cnt then holdRow (mosBgH s.fx.mosaic) f columns 0 none
    else columns.mapM f

end Sys2Proof.Machine
end

