-- ==== Sys2Proof/Machine/RenderObj.lean ====
section
/-! DEFINITION. Objects and the sprite priority resolver (R350 to R364). -/

namespace Sys2Proof.Machine

open Sys2Proof.Config

/-- The attributes of OAM entry `index` (R350). -/
structure ObjAttr where
  index : Nat
  a0 : Half
  a1 : Half
  a2 : Half
  deriving DecidableEq, Repr

/-- A column of the object line buffer: `obj[x]` and `objwin[x]` (R352). -/
structure ObjCol where
  px : Option Px
  win : Bool
  deriving DecidableEq, Repr

/-- The object line buffer, column 0 first. -/
abbrev ObjLine := List ObjCol

/-! ## Attribute fields (R351) -/

/-- `Y`. -/
def ObjAttr.y (o : ObjAttr) : Nat := field o.a0 0 8
/-- `AFF`. -/
def ObjAttr.aff (o : ObjAttr) : Bool := flag o.a0 8
/-- `DBL`. -/
def ObjAttr.dbl (o : ObjAttr) : Bool := flag o.a0 9
/-- `OMODE`. -/
def ObjAttr.mode (o : ObjAttr) : Nat := field o.a0 10 2
/-- `MOS`. -/
def ObjAttr.mos (o : ObjAttr) : Bool := flag o.a0 12
/-- `C8`. -/
def ObjAttr.c8 (o : ObjAttr) : Bool := flag o.a0 13
/-- `SHAPE`. -/
def ObjAttr.shape (o : ObjAttr) : Nat := field o.a0 14 2
/-- `sext_9(X)`. -/
def ObjAttr.x (o : ObjAttr) : Int := (o.a1.extractLsb' 0 9).toInt
/-- `GRP`. -/
def ObjAttr.grp (o : ObjAttr) : Nat := field o.a1 9 5
/-- `HF`. -/
def ObjAttr.hf (o : ObjAttr) : Bool := flag o.a1 12
/-- `VF`. -/
def ObjAttr.vf (o : ObjAttr) : Bool := flag o.a1 13
/-- `SIZE`. -/
def ObjAttr.size (o : ObjAttr) : Nat := field o.a1 14 2
/-- `TILE`. -/
def ObjAttr.tile (o : ObjAttr) : Nat := field o.a2 0 10
/-- `OPRIO`. -/
def ObjAttr.prio (o : ObjAttr) : Nat := field o.a2 10 2
/-- `OPAL`. -/
def ObjAttr.pal (o : ObjAttr) : Nat := field o.a2 12 4

/-- The size table `(w, h)` (R353); `SHAPE = 3` names no size and never reaches it (R363). -/
def objSize (shape size : Nat) : Nat × Nat :=
  match shape, size with
  | 0, 0 => (8, 8)
  | 0, 1 => (16, 16)
  | 0, 2 => (32, 32)
  | 0, _ => (64, 64)
  | 1, 0 => (16, 8)
  | 1, 1 => (32, 8)
  | 1, 2 => (32, 16)
  | 1, _ => (64, 32)
  | _, 0 => (8, 16)
  | _, 1 => (8, 32)
  | _, 2 => (16, 32)
  | _, _ => (32, 64)

/-- The bounding box is doubled: an affine object with `DBL = 1` (R353). -/
def ObjAttr.doubled (o : ObjAttr) : Bool := o.aff && o.dbl

/-- The bounding box `(bw, bh)` of an object of size `(w, h)` (R353). -/
def ObjAttr.box (o : ObjAttr) : Nat × Nat :=
  let wh := objSize o.shape o.size
  if o.doubled then (2 * wh.1, 2 * wh.2) else wh

/-- The attributes of OAM entry `i` (R350), `attr0` read first (assumption 18). -/
def State.objAttr (s : State) (i : Nat) : Fetch ObjAttr := do
  let a0 ← s.fetch16 .oam (8 * i)
  let a1 ← s.fetch16 .oam (8 * i + 2)
  let a2 ← s.fetch16 .oam (8 * i + 4)
  pure ⟨i, a0, a1, a2⟩

/-! ## Texels -/

/-- The number of the first 32-byte unit of the tile of texel `(tx, ty)` (R354). -/
def State.objTileUnit (s : State) (o : ObjAttr) (tx ty : Nat) : Nat :=
  let w := (objSize o.shape o.size).1
  let oneD := dispObj1d s.display.dispcnt
  if o.c8 then
    let step := if oneD then 2 * (w / 8) else 32
    let t0 := if oneD then o.tile else o.tile - o.tile % 2
    t0 + ty / 8 * step + 2 * (tx / 8)
  else
    let step := if oneD then w / 8 else 32
    o.tile + ty / 8 * step + tx / 8

/-- The offset of texel `(tx, ty)` in object memory, wrapped inside its 32 KiB (R354). -/
def State.objTexelOffset (s : State) (o : ObjAttr) (tx ty : Nat) : Nat :=
  let t := s.objTileUnit o tx ty
  if o.c8 then (t * 32 + ty % 8 * 8 + tx % 8) % 0x8000
  else (t * 32 + ty % 8 * 4 + tx % 8 / 2) % 0x8000

/-- The mode is a bitmap mode, 3..5. -/
def bitmapMode (mode : Nat) : Bool := decide (mode = 3 ∨ mode = 4 ∨ mode = 5)

/-- `obj_texel(i, tx, ty)` (R354). -/
def State.objTexel (s : State) (o : ObjAttr) (tx ty : Nat) : Fetch (Option Colour) :=
  if bitmapMode (dispMode s.display.dispcnt) ∧ s.objTileUnit o tx ty * 32 % 0x8000 < 0x4000 then .ok none
  else do
    let b ← s.fetch8 .vram (0x10000 + s.objTexelOffset o tx ty)
    let i := if o.c8 then b.toNat else nibble b tx
    if i = 0 then pure none
    else do
      let c ← s.paletteColour (if o.c8 then 0x200 + 2 * i else 0x200 + 2 * (16 * o.pal + i))
      pure (some c)

/-! ## Placing -/

/-- `place(i, sx, c)` at one column (R357, R358). -/
def ObjAttr.placeCol (o : ObjAttr) (c : Colour) (col : ObjCol) : ObjCol :=
  if o.mode = 2 then { col with win := true }
  else
    let px : Px := ⟨c, o.prio, .obj, decide (o.mode = 1)⟩
    match col.px with
    | none => { col with px := some px }
    | some old => if o.prio < old.prio then { col with px := some px } else col

/-- The box coordinates an object with mosaic samples (R355, R356, R360). -/
def State.objSample (s : State) (o : ObjAttr) (ix iy : Nat) : Nat × Nat :=
  if o.mos then
    (ix - ix % (mosObjH s.fx.mosaic + 1), iy - iy % (mosObjV s.fx.mosaic + 1))
  else (ix, iy)

/-- The texel of a non-affine object at box position `(ix, iy)` (R355). -/
def State.flatTexel (s : State) (o : ObjAttr) (ix iy : Nat) : Nat × Nat :=
  let wh := objSize o.shape o.size
  let m := s.objSample o ix iy
  (if o.hf then wh.1 - 1 - m.1 else m.1, if o.vf then wh.2 - 1 - m.2 else m.2)

/-- The four parameters of an affine group (R356). -/
structure ObjMatrix where
  pa : Int
  pb : Int
  pc : Int
  pd : Int
  deriving DecidableEq, Repr

/-- The parameter group `g` (R356). -/
def State.objMatrix (s : State) (g : Nat) : Fetch ObjMatrix := do
  let pa ← s.fetch16 .oam (32 * g + 6)
  let pb ← s.fetch16 .oam (32 * g + 14)
  let pc ← s.fetch16 .oam (32 * g + 22)
  let pd ← s.fetch16 .oam (32 * g + 30)
  pure ⟨pa.toInt, pb.toInt, pc.toInt, pd.toInt⟩

/-- The texel of an affine object at box position `(ix, iy)`, which may lie outside the texture (R356). -/
def State.affineObjTexel (s : State) (o : ObjAttr) (m : ObjMatrix) (ix iy : Nat) : Int × Int :=
  let wh := objSize o.shape o.size
  let b := o.box
  let p := s.objSample o ix iy
  let cx : Int := p.1 - (b.1 / 2 : Nat)
  let cy : Int := p.2 - (b.2 / 2 : Nat)
  ((m.pa * cx + m.pb * cy) / 256 + (wh.1 / 2 : Nat), (m.pc * cx + m.pd * cy) / 256 + (wh.2 / 2 : Nat))

/-- Place what `texel` gives at screen column `X + ix`, if that column is on the screen (R355, R356, R361). -/
def ObjAttr.drawCol (o : ObjAttr) (texel : Fetch (Option Colour)) (ix : Nat) (line : ObjLine) : Fetch ObjLine :=
  let sx := o.x + ix
  if sx < 0 ∨ sx > 239 then .ok line
  else do
    match ← texel with
    | none => pure line
    | some c => pure (line.modify sx.toNat (o.placeCol c))

/-- A non-affine object on box row `iy` (R355). -/
def State.drawFlat (s : State) (o : ObjAttr) (iy : Nat) (line : ObjLine) : Fetch ObjLine :=
  (List.range (objSize o.shape o.size).1).foldlM (fun line ix =>
    let t := s.flatTexel o ix iy
    o.drawCol (s.objTexel o t.1 t.2) ix line) line

/-- An affine object on box row `iy` (R356). -/
def State.drawAffine (s : State) (o : ObjAttr) (iy : Nat) (line : ObjLine) : Fetch ObjLine := do
  let m ← s.objMatrix o.grp
  let wh := objSize o.shape o.size
  (List.range o.box.1).foldlM (fun line ix =>
    let t := s.affineObjTexel o m ix iy
    o.drawCol
      (if inside t.1 wh.1 && inside t.2 wh.2 then s.objTexel o t.1.toNat t.2.toNat else .ok none)
      ix line) line

/-- The object scan of scanline `y` at an entry that is not disabled (R352). -/
def State.scanEnabled (s : State) (y : Nat) (line : ObjLine) (o : ObjAttr) : Fetch ObjLine :=
  let iy := (y + 256 - o.y) % 256
  if o.shape = 3 then .error (.prohibitedObject o.index o.a0)
  else if o.box.2 ≤ iy then .ok line
  else if o.mode = 3 then .error (.prohibitedObject o.index o.a0)
  else if o.aff then s.drawAffine o iy line
  else s.drawFlat o iy line

/-- The entry with this `attr0` is disabled (R352): it never faults (R363). -/
def objDisabled (a0 : Half) : Bool := !flag a0 8 && flag a0 9

/-- One entry of the object scan of scanline `y` (R352). A disabled entry is decoded no further than its
`attr0`, so unknown contents of its `attr1` and `attr2` raise nothing (R363); R352's pseudocode reads all
three first, and following R363 here is the model's choice (assumption 29). -/
def State.scanObject (s : State) (y : Nat) (line : ObjLine) (i : Nat) : Fetch ObjLine := do
  let a0 ← s.fetch16 .oam (8 * i)
  if objDisabled a0 then pure line
  else
    let o ← s.objAttr i
    s.scanEnabled y line o

/-- An empty object line buffer. -/
def emptyObjLine : ObjLine := List.replicate screenW ⟨none, false⟩

/-- `object_line(y)` (R352). -/
def State.objectLine (s : State) (y : Nat) : Fetch ObjLine :=
  if dispObjEn s.display.dispcnt then (List.range numObj).foldlM (s.scanObject y) emptyObjLine
  else .ok emptyObjLine

end Sys2Proof.Machine
end

