-- ==== Sys2Proof/Machine/RenderCompose.lean ====
section
/-! DEFINITION. Windows, the layer stack, colour effects and palette conversion (R390 to R422). -/

namespace Sys2Proof.Machine

open Sys2Proof.Config

/-! ## Windows -/

/-- The wrapped range comparison of R391: `((v - lo) mod 256) < ((hi - lo) mod 256)`. -/
def inRange (v lo hi : Nat) : Bool :=
  decide ((v + 256 - lo) % 256 < (hi + 256 - lo) % 256)

/-- `in_window(n, x, y)` (R391). -/
def State.inWindow (s : State) (n : WindowId) (x y : Nat) : Bool :=
  inRange x (field (s.win.h n) 8 8) (field (s.win.h n) 0 8) &&
    inRange y (field (s.win.v n) 8 8) (field (s.win.v n) 0 8)

/-- `window_mask(x, y)` (R390), for a column whose object-window mark is `objwin`. -/
def State.windowMask (s : State) (x y : Nat) (objwin : Bool) : BitVec 6 :=
  let d := s.display.dispcnt
  if !dispWinEn d .win0 && !dispWinEn d .win1 && !dispObjwinEn d then 0b111111
  else if dispWinEn d .win0 && s.inWindow .win0 x y then s.win.winin.extractLsb' 0 6
  else if dispWinEn d .win1 && s.inWindow .win1 x y then s.win.winin.extractLsb' 8 6
  else if dispObjwinEn d && objwin then s.win.winout.extractLsb' 8 6
  else s.win.winout.extractLsb' 0 6

/-! ## The stack of a column -/

/-- A column of the line being composed: its window mask, its object pixel, and the two frontmost
pixels (R395). -/
structure Col where
  mask : BitVec 6
  obj : Option Px
  high : Px
  low : Px
  deriving DecidableEq, Repr

/-- The backdrop pixel (R395). -/
def backdropPx (c : Colour) : Px := ⟨c, 4, .bd, false⟩

/-- The empty pixel below the backdrop (R395). -/
def nonePx : Px := ⟨0, 5, .empty, false⟩

/-- `stack_init` (R395). -/
def Col.init (mask : BitVec 6) (obj : Option Px) (backdrop : Colour) : Col :=
  ⟨mask, obj, backdropPx backdrop, nonePx⟩

/-- `push(x, p)` for a pixel of layer `n` that passes the column's window bit (R300, R395). -/
def Col.push (n : Fin 4) (c : Col) (p : Option Px) : Col :=
  match p with
  | none => c
  | some p => if flag c.mask n.val then { c with high := p, low := c.high } else c

/-- `merge_object` (R396). -/
def Col.mergeObject (c : Col) : Col :=
  match c.obj with
  | none => c
  | some o =>
    if flag c.mask 4 then
      if o.prio ≤ c.high.prio then { c with high := o, low := c.high }
      else if o.prio ≤ c.low.prio then { c with low := o }
      else c
    else c

/-! ## Colour effects -/

/-- `bit(src)` (R401). -/
def Src.bit : Src → Option Nat
  | .bg n => some n.val
  | .obj => some 4
  | .bd => some 5
  | .empty => none

/-- The source is in target set 1 (R401). -/
def Src.inT1 (src : Src) (bldcnt : Half) : Bool :=
  match src.bit with
  | some b => bldT1 bldcnt b
  | none => false

/-- The source is in target set 2 (R401). -/
def Src.inT2 (src : Src) (bldcnt : Half) : Bool :=
  match src.bit with
  | some b => bldT2 bldcnt b
  | none => false

/-- The red channel (R12). -/
def red (c : Colour) : Nat := field c 0 5
/-- The green channel (R12). -/
def green (c : Colour) : Nat := field c 5 5
/-- The blue channel (R12). -/
def blue (c : Colour) : Nat := field c 10 5

/-- The colour of three 5-bit channels (R12). -/
def colourOf (r g b : Nat) : Colour := BitVec.ofNat 5 b ++ BitVec.ofNat 5 g ++ BitVec.ofNat 5 r

/-- One channel of `blend` (R403). -/
def blendChannel (eva evb top bot : Nat) : Nat := min 31 ((top * eva + bot * evb) / 16)

/-- `blend(top, bot)` (R403). -/
def blend (alpha : Half) (top bot : Colour) : Colour :=
  let f := blendChannel (bldEva alpha) (bldEvb alpha)
  colourOf (f (red top) (red bot)) (f (green top) (green bot)) (f (blue top) (blue bot))

/-- One channel of `lighten` (R404). -/
def lightenChannel (evy c : Nat) : Nat := c + (31 - c) * evy / 16

/-- `lighten(top)` (R404). -/
def lighten (bldy : Half) (c : Colour) : Colour :=
  let f := lightenChannel (bldEvy bldy)
  colourOf (f (red c)) (f (green c)) (f (blue c))

/-- One channel of `darken` (R405). -/
def darkenChannel (evy c : Nat) : Nat := c - c * evy / 16

/-- `darken(top)` (R405). -/
def darken (bldy : Half) (c : Colour) : Colour :=
  let f := darkenChannel (bldEvy bldy)
  colourOf (f (red c)) (f (green c)) (f (blue c))

/-- `colour_effect(x)` (R400). -/
def State.colourEffect (s : State) (c : Col) : Colour :=
  let top := c.high
  let bot := c.low
  let fx := flag c.mask 5
  let cnt := s.fx.bldcnt
  if fx && decide (top.src = .obj) && top.semi && bot.src.inT2 cnt then
    blend s.fx.bldalpha top.colour bot.colour
  else if fx && top.src.inT1 cnt then
    match bldEffect cnt with
    | 0 => top.colour
    | 1 => if bot.src.inT2 cnt then blend s.fx.bldalpha top.colour bot.colour else top.colour
    | 2 => lighten s.fx.bldy top.colour
    | _ => darken s.fx.bldy top.colour
  else top.colour

/-! ## Output -/

/-- The linear conversion of one channel (R420): `floor(c * 255 / 31)`. -/
def linear (c : Nat) : Byte := BitVec.ofNat 8 (c * 255 / 31)

/-- `to_rgba(c)` (R420). -/
def State.toRgba (s : State) (c : Colour) : Pixel :=
  if s.output.colorCorrection then
    let rgb := gammaCurve (c.extractLsb' 0 5) (c.extractLsb' 5 5) (c.extractLsb' 10 5)
    ⟨rgb.1, rgb.2.1, rgb.2.2, 255⟩
  else ⟨linear (red c), linear (green c), linear (blue c), 255⟩

/-- The pixel of forced blank (R410). -/
def whitePixel : Pixel := ⟨255, 255, 255, 255⟩

end Sys2Proof.Machine
end

