-- ==== Sys2Proof/Machine/RenderLine.lean ====
section
/-! DEFINITION. The scanline pipeline and what it updates (R300, R303, R341). -/

namespace Sys2Proof.Machine

open Sys2Proof.Config

/-- The columns of scanline `y` before any layer is pushed (R300, R390, R395). -/
def State.initCols (s : State) (y : Nat) (objs : ObjLine) (backdrop : Colour) : List Col :=
  List.zipWith (fun x o => Col.init (s.windowMask x y o.win) o.px backdrop) columns objs

/-- One background pushed over every column (R300). -/
def State.pushLayer (s : State) (y : Nat) (cols : List Col) (n : Fin 4) : Fetch (List Col) := do
  let row ← s.bgRow n y
  pure (List.zipWith (Col.push n) cols row)

/-- The colours of scanline `y` after effects (R300), with the faults of R301, R363 and R472. -/
def State.lineColours (s : State) (y : Nat) : Fetch (List Colour) := do
  if 6 ≤ dispMode s.display.dispcnt then throw (.unimplementedPath s.display.dispcnt)
  else
    let objs ← s.objectLine y
    let backdrop ← s.paletteColour 0
    let cols ← s.layerOrder.foldlM (s.pushLayer y) (s.initCols y objs backdrop)
    pure (cols.map fun c => s.colourEffect c.mergeObject)

/-- The 240 output pixels of scanline `y` (R300, R410, R420). -/
def State.lineRow (s : State) (y : Nat) : Fetch Row :=
  if dispForcedBlank s.display.dispcnt then .ok (List.replicate screenW whitePixel)
  else do
    let cs ← s.lineColours y
    pure (cs.map s.toRgba)

/-- `mosaic_line_start(y)` (R341). -/
def State.mosaicLineStart (s : State) (y : Nat) : State :=
  if s.mos.v = 0 then
    { s with
      mos := { s.mos with line := BitVec.ofNat 8 y }
      bgs := s.bgs.mapAff fun a => { a with mosRefX := a.refX, mosRefY := a.refY } }
  else s

/-- `mosV` after a line (R341): `mosV + 1`, or 0 above `BG_V`. -/
def nextMosV (v : Fin 17) (bgV : Nat) : Fin 17 :=
  if v.val + 1 > bgV then 0 else Fin.ofNat 17 (v.val + 1)

/-- `mosaic_line_end()` (R341). -/
def State.mosaicLineEnd (s : State) : State :=
  { s with mos := { s.mos with v := nextMosV s.mos.v (mosBgV s.fx.mosaic) } }

/-- `mosaic_frame_start()` (R341). -/
def State.mosaicFrameStart (s : State) : State :=
  { s with mos := { s.mos with v := 0 } }

/-- One affine unit after `affine_accumulate` (R303), modulo 2^28. -/
def Affine.accumulate (a : Affine) : Affine :=
  { a with refX := a.refX + a.pb.signExtend 28, refY := a.refY + a.pd.signExtend 28 }

/-- `affine_accumulate()` (R303). -/
def State.affineAccumulate (s : State) : State :=
  { s with bgs := s.bgs.mapAff Affine.accumulate }

/-- Row `y` of `back` replaced (R421). -/
def State.setBackRow (s : State) (y : Nat) (row : Row) : State :=
  { s with output := { s.output with back := s.output.back.set y row } }

/-- `RENDER.LINE(y)` as the block issues it (R300). A fault ends it before any column is written (R440). -/
def State.renderLine (s : State) (y : Nat) : State :=
  let s := s.mosaicLineStart y
  match s.lineRow y with
  | .error kind => s.raise kind (.renderLine y)
  | .ok row => (s.setBackRow y row).affineAccumulate.mosaicLineEnd

/-- `RENDER.LINE` (R300): internal; offered by the environment it raises `InternalOnly`. -/
def execRenderLine (y : Byte) (s : State) : Step :=
  s.act fun s =>
    match s.ports.issuer with
    | .environment => s.raiseInternalOnly (.renderLine y)
    | .internal => s.renderLine y.toNat

end Sys2Proof.Machine
end

