-- ==== Sys2Proof/Machine/Lcd.lean ====
section
/-! DEFINITION. The LCD timing controller's two events (R230 to R250). -/

namespace Sys2Proof.Machine

open Sys2Proof.Config

/-- The scanline is visible (R230). -/
def visible (y : Byte) : Bool := decide (y.toNat < screenH)

/-- `RENDER.LINE(y)` on a visible scanline, and nothing on a vblank scanline (R232, R233). -/
def State.renderIfVisible (s : State) (y : Byte) : State :=
  if visible y then s.renderLine y.toNat else s

/-- `emit DMA_HBLANK()` on a visible scanline (R232, R233). -/
def State.dmaHblankIfVisible (s : State) (y : Byte) : State :=
  if visible y then s.emit .dmaHblank else s

/-- `EVENT.HBLANK_START` with lateness `L` (R232, R233), as the block issues it. -/
def State.hblankStart (s : State) (lateness : Int) : State :=
  let y := s.display.vcount
  (s.renderIfVisible y).proceed fun s =>
    let s := s.setHblank true
    let s := s.flagInterruptIf (statHblankIrqEn s.display.dispstat) 1
    (s.dmaHblankIfVisible y).proceed fun s =>
      s.schedule tagHblankEnd (hblankCycles - lateness) (.hblankStart lateness)

/-- The next scanline (R234): `(VCOUNT + 1) mod 228`. -/
def nextLine (y : Byte) : Byte := BitVec.ofNat 8 ((y.toNat + 1) % totalLines)

/-- `VCOUNT[7:0] <- y`. -/
def State.setVcount (s : State) (y : Byte) : State :=
  { s with display := { s.display with vcount := y } }

/-- `vcount_compare()` (R235). -/
def State.vcountCompare (s : State) : State :=
  let hit := decide (s.display.vcount = statLyc s.display.dispstat)
  let s := s.setMatch hit
  s.flagInterruptIf (hit && statVcountIrqEn s.display.dispstat) 2

/-- The end of `vblank_entry` (R237): the frame counter, the swap and the frame-ready flag. -/
def Output.completeFrame (o : Output) : Output :=
  { o with frameCounter := o.frameCounter + 1, front := o.back, back := o.front, frameReady := true }

/-- `vblank_entry()` (R237). -/
def State.vblankEntry (s : State) : State :=
  let s := s.setVblank true
  let s := { s with bgs := s.bgs.mapAff Affine.reload }
  (s.emit .dmaVblank).proceed fun s =>
    let s := s.flagInterruptIf (statVblankIrqEn s.display.dispstat) 0
    { s with output := s.output.completeFrame }

/-- `EVENT.HBLANK_END` with lateness `L` (R234), as the block issues it. -/
def State.hblankEnd (s : State) (lateness : Int) : State :=
  let s := s.setHblank false
  let s := s.setVcount (nextLine s.display.vcount)
  let s := s.vcountCompare
  let s := if s.display.vcount = 160 then s.vblankEntry else s
  s.proceed fun s =>
    let s := if s.display.vcount = 227 then s.setVblank false else s
    let s := if s.display.vcount = 0 then s.mosaicFrameStart else s
    s.schedule tagHblankStart (drawCycles - lateness) (.hblankEnd lateness)

/-- `EVENT.HBLANK_START` (R232): internal; offered by the environment it raises `InternalOnly` (R238). -/
def execEventHblankStart (lateness : BitVec 48) (s : State) : Step :=
  s.act fun s =>
    match s.ports.issuer with
    | .environment => s.raiseInternalOnly (.eventHblankStart lateness)
    | .internal => s.hblankStart (argInt lateness)

/-- `EVENT.HBLANK_END` (R234): internal; offered by the environment it raises `InternalOnly` (R238). -/
def execEventHblankEnd (lateness : BitVec 48) (s : State) : Step :=
  s.act fun s =>
    match s.ports.issuer with
    | .environment => s.raiseInternalOnly (.eventHblankEnd lateness)
    | .internal => s.hblankEnd (argInt lateness)

end Sys2Proof.Machine
end

