-- ==== Sys2Proof/Machine/Drain.lean ====
section
/-! DEFINITION. Firing events: the drain and the halt skip (R206 to R211). -/

namespace Sys2Proof.Machine

/-- `dispatch(tag, L)` (R206). -/
def State.dispatch (s : State) (tag : Byte) (lateness : Int) : State :=
  if tag = tagHblankStart then s.hblankStart lateness
  else if tag = tagHblankEnd then s.hblankEnd lateness
  else s.emit (.fire tag lateness)

/-- `draining <- b` (R206). -/
def State.setDraining (s : State) (b : Bool) : State :=
  { s with sched := { s.sched with draining := b } }

/-- `current_ticks <- t` (R210). -/
def State.setTicks (s : State) (t : Int) : State :=
  { s with sched := { s.sched with ticks := t } }

/-- `queue <- q`. -/
def State.setQueue (s : State) (q : List Event) : State :=
  { s with sched := { s.sched with queue := q } }

/-- The loop of R206, on `fuel` events at most: while an event is due, the first one leaves the queue and
fires. A fault ends it (R440). -/
def drainLoop : Nat → State → State
  | 0, s => s
  | fuel + 1, s =>
    if s.stopped then s
    else
      match s.sched.queue with
      | [] => s
      | e :: rest =>
        if e.due ≤ s.sched.ticks then
          drainLoop fuel ((s.setQueue rest).dispatch e.tag (s.sched.ticks - e.due))
        else s

/-- Enough fuel for every event a drain can fire: an LCD event fires at most one LCD event more in the same
drain, and each word of a response adds at most one event. -/
def State.drainFuel (s : State) : Nat :=
  2 * s.sched.queue.length + (s.ports.responses.map List.length).sum

/-- The drain of R206, from a block that is not draining. -/
def State.drain (s : State) : State :=
  (drainLoop s.drainFuel (s.setDraining true)).proceed fun s => s.setDraining false

/-- `SCHED.DRAIN` (R206, R207). -/
def execSchedDrain (s : State) : Step :=
  s.act fun s =>
    if s.sched.draining then s.raise .drainReentry (.word (encode .schedDrain))
    else s.drain

/-- `RVAL <- 1` at the end of a halt skip that met no fault (R210, assumption 13). -/
def State.haltskipDone (s : State) : State :=
  s.proceed fun s => s.put (.rbit true)

/-- The first event, `e`, leaves the queue and fires with lateness `lateness`, and no other event does (R210). -/
def State.fireOne (s : State) (e : Event) (rest : List Event) (lateness : Int) : State :=
  (((s.setDraining true).setQueue rest).dispatch e.tag lateness).proceed fun s => s.setDraining false

/-- `SCHED.HALTSKIP` (R210): one iteration of the halt loop, which fires one event: an event that is due fires
where the clock stands, and to one that is not due the clock jumps. That one call fires one event also with
several due is D19's ruling and R210's prose, where R210's pseudocode names a drain (assumption 27). With no event
pending the machine is stuck (assumption 20). -/
def execSchedHaltskip (s : State) : Step :=
  s.actReturning (.rbit false) fun s =>
    if s.sched.draining then .next (s.raise .drainReentry (.word (encode .schedHaltskip)))
    else if s.irq.haltExit then .next (s.put (.rbit false))
    else
      match s.sched.queue with
      | [] => .fault .haltStuck
      | e :: rest =>
        if e.due ≤ s.sched.ticks then .next (s.fireOne e rest (s.sched.ticks - e.due)).haltskipDone
        else .next ((s.setTicks e.due).fireOne e rest 0).haltskipDone

end Sys2Proof.Machine
end

