-- ==== Sys2Proof/Machine/Dispatch.lean ====
section
/-! DEFINITION. One arm for each operation of the opcode table. -/

namespace Sys2Proof.Machine

/-- What the block does with one operation. -/
def exec (i : Instr) (s : State) : Host.Outcome State Fault Refusal :=
  match i with
  | .wDispcnt lane data => Sys2Proof.Machine.execWDispcnt lane data s
  | .rDispcnt lane => Sys2Proof.Machine.execRDispcnt lane s
  | .wNoreg002 lane data => Sys2Proof.Machine.execWNoreg002 lane data s
  | .rNoreg002 lane => Sys2Proof.Machine.execRNoreg002 lane s
  | .wDispstat lane data => Sys2Proof.Machine.execWDispstat lane data s
  | .rDispstat lane => Sys2Proof.Machine.execRDispstat lane s
  | .wVcount lane data => Sys2Proof.Machine.execWVcount lane data s
  | .rVcount lane => Sys2Proof.Machine.execRVcount lane s
  | .wBgcnt n lane data => Sys2Proof.Machine.execWBgcnt n lane data s
  | .rBgcnt n lane => Sys2Proof.Machine.execRBgcnt n lane s
  | .wBgofs n axis lane data => Sys2Proof.Machine.execWBgofs n axis lane data s
  | .rBgofs n axis lane => Sys2Proof.Machine.execRBgofs n axis lane s
  | .wBgp n param lane data => Sys2Proof.Machine.execWBgp n param lane data s
  | .rBgp n param lane => Sys2Proof.Machine.execRBgp n param lane s
  | .wBgref n axis lane data => Sys2Proof.Machine.execWBgref n axis lane data s
  | .rBgref n axis lane => Sys2Proof.Machine.execRBgref n axis lane s
  | .wWinh n lane data => Sys2Proof.Machine.execWWinh n lane data s
  | .rWinh n lane => Sys2Proof.Machine.execRWinh n lane s
  | .wWinv n lane data => Sys2Proof.Machine.execWWinv n lane data s
  | .rWinv n lane => Sys2Proof.Machine.execRWinv n lane s
  | .wWinin lane data => Sys2Proof.Machine.execWWinin lane data s
  | .rWinin lane => Sys2Proof.Machine.execRWinin lane s
  | .wWinout lane data => Sys2Proof.Machine.execWWinout lane data s
  | .rWinout lane => Sys2Proof.Machine.execRWinout lane s
  | .wMosaic lane data => Sys2Proof.Machine.execWMosaic lane data s
  | .rMosaic lane => Sys2Proof.Machine.execRMosaic lane s
  | .wNoreg04e lane data => Sys2Proof.Machine.execWNoreg04e lane data s
  | .rNoreg04e lane => Sys2Proof.Machine.execRNoreg04e lane s
  | .wBldcnt lane data => Sys2Proof.Machine.execWBldcnt lane data s
  | .rBldcnt lane => Sys2Proof.Machine.execRBldcnt lane s
  | .wBldalpha lane data => Sys2Proof.Machine.execWBldalpha lane data s
  | .rBldalpha lane => Sys2Proof.Machine.execRBldalpha lane s
  | .wBldy lane data => Sys2Proof.Machine.execWBldy lane data s
  | .rBldy lane => Sys2Proof.Machine.execRBldy lane s
  | .wNoreg056 lane data => Sys2Proof.Machine.execWNoreg056 lane data s
  | .rNoreg056 lane => Sys2Proof.Machine.execRNoreg056 lane s
  | .wNoreg058 offset data => Sys2Proof.Machine.execWNoreg058 offset data s
  | .rNoreg058 offset => Sys2Proof.Machine.execRNoreg058 offset s
  | .wIe lane data => Sys2Proof.Machine.execWIe lane data s
  | .rIe lane => Sys2Proof.Machine.execRIe lane s
  | .wIf lane data => Sys2Proof.Machine.execWIf lane data s
  | .rIf lane => Sys2Proof.Machine.execRIf lane s
  | .wIme lane data => Sys2Proof.Machine.execWIme lane data s
  | .rIme lane => Sys2Proof.Machine.execRIme lane s
  | .wNoreg20a lane data => Sys2Proof.Machine.execWNoreg20a lane data s
  | .rNoreg20a lane => Sys2Proof.Machine.execRNoreg20a lane s
  | .wPram o data => Sys2Proof.Machine.execWPram o data s
  | .rPram o => Sys2Proof.Machine.execRPram o s
  | .wVramLo o data => Sys2Proof.Machine.execWVramLo o data s
  | .rVramLo o => Sys2Proof.Machine.execRVramLo o s
  | .wVramHi o data => Sys2Proof.Machine.execWVramHi o data s
  | .rVramHi o => Sys2Proof.Machine.execRVramHi o s
  | .wOam o data => Sys2Proof.Machine.execWOam o data s
  | .rOam o => Sys2Proof.Machine.execROam o s
  | .schedAdd tag delay => Sys2Proof.Machine.execSchedAdd tag delay s
  | .schedPop => Sys2Proof.Machine.execSchedPop s
  | .schedCancel tag => Sys2Proof.Machine.execSchedCancel tag s
  | .schedAdvance n => Sys2Proof.Machine.execSchedAdvance n s
  | .schedDrain => Sys2Proof.Machine.execSchedDrain s
  | .schedHaltskip => Sys2Proof.Machine.execSchedHaltskip s
  | .schedNext => Sys2Proof.Machine.execSchedNext s
  | .schedNow => Sys2Proof.Machine.execSchedNow s
  | .eventHblankStart lateness => Sys2Proof.Machine.execEventHblankStart lateness s
  | .eventHblankEnd lateness => Sys2Proof.Machine.execEventHblankEnd lateness s
  | .irqFlag kind => Sys2Proof.Machine.execIrqFlag kind s
  | .irqLine => Sys2Proof.Machine.execIrqLine s
  | .irqHaltexit => Sys2Proof.Machine.execIrqHaltexit s
  | .hostReadframe => Sys2Proof.Machine.execHostReadframe s
  | .hostClearready => Sys2Proof.Machine.execHostClearready s
  | .hostSetcc enable => Sys2Proof.Machine.execHostSetcc enable s
  | .hostReady => Sys2Proof.Machine.execHostReady s
  | .hostFrames => Sys2Proof.Machine.execHostFrames s
  | .renderLine y => Sys2Proof.Machine.execRenderLine y s

end Sys2Proof.Machine
end

