-- ==== Sys2Proof/Machine/Step.lean ====
section
/-! DEFINITION. One step: the environment offers one operation word, and the block carries it out. -/

namespace Sys2Proof.Machine

/-- The state in which an operation begins: the word has left the environment's input and nothing is on
the output ports. -/
def State.begin (s : State) (rest : List OpWord) : State :=
  { s with ports := { s.ports with input := rest, out := [] } }

/-- One step. The next offered word is decoded and carried out; a word that spells no operation is refused
with its reason (R118, R443). With no word offered the block waits and nothing happens (R490,
assumption 7). -/
def step (s : State) : Host.Outcome State Fault Refusal :=
  match s.ports.input with
  | [] => .next (s.begin [])
  | w :: rest =>
    match decode w with
    | .ok i => exec i (s.begin rest)
    | .error r => .refused (.refusedWord r)

/-- The environment offers a word next (assumption 7). -/
def State.withFetchWord (s : State) (nbits w : Nat) : State :=
  { s with ports := { s.ports with input := wordOf nbits w :: s.ports.input } }

end Sys2Proof.Machine
end

