-- ==== Sys2Proof/Safety.lean ====
section
/-! DEFINITION. What counts as a safe run, what every step keeps, and the words in which the claims about
the machine are stated. -/

namespace Sys2Proof.Machine

open Sys2Proof.Config

/-! ## A safe run -/

/-- No fault was raised and no refused word passed (R441, R443): a run is safe while this holds. -/
abbrev State.Clean (s : State) : Prop := s.faults = [] ∧ s.ports.refusals = []

/-- The block is running, not stopped (R441). -/
abbrev State.Running (s : State) : Prop := s.faults = []

/-! ## Register bytes -/

/-- R140 in its own words: the bits of lane `lane` that are in `mask` take the bits of `d`, and every other
bit of the register keeps its value. -/
def LaneWritten {w : Nat} (old new mask : BitVec w) (lane : Nat) (d : Byte) : Prop :=
  ∀ i, i < w → new.getLsbD i =
    if 8 * lane ≤ i ∧ i < 8 * lane + 8 ∧ mask.getLsbD i = true then d.getLsbD (i - 8 * lane)
    else old.getLsbD i

/-- Bits `8*lane+7 : 8*lane` of a register's read value (R141). -/
def laneByte (value lane : Nat) : Byte := BitVec.ofNat 8 (value / 2 ^ (8 * lane))

/-! ## The state's invariants -/

/-- `a` may stand before `b` in the order of R200. -/
abbrev Event.NotAfter (a b : Event) : Prop :=
  a.due < b.due ∨ (a.due = b.due ∧ a.seq.toNat ≤ b.seq.toNat)

/-- The queue stands in the order of R200. -/
abbrev Sched.Sorted (q : Sched) : Prop := q.queue.Pairwise Event.NotAfter

/-- The clock and every pending due time lie in the range of an s64 that R52, R201 and R205 admit. -/
abbrev Sched.InRange (q : Sched) : Prop :=
  (0 ≤ q.ticks ∧ q.ticks < tickLimit) ∧ ∀ e ∈ q.queue, 0 ≤ e.due ∧ e.due < tickLimit

/-- The LCD registers hold no bit that nothing stores, and `VCOUNT` is a scanline (R21 to R23). -/
abbrev Display.Legal (d : Display) : Prop :=
  d.dispcnt &&& 0x0008 = 0 ∧ d.dispstat &&& 0x00C0 = 0 ∧ d.vcount.toNat < totalLines

/-- Likewise for a background (R24, R25). -/
abbrev Bg.Legal (b : Bg) : Prop := b.cnt &&& 0x0030 = 0 ∧ b.hofs &&& 0xFE00 = 0 ∧ b.vofs &&& 0xFE00 = 0

/-- Likewise for an affine unit (R27). -/
abbrev Affine.Legal (a : Affine) : Prop := a.x &&& 0xF0000000 = 0 ∧ a.y &&& 0xF0000000 = 0

/-- Likewise for all backgrounds. -/
abbrev Backgrounds.Legal (b : Backgrounds) : Prop :=
  b.bg0.Legal ∧ b.bg1.Legal ∧ b.bg2.Legal ∧ b.bg3.Legal ∧ b.aff2.Legal ∧ b.aff3.Legal

/-- Likewise for the window masks (R30, R31). -/
abbrev Windows.Legal (w : Windows) : Prop := w.winin &&& 0xC0C0 = 0 ∧ w.winout &&& 0xC0C0 = 0

/-- Likewise for the colour-effect registers (R33 to R35). -/
abbrev Effects.Legal (e : Effects) : Prop :=
  e.bldcnt &&& 0xC000 = 0 ∧ e.bldalpha &&& 0xE0E0 = 0 ∧ e.bldy &&& 0xFFE0 = 0

/-- Likewise for the interrupt bank (R36 to R38). -/
abbrev IrqBank.Legal (b : IrqBank) : Prop :=
  b.ie &&& 0xC000 = 0 ∧ b.iflag &&& 0xC000 = 0 ∧ b.ime &&& 0xFFFE = 0

/-- Every register holds a value its layout allows, and the vertical mosaic counter is at most the
largest size, 15 (R41, R341). -/
abbrev State.RegsLegal (s : State) : Prop :=
  s.display.Legal ∧ s.bgs.Legal ∧ s.win.Legal ∧ s.fx.Legal ∧ s.irq.Legal ∧ s.mos.v.val ≤ 15

/-- A framebuffer of 160 rows of 240 pixels (R42). -/
abbrev Frame.Shaped (f : Frame) : Prop := f.length = screenH ∧ ∀ r ∈ f, r.length = screenW

/-- Both framebuffers have their shape (R42). -/
abbrev Output.Shaped (o : Output) : Prop := o.front.Shaped ∧ o.back.Shaped

/-! ## The LCD's place in time -/

/-- The due times and tags of the pending LCD events, in order. -/
def lcdEvents (q : List Event) : List (Int × Byte) :=
  (q.filter fun e => isLcdTag e.tag).map fun e => (e.due, e.tag)

/-- R215, R236, R240 and R241 for scanline `VCOUNT` of frame `f` (frames counted from 0 at reset): exactly
one LCD event is pending, due at the tick R215 names, the clock has reached the last one, and the flags
and the frame counter are those of the position. -/
def State.LcdAt (f : Nat) (s : State) : Prop :=
  let y := s.display.vcount.toNat
  let start : Int := lineCycles * (totalLines * f + y : Nat)
  y < totalLines ∧
    (if statHblank s.display.dispstat then
      lcdEvents s.sched.queue = [(start + lineCycles, tagHblankEnd)] ∧ start + drawCycles ≤ s.sched.ticks
    else lcdEvents s.sched.queue = [(start + drawCycles, tagHblankStart)] ∧ start ≤ s.sched.ticks) ∧
    statVblank s.display.dispstat = decide (screenH ≤ y ∧ y ≤ 226) ∧
    s.output.frameCounter = BitVec.ofNat 64 (f + if screenH ≤ y then 1 else 0)

/-- The LCD runs on time, unless a fault has stopped the block (R212, R215). -/
def State.LcdOnTime (s : State) : Prop := s.Running → ∃ f, s.LcdAt f

/-! ## Words that spell no operation -/

/-- A bus address lies in a range the block answers (R81). -/
def OwnedAddress (a : Nat) : Prop :=
  (0x04000000 ≤ a ∧ a ≤ 0x0400005F) ∨ (0x04000200 ≤ a ∧ a ≤ 0x04000203) ∨ (0x04000208 ≤ a ∧ a ≤ 0x0400020B) ∨
    (0x05000000 ≤ a ∧ a ≤ 0x050003FF) ∨ (0x06000000 ≤ a ∧ a ≤ 0x06017FFF) ∨ (0x07000000 ≤ a ∧ a ≤ 0x070003FF)

/-- How many `SUB` values a port names (R116); `BUS` has no `SUB` field. -/
def subCount (port : Nat) : Nat := [0, 8, 2, 3, 5, 1].getD port 0

/-- A must-be-0 field of a command word holds a nonzero bit (R112, R115): `TAG` outside `SCHED.ADD` and
`SCHED.CANCEL`, and the bits of `ARG` that the command gives no operand. -/
def CommandNonzero (port sub tag arg : Nat) : Prop :=
  (tag ≠ 0 ∧ ¬ (port = 1 ∧ (sub = 0 ∨ sub = 2))) ∨
    (if port = 1 ∧ (sub = 0 ∨ sub = 3) ∨ port = 2 then False
     else if port = 3 ∧ sub = 0 then 16 ≤ arg
     else if port = 4 ∧ sub = 2 then 2 ≤ arg
     else if port = 5 then 256 ≤ arg
     else arg ≠ 0)

/-- The rule of R118 that a refusal reason names holds of the word. -/
def RefusalHolds (w : OpWord) : DecodeRefusal → Prop :=
  let n := w.toNat
  let port := n / 2 ^ 60
  let sub := n / 2 ^ 56 % 16
  let tag := n / 2 ^ 48 % 256
  let arg := n % 2 ^ 48
  fun
  | .reservedPort => 6 ≤ port
  | .reservedSub => 1 ≤ port ∧ port ≤ 5 ∧ subCount port ≤ sub
  | .nonzeroReserved =>
    (port = 0 ∧ (n / 2 ^ 40 % 2 ^ 19 ≠ 0 ∨ n / 2 ^ 59 % 2 = 0 ∧ n % 256 ≠ 0)) ∨
      (1 ≤ port ∧ port ≤ 5 ∧ sub < subCount port ∧ CommandNonzero port sub tag arg)
  | .unownedAddress => port = 0 ∧ ¬ OwnedAddress (n / 2 ^ 8 % 2 ^ 32)
  | .badKind => port = 3 ∧ sub = 0 ∧ 14 ≤ n % 16
  | .badLine => port = 5 ∧ sub = 0 ∧ 160 ≤ n % 256

/-! ## What one operation changes -/

/-- Background `n`'s layer registers are `r`, and every other background register is as before. -/
def Backgrounds.OnlyBg (old new : Backgrounds) (n : Fin 4) (r : Bg) : Prop :=
  (∀ m, new.bg m = if m = n then r else old.bg m) ∧ ∀ m, new.aff m = old.aff m

/-- The affine unit of `n` is `a`, and every other background register is as before. -/
def Backgrounds.OnlyAff (old new : Backgrounds) (n : AffineBg) (a : Affine) : Prop :=
  (∀ m, new.aff m = if m = n then a else old.aff m) ∧ ∀ m, new.bg m = old.bg m

/-- The window registers are those given. -/
def Windows.Are (new : Windows) (h v : WindowId → Half) (winin winout : Half) : Prop :=
  (∀ n, new.h n = h n) ∧ (∀ n, new.v n = v n) ∧ new.winin = winin ∧ new.winout = winout

/-- The state with the fault `(kind, op)` recorded and nothing else changed (R440). -/
def State.faulted (s : State) (kind : FaultKind) (op : FaultOp) : State :=
  { s with faults := s.faults ++ [⟨kind, op⟩] }

/-- `t` is `s` with the event `(due, tag, nextSeq)` pending as well and the insertion counter moved on
(R201); a queue in the order of R200 stays in it. -/
def EventAdded (s t : State) (due : Int) (tag : Byte) : Prop :=
  t = { s with sched := { s.sched with queue := t.sched.queue, nextSeq := s.sched.nextSeq + 1 } } ∧
    t.sched.queue.Perm (⟨due, tag, s.sched.nextSeq⟩ :: s.sched.queue) ∧ (s.sched.Sorted → t.sched.Sorted)

/-- Some kind is enabled and pending, whatever `IME` holds (R265). -/
def IrqBank.Awake (b : IrqBank) : Prop := ∃ k, k < 14 ∧ b.ie.getLsbD k = true ∧ b.iflag.getLsbD k = true

/-- The loop of R206 from `s` ends in `t`: it ends at a fault, or when no event is due, and otherwise the
first pending event leaves the queue and is dispatched with its lateness. -/
inductive Drains : State → State → Prop where
  | stopped {s : State} : ¬ s.Running → Drains s s
  | quiet {s : State} : s.Running → (∀ e rest, s.sched.queue = e :: rest → s.sched.ticks < e.due) → Drains s s
  | fire {s t : State} {e : Event} {rest : List Event} : s.Running → s.sched.queue = e :: rest →
    e.due ≤ s.sched.ticks →
    Drains
      (let p := { s with sched := { s.sched with queue := rest } }
       let lateness := s.sched.ticks - e.due
       if e.tag = 0 then p.hblankStart lateness
       else if e.tag = 1 then p.hblankEnd lateness
       else p.emit (.fire e.tag lateness)) t →
    Drains s t

/-! ## Rendering -/

/-- The contents of every video memory byte are known (R472). -/
def State.VideoKnown (s : State) : Prop := ∀ m a, a < VMem.size m → s.byte? m a ≠ none

/-- The object is disabled (R352). -/
def ObjAttr.Disabled (o : ObjAttr) : Prop := o.aff = false ∧ o.dbl = true

/-- The object is of an encoding that R363 prohibits on scanline `y`. -/
def ObjAttr.Prohibited (o : ObjAttr) (y : Nat) : Prop :=
  ¬ o.Disabled ∧ (o.shape = 3 ∨ (((y : Int) - (o.y : Int)) % 256 < (o.box.2 : Int) ∧ o.mode = 3))

/-- What `RENDER.LINE(y)` leaves (R300, R303, R341, R421) when `row` is the scanline's row of pixels: row
`y` of `back`, the two accumulated affine references, the vertical mosaic state, and nothing else. -/
def LineRendered (s t : State) (y : Byte) (row : Row) : Prop :=
  t = { s with bgs := t.bgs, mos := t.mos, output := { s.output with back := s.output.back.set y.toNat row } } ∧
    (∀ n, t.bgs.bg n = s.bgs.bg n) ∧
    (∀ n, t.bgs.aff n = { s.bgs.aff n with
      refX := (s.bgs.aff n).refX + (s.bgs.aff n).pb.signExtend 28
      refY := (s.bgs.aff n).refY + (s.bgs.aff n).pd.signExtend 28
      mosRefX := if s.mos.v = 0 then (s.bgs.aff n).refX else (s.bgs.aff n).mosRefX
      mosRefY := if s.mos.v = 0 then (s.bgs.aff n).refY else (s.bgs.aff n).mosRefY }) ∧
    t.mos.line = (if s.mos.v = 0 then y else s.mos.line) ∧
    t.mos.v.val = if s.fx.mosaic.toNat / 16 % 16 < s.mos.v.val + 1 then 0 else s.mos.v.val + 1

/-- `p` is `s` after the start of scanline `y` (R341): the line and the affine references are latched when
`mosV = 0`, and nothing else changes. -/
def LineStarted (s p : State) (y : Byte) : Prop :=
  p = { s with bgs := p.bgs, mos := p.mos } ∧
    (∀ n, p.bgs.bg n = s.bgs.bg n) ∧
    (∀ n, p.bgs.aff n = { s.bgs.aff n with
      mosRefX := if s.mos.v = 0 then (s.bgs.aff n).refX else (s.bgs.aff n).mosRefX
      mosRefY := if s.mos.v = 0 then (s.bgs.aff n).refY else (s.bgs.aff n).mosRefY }) ∧
    p.mos.v = s.mos.v ∧ p.mos.line = if s.mos.v = 0 then y else s.mos.line

/-- The halfword at an offset of a video memory is `h`; its low byte lies at the offset (R11). -/
def State.HalfAt (s : State) (m : VMem) (a : Nat) (h : Half) : Prop :=
  ∃ lo hi, s.byte? m a = some lo ∧ s.byte? m (a + 1) = some hi ∧ h = hi ++ lo

/-- The pixel of background `n` that shows the colour in halfword `h` (R304): its bits 14 to 0, at the
layer's priority. -/
def State.layerPx (s : State) (n : Fin 4) (h : Half) : Px :=
  ⟨h.extractLsb' 0 15, (s.bgs.bg n).cnt.toNat % 4, .bg n, false⟩

/-- `r` is the pixel of background `n` for palette index `i`, whose colour lies at offset `a` of palette
memory; index 0 is transparent (R304). -/
def State.Indexed (s : State) (n : Fin 4) (i a : Nat) (r : Fetch (Option Px)) : Prop :=
  (i = 0 → r = .ok none) ∧ (i ≠ 0 → ∀ h, s.HalfAt .pram a h → r = .ok (some (s.layerPx n h)))

/-- `(fx, fy)` of column `x` of an affine or bitmap layer with control register `cnt` (R321): the reference
point, latched for a layer with mosaic, plus `x` steps. -/
def State.affinePoint (s : State) (n : AffineBg) (cnt : Half) (x : Nat) : Int × Int :=
  let a := s.bgs.aff n
  ((if cnt.getLsbD 6 then a.mosRefX else a.refX).toInt + a.pa.toInt * x,
    (if cnt.getLsbD 6 then a.mosRefY else a.refY).toInt + a.pc.toInt * x)

/-- The object shows the colour `c` at column `x` of scanline `y` (R352, R355, R356, R360, R361): box position
`(ix, iy)` lies there, and the texel it samples, quantised by the object mosaic, is opaque. -/
def State.Drawn (s : State) (o : ObjAttr) (y x : Nat) (c : Colour) : Prop :=
  let w := (objSize o.shape o.size).1
  let h := (objSize o.shape o.size).2
  ¬ o.Disabled ∧ ∃ ix iy : Nat, ix < o.box.1 ∧ iy < o.box.2 ∧ o.x + ix = x ∧ (iy : Int) = ((y : Int) - o.y) % 256 ∧
    let mx := if o.mos then ix - ix % (s.fx.mosaic.toNat / 256 % 16 + 1) else ix
    let my := if o.mos then iy - iy % (s.fx.mosaic.toNat / 4096 + 1) else iy
    if o.aff then
      let cx := (mx : Int) - (o.box.1 / 2 : Nat)
      let cy := (my : Int) - (o.box.2 / 2 : Nat)
      ∃ (pa pb pc pd : Half) (tx ty : Nat),
        s.HalfAt .oam (32 * o.grp + 6) pa ∧ s.HalfAt .oam (32 * o.grp + 14) pb ∧
        s.HalfAt .oam (32 * o.grp + 22) pc ∧ s.HalfAt .oam (32 * o.grp + 30) pd ∧ tx < w ∧ ty < h ∧
        (tx : Int) = (pa.toInt * cx + pb.toInt * cy) / 256 + (w / 2 : Nat) ∧
        (ty : Int) = (pc.toInt * cx + pd.toInt * cy) / 256 + (h / 2 : Nat) ∧ s.objTexel o tx ty = .ok (some c)
    else
      s.objTexel o (if o.hf then w - 1 - mx else mx) (if o.vf then h - 1 - my else my) = .ok (some c)

/-- `row` is the row of pixels of scanline `y` (R300), over the state in which the scanline has started: white
in forced blank, and otherwise at each column the converted colour after effects of the layers' pixels, pushed
back to front on the backdrop, and the object's pixel. -/
def State.Renders (p : State) (y : Nat) (row : Row) : Prop :=
  if p.display.dispcnt.getLsbD 7 then row = List.replicate 240 ⟨255, 255, 255, 255⟩
  else ∃ (obj : Nat → ObjCol) (cell : Fin 4 → Nat → Option Px) (backdrop : Half),
    p.objectLine y = .ok ((List.range 240).map obj) ∧
    (∀ n ∈ p.layerOrder, p.bgRow n y = .ok ((List.range 240).map (cell n))) ∧
    p.HalfAt .pram 0 backdrop ∧
    row = (List.range 240).map fun x =>
      let init := Col.init (p.windowMask x y (obj x).win) (obj x).px (backdrop.extractLsb' 0 15)
      p.toRgba (p.colourEffect (p.layerOrder.foldl (fun c n => c.push n (cell n x)) init).mergeObject)

/-- Channel `k` of a colour: red, green and blue are channels 0, 1 and 2 (R12). -/
def channel (c : Colour) (k : Nat) : Nat := c.toNat / 2 ^ (5 * k) % 32

/-- The source is in a target set (R401). -/
def Src.InSet (set : BitVec 6) : Src → Prop
  | .bg n => set.getLsbD n.val = true
  | .obj => set.getLsbD 4 = true
  | .bd => set.getLsbD 5 = true
  | .empty => False

/-- The column or scanline `v` lies in the range `lo` to `hi - 1`, which wraps when `hi < lo` (R391). -/
def InWrapped (v lo hi : Nat) : Prop := if lo ≤ hi then lo ≤ v ∧ v < hi else lo ≤ v ∨ v < hi

/-- Column `x` of scanline `y` is inside window `n` (R28, R29, R391). -/
def State.InsideWindow (s : State) (n : WindowId) (x y : Nat) : Prop :=
  InWrapped x ((s.win.h n).toNat / 256) ((s.win.h n).toNat % 256) ∧
    InWrapped y ((s.win.v n).toNat / 256) ((s.win.v n).toNat % 256)

/-- Two states agree on all that a scanline's pixels depend on (R92, R300). -/
def State.SamePicture (s t : State) : Prop :=
  s.display = t.display ∧ s.bgs = t.bgs ∧ s.win = t.win ∧ s.fx = t.fx ∧ s.mos = t.mos ∧
    (∀ m a, s.byte? m a = t.byte? m a) ∧ s.output.colorCorrection = t.output.colorCorrection

end Sys2Proof.Machine

namespace Sys2Proof

/-! ## Classes of operations -/

/-- The operation is a write of `IF` that clears the flag of kind `k` (R177). -/
def Instr.ClearsFlag (k : Nat) (i : Instr) : Prop :=
  ∃ lane d, i = .wIf lane d ∧ 8 * lane.toNat ≤ k ∧ k < 8 * lane.toNat + 8 ∧ d.getLsbD (k - 8 * lane.toNat) = true

/-- What a stopped block returns for an operation (R441): `RDATA = 0` or `RVAL = 0` of the operation's
type, and nothing for an operation without a return value. -/
def Instr.zeroReturn : Instr → List Machine.PortOut
  | .rDispcnt _ | .rNoreg002 _ | .rDispstat _ | .rVcount _ | .rBgcnt _ _ | .rBgofs _ _ _ | .rBgp _ _ _
  | .rBgref _ _ _ | .rWinh _ _ | .rWinv _ _ | .rWinin _ | .rWinout _ | .rMosaic _ | .rNoreg04e _ | .rBldcnt _
  | .rBldalpha _ | .rBldy _ | .rNoreg056 _ | .rNoreg058 _ | .rIe _ | .rIf _ | .rIme _ | .rNoreg20a _ | .rPram _
  | .rVramLo _ | .rVramHi _ | .rOam _ => [.rdata 0]
  | .schedPop => [.revent 0 0]
  | .schedHaltskip | .irqLine | .irqHaltexit | .hostReady => [.rbit false]
  | .schedNext | .schedNow => [.rticks 0]
  | .hostReadframe => [.rframe Machine.Frame.zero]
  | .hostFrames => [.rcount 0]
  | _ => []

/-- The operation can fire an LCD event: a drain, a halt skip, or an LCD event itself (R206, R210, R238). -/
def Instr.FiresLcd : Instr → Prop
  | .schedDrain | .schedHaltskip | .eventHblankStart _ | .eventHblankEnd _ => True
  | _ => False

end Sys2Proof
end

