-- ==== Sys2Proof/Certificates/Slice0/Obligations.lean ====
section
/-! DEFINITION. The statements about the machine, for the provers. Each docstring says which rule it
formalises; where a clause rests on a choice of the model, the docstring names the assumption. -/

open Sys2Proof Sys2Proof.Machine Sys2Proof.Config

/-! ## Words -/

/-- R110 to R117: no operand bit is lost between an operation and its word. -/
def Obligations.DecodeOfEncode : Prop :=
  ∀ i : Instr, i.wf = true → decode (encode i) = .ok i

/-- R110 to R118: a word spells at most one operation, the operation is well formed, and the word is the one
its operands assemble; so no two words spell the same operation. -/
def Obligations.EncodeOfDecode : Prop :=
  ∀ (w : OpWord) (i : Instr), decode w = .ok i → i.wf = true ∧ encode i = w

/-- Words written out from R111, R112, R115, R116, R117 and the example of R120. -/
def Obligations.DecodeSpecWords : Prop :=
  decode 0x0800000400000080 = .ok (.wDispcnt 0 0x80) ∧
  decode 0x0000000400000D00 = .ok (.rBgcnt 2 1) ∧
  decode 0x080000040000361F = .ok (.wBgp .bg3 .pd 0 0x1F) ∧
  decode 0x0800000400002F0F = .ok (.wBgref .bg2 .y 3 0x0F) ∧
  decode 0x0000000601000000 = .ok (.rVramHi 0) ∧
  decode 0x10070000000003C0 = .ok (.schedAdd 7 960) ∧
  decode 0x1300FFFFFFFFFFFF = .ok (.schedAdvance (-1)) ∧
  decode 0x2100000000000002 = .ok (.eventHblankEnd 2) ∧
  decode 0x300000000000000D = .ok (.irqFlag 13) ∧
  decode 0x4200000000000001 = .ok (.hostSetcc 1) ∧
  decode 0x500000000000009F = .ok (.renderLine 159)

/-- R118: a word is refused exactly when a rule of R118 holds of it, and the reason given is such a rule;
which one, when two hold, is the model's choice (assumption 1). A refused word has no effect: offered on the
port it gives no next state, and inside a response it leaves a mark and nothing else (R443, assumption 12). -/
def Obligations.RefusedWords : Prop :=
  (∀ (w : OpWord) (r : DecodeRefusal), decode w = .error r → RefusalHolds w r) ∧
  (∀ (w : OpWord) (r : DecodeRefusal), RefusalHolds w r → ∃ r', decode w = .error r') ∧
  (∀ (s : State) (w : OpWord) (rest : List OpWord) (r : DecodeRefusal),
    s.ports.input = w :: rest → decode w = .error r → step s = .refused (.refusedWord r)) ∧
  (∀ (s : State) (w : OpWord) (r : DecodeRefusal), decode w = .error r →
    s.respondWord w = { s with ports := { s.ports with refusals := s.ports.refusals ++ [(w, r)] } })

/-! ## A step -/

/-- R91, R110: a step takes the next offered word and runs the operation it spells, with nothing on the output
ports yet; with no word offered nothing happens (R490). The input list is the model's (assumptions 7, 11). -/
def Obligations.StepRunsTheWord : Prop :=
  (∀ (s : State) (w : OpWord) (rest : List OpWord) (i : Instr), s.ports.input = w :: rest → decode w = .ok i →
    step s = exec i { s with ports := { s.ports with input := rest, out := [] } }) ∧
  (∀ s : State, s.ports.input = [] → step s = .next { s with ports := { s.ports with out := [] } }) ∧
  (∀ (s : State) (n w : Nat) (i : Instr), decode (BitVec.ofNat 64 (w % 2 ^ n)) = .ok i →
    step (s.withFetchWord n w) = exec i { s with ports := { s.ports with out := [] } })

/-! ## Reset -/

/-- R470: every piece of state after power-on reset, whatever the open parameters of R9 are: `VIDEO_MEM_INIT`,
`SCHED_CAPACITY` and what the environment does (assumption 6). -/
def Obligations.ResetValues : Prop :=
  ∀ (video : Video) (capacity : Option Nat) (responses : List (List OpWord)),
    let s := State.resetWith video capacity responses
    s.display.dispcnt = 0 ∧ s.display.dispstat = 0 ∧ s.display.vcount = 0 ∧
    (∀ n, (s.bgs.bg n).cnt = 0 ∧ (s.bgs.bg n).hofs = 0 ∧ (s.bgs.bg n).vofs = 0) ∧
    (∀ n, (s.bgs.aff n).pa = 0 ∧ (s.bgs.aff n).pb = 0 ∧ (s.bgs.aff n).pc = 0 ∧ (s.bgs.aff n).pd = 0 ∧
      (s.bgs.aff n).x = 0 ∧ (s.bgs.aff n).y = 0 ∧ (s.bgs.aff n).refX = 0 ∧ (s.bgs.aff n).refY = 0 ∧
      (s.bgs.aff n).mosRefX = 0 ∧ (s.bgs.aff n).mosRefY = 0) ∧
    (s.win.win0h = 0 ∧ s.win.win1h = 0 ∧ s.win.win0v = 0 ∧ s.win.win1v = 0 ∧ s.win.winin = 0 ∧ s.win.winout = 0) ∧
    (s.fx.mosaic = 0 ∧ s.fx.bldcnt = 0 ∧ s.fx.bldalpha = 0 ∧ s.fx.bldy = 0) ∧
    (s.irq.ie = 0 ∧ s.irq.iflag = 0 ∧ s.irq.ime = 0) ∧
    (s.mos.v = 0 ∧ s.mos.line = 0) ∧
    (s.output.front.Shaped ∧ s.output.back.Shaped ∧
      (∀ r ∈ s.output.front ++ s.output.back, ∀ p ∈ r, p = ⟨0, 0, 0, 0⟩)) ∧
    s.output.colorCorrection = false ∧ s.output.frameCounter = 0 ∧ s.output.frameReady = false ∧
    s.sched.ticks = 0 ∧ s.sched.queue = [⟨960, 0, 0⟩] ∧ s.sched.nextSeq = 1 ∧ s.sched.draining = false ∧
    s.sched.capacity = capacity ∧ s.faults = [] ∧ s.video = video

/-- The state after reset meets every invariant stated below, for video memories in canonical form and for every
list of the responses to come (assumption 6), which it holds, and stands at scanline 0 of frame 0 (R471). That its issuer is the environment is assumption 8. -/
def Obligations.ResetMeetsInvariants : Prop :=
  ∀ (video : Video) (capacity : Option Nat) (responses : List (List OpWord)), video.wf →
    let s := State.resetWith video capacity responses
    s.Clean ∧ s.video.wf ∧ s.sched.Sorted ∧ s.sched.InRange ∧ s.RegsLegal ∧ s.output.Shaped ∧
      s.ports.issuer = .environment ∧ s.ports.responses = responses ∧ s.LcdAt 0 ∧ s.LcdOnTime

/-! ## Bus writes -/

/-- R140, R143, R147: a write of `DISPCNT` or `DISPSTAT` changes the writable bits of the lane and nothing
else of the state. -/
def Obligations.LcdRegisterWrites : Prop :=
  ∀ (s : State) (lane : BitVec 1) (d : Byte), s.Running →
    (∃ v, exec (.wDispcnt lane d) s = .next { s with display := { s.display with dispcnt := v } } ∧
      LaneWritten s.display.dispcnt v 0xFFF7 lane.toNat d) ∧
    (∃ v, exec (.wDispstat lane d) s = .next { s with display := { s.display with dispstat := v } } ∧
      LaneWritten s.display.dispstat v 0xFF38 lane.toNat d)

/-- R140, R151, R153, R155, R157: a write of `BGnCNT`, of a scroll offset, of an affine coefficient or of a
reference point changes the writable bits of the lane; a write of a reference point also reloads the internal
reference of its axis; and nothing else of the state changes, the mosaic references included. -/
def Obligations.BackgroundWrites : Prop :=
  ∀ (s : State) (n : Fin 4) (m : AffineBg) (lane : BitVec 1) (lane4 : BitVec 2) (d : Byte), s.Running →
    let r := s.bgs.bg n
    let a := s.bgs.aff m
    (∃ v b, exec (.wBgcnt n lane d) s = .next { s with bgs := b } ∧ s.bgs.OnlyBg b n { r with cnt := v } ∧
      LaneWritten r.cnt v 0xFFCF lane.toNat d) ∧
    (∃ v b, exec (.wBgofs n .h lane d) s = .next { s with bgs := b } ∧ s.bgs.OnlyBg b n { r with hofs := v } ∧
      LaneWritten r.hofs v 0x01FF lane.toNat d) ∧
    (∃ v b, exec (.wBgofs n .v lane d) s = .next { s with bgs := b } ∧ s.bgs.OnlyBg b n { r with vofs := v } ∧
      LaneWritten r.vofs v 0x01FF lane.toNat d) ∧
    (∃ v b, exec (.wBgp m .pa lane d) s = .next { s with bgs := b } ∧ s.bgs.OnlyAff b m { a with pa := v } ∧
      LaneWritten a.pa v 0xFFFF lane.toNat d) ∧
    (∃ v b, exec (.wBgp m .pb lane d) s = .next { s with bgs := b } ∧ s.bgs.OnlyAff b m { a with pb := v } ∧
      LaneWritten a.pb v 0xFFFF lane.toNat d) ∧
    (∃ v b, exec (.wBgp m .pc lane d) s = .next { s with bgs := b } ∧ s.bgs.OnlyAff b m { a with pc := v } ∧
      LaneWritten a.pc v 0xFFFF lane.toNat d) ∧
    (∃ v b, exec (.wBgp m .pd lane d) s = .next { s with bgs := b } ∧ s.bgs.OnlyAff b m { a with pd := v } ∧
      LaneWritten a.pd v 0xFFFF lane.toNat d) ∧
    (∃ v b, exec (.wBgref m .x lane4 d) s = .next { s with bgs := b } ∧
      s.bgs.OnlyAff b m { a with x := v, refX := v.extractLsb' 0 28 } ∧
      LaneWritten a.x v 0x0FFFFFFF lane4.toNat d) ∧
    (∃ v b, exec (.wBgref m .y lane4 d) s = .next { s with bgs := b } ∧
      s.bgs.OnlyAff b m { a with y := v, refY := v.extractLsb' 0 28 } ∧
      LaneWritten a.y v 0x0FFFFFFF lane4.toNat d)

/-- R140, R159, R161, R163, R165, R167, R169, R171, R173: the writes of the window, mosaic and colour-effect
registers. -/
def Obligations.WindowAndEffectWrites : Prop :=
  ∀ (s : State) (n : WindowId) (lane : BitVec 1) (d : Byte), s.Running →
    (∃ v w, exec (.wWinh n lane d) s = .next { s with win := w } ∧
      w.Are (fun m => if m = n then v else s.win.h m) s.win.v s.win.winin s.win.winout ∧
      LaneWritten (s.win.h n) v 0xFFFF lane.toNat d) ∧
    (∃ v w, exec (.wWinv n lane d) s = .next { s with win := w } ∧
      w.Are s.win.h (fun m => if m = n then v else s.win.v m) s.win.winin s.win.winout ∧
      LaneWritten (s.win.v n) v 0xFFFF lane.toNat d) ∧
    (∃ v w, exec (.wWinin lane d) s = .next { s with win := w } ∧
      w.Are s.win.h s.win.v v s.win.winout ∧ LaneWritten s.win.winin v 0x3F3F lane.toNat d) ∧
    (∃ v w, exec (.wWinout lane d) s = .next { s with win := w } ∧
      w.Are s.win.h s.win.v s.win.winin v ∧ LaneWritten s.win.winout v 0x3F3F lane.toNat d) ∧
    (∃ v, exec (.wMosaic lane d) s = .next { s with fx := { s.fx with mosaic := v } } ∧
      LaneWritten s.fx.mosaic v 0xFFFF lane.toNat d) ∧
    (∃ v, exec (.wBldcnt lane d) s = .next { s with fx := { s.fx with bldcnt := v } } ∧
      LaneWritten s.fx.bldcnt v 0x3FFF lane.toNat d) ∧
    (∃ v, exec (.wBldalpha lane d) s = .next { s with fx := { s.fx with bldalpha := v } } ∧
      LaneWritten s.fx.bldalpha v 0x1F1F lane.toNat d) ∧
    (∃ v, exec (.wBldy lane d) s = .next { s with fx := { s.fx with bldy := v } } ∧
      LaneWritten s.fx.bldy v 0x001F lane.toNat d)

/-- R140, R175, R177, R179: the writes of the interrupt bank; a 1 written to a bit 0..13 of `IF` clears it, and
no write sets a bit of `IF`. -/
def Obligations.InterruptBankWrites : Prop :=
  ∀ (s : State) (lane : BitVec 1) (d : Byte), s.Running →
    (∃ v, exec (.wIe lane d) s = .next { s with irq := { s.irq with ie := v } } ∧
      LaneWritten s.irq.ie v 0x3FFF lane.toNat d) ∧
    (∃ v, exec (.wIme lane d) s = .next { s with irq := { s.irq with ime := v } } ∧
      LaneWritten s.irq.ime v 0x0001 lane.toNat d) ∧
    (∃ v, exec (.wIf lane d) s = .next { s with irq := { s.irq with iflag := v } } ∧
      ∀ i, i < 16 → v.getLsbD i = if 8 * lane.toNat ≤ i ∧ i < 8 * lane.toNat + 8 ∧ i < 14 ∧
          d.getLsbD (i - 8 * lane.toNat) = true then false else s.irq.iflag.getLsbD i)

/-- R145, R149: a write of an owned offset without a register, or of `VCOUNT`, is no operation. -/
def Obligations.WritesWithoutEffect : Prop :=
  ∀ (s : State) (lane : BitVec 1) (o : BitVec 3) (d : Byte), s.Running →
    ∀ i ∈ [Instr.wVcount lane d, .wNoreg002 lane d, .wNoreg04e lane d, .wNoreg056 lane d, .wNoreg058 o d,
      .wNoreg20a lane d], exec i s = .next s

/-! ## Bus reads -/

/-- R141, R144, R148, R150, R152, R164, R166, R170, R172, R176, R178, R180: a read returns the lane of the
register's read value and changes no state. -/
def Obligations.RegisterReads : Prop :=
  ∀ (s : State) (n : Fin 4) (lane : BitVec 1), s.Running →
    let l := lane.toNat
    exec (.rDispcnt lane) s = .next (s.put (.rdata (laneByte (s.display.dispcnt &&& 0xFFF7).toNat l))) ∧
    exec (.rDispstat lane) s = .next (s.put (.rdata (laneByte
      (s.display.dispstat.extractLsb' 8 8 ++ 0#2 ++ s.display.dispstat.extractLsb' 0 6).toNat l))) ∧
    exec (.rVcount lane) s = .next (s.put (.rdata (laneByte s.display.vcount.toNat l))) ∧
    exec (.rBgcnt n lane) s = .next (s.put (.rdata (laneByte ((s.bgs.bg n).cnt &&& 0xFFCF).toNat l))) ∧
    exec (.rWinin lane) s = .next (s.put (.rdata (laneByte (s.win.winin &&& 0x3F3F).toNat l))) ∧
    exec (.rWinout lane) s = .next (s.put (.rdata (laneByte (s.win.winout &&& 0x3F3F).toNat l))) ∧
    exec (.rBldcnt lane) s = .next (s.put (.rdata (laneByte (s.fx.bldcnt &&& 0x3FFF).toNat l))) ∧
    exec (.rBldalpha lane) s = .next (s.put (.rdata (laneByte (s.fx.bldalpha &&& 0x1F1F).toNat l))) ∧
    exec (.rIe lane) s = .next (s.put (.rdata (laneByte (s.irq.ie &&& 0x3FFF).toNat l))) ∧
    exec (.rIf lane) s = .next (s.put (.rdata (laneByte (s.irq.iflag &&& 0x3FFF).toNat l))) ∧
    exec (.rIme lane) s = .next (s.put (.rdata (laneByte (s.irq.ime &&& 0x0001).toNat l)))

/-- R142, R146, R154, R156, R158, R160, R162, R168, R174: a read of a write-only register or of an offset
without a register returns 0 and changes no state. -/
def Obligations.ReadsOfNothing : Prop :=
  ∀ (s : State) (n : Fin 4) (ax : Scroll) (m : AffineBg) (p : AffineParam) (axis : Axis) (w : WindowId)
    (lane : BitVec 1) (lane4 : BitVec 2) (o : BitVec 3), s.Running →
    ∀ i ∈ [Instr.rNoreg002 lane, .rNoreg04e lane, .rNoreg056 lane, .rNoreg058 o, .rNoreg20a lane,
      .rBgofs n ax lane, .rBgp m p lane, .rBgref m axis lane4, .rWinh w lane, .rWinv w lane, .rMosaic lane,
      .rBldy lane], exec i s = .next (s.put (.rdata 0))

/-! ## Video memory -/

/-- R181 to R186: a write of a video memory byte stores it at its offset, leaves every other byte of the three
memories as it was, and changes nothing else; a read returns the byte and changes no state. A byte whose
contents are unknown (R472) reads as the free value of assumption 3. -/
def Obligations.VideoMemoryAccess : Prop :=
  ∀ (s : State) (p : BitVec 10) (lo : BitVec 16) (hi : BitVec 15) (d : Byte), s.Running →
    ∀ x ∈ [(Instr.wPram p d, Instr.rPram p, VMem.pram, p.toNat), (.wVramLo lo d, .rVramLo lo, .vram, lo.toNat),
      (.wVramHi hi d, .rVramHi hi, .vram, 0x10000 + hi.toNat), (.wOam p d, .rOam p, .oam, p.toNat)],
      let m := x.2.2.1
      let o := x.2.2.2
      (∃ v, exec x.1 s = .next { s with video := v } ∧ (v.mem m).read? o = some d ∧
        ∀ n a, (n, a) ≠ (m, o) → (v.mem n).read? a = s.byte? n a) ∧
      exec x.2.1 s = .next (s.put (.rdata ((s.byte? m o).getD (videoMemInit m o))))

/-! ## Interrupts -/

/-- R262, R263, R264, R265: `IRQ.FLAG` sets the flag of its kind and changes nothing else; the interrupt line and
the halt-exit condition. -/
def Obligations.InterruptOperations : Prop :=
  ∀ s : State, s.Running →
    (∀ k : BitVec 4, k.toNat < 14 → ∃ v, exec (.irqFlag k) s = .next { s with irq := { s.irq with iflag := v } } ∧
      ∀ i, i < 16 → v.getLsbD i = (s.irq.iflag.getLsbD i || decide (i = k.toNat))) ∧
    (∃ b, exec .irqLine s = .next (s.put (.rbit b)) ∧ (b = true ↔ s.irq.ime.getLsbD 0 = true ∧ s.irq.Awake)) ∧
    (∃ b, exec .irqHaltexit s = .next (s.put (.rbit b)) ∧ (b = true ↔ s.irq.Awake))

/-- R266: a pending flag stays set through every step, unless the step's word or a word of a response to a
signal of the step is a write of `IF` that clears it. -/
def Obligations.PendingFlagsAreLatches : Prop :=
  ∀ (s t : State) (k : Nat), step s = .next t → k < 14 → s.irq.iflag.getLsbD k = true →
    t.irq.iflag.getLsbD k = false →
    ∃ w ∈ s.ports.input.take 1 ++ s.ports.responses.flatten, ∃ i, decode w = .ok i ∧ i.ClearsFlag k

/-! ## The scheduler -/

/-- R201: the scheduler's internal primitive. That `nextSeq` wraps at its last value is assumption 14. -/
def Obligations.Schedule : Prop :=
  ∀ (s : State) (tag : Byte) (delay : Int) (op : FaultOp),
    let due := s.sched.ticks + delay
    if delay < 0 then s.schedule tag delay op = s.faulted (.negativeDelay tag delay) op
    else if 2 ^ 63 - 1 ≤ due then s.schedule tag delay op = s.faulted (.tickOverflow (.due tag due)) op
    else if s.sched.capacity = some s.sched.queue.length then s.schedule tag delay op = s.faulted (.queueFull tag) op
    else EventAdded s (s.schedule tag delay op) due tag

/-- R201, R202, R445: `SCHED.ADD` adds one pending event, or raises the first fault of its checks. That
`nextSeq` wraps at its last value is assumption 14. -/
def Obligations.SchedAdd : Prop :=
  ∀ (s : State) (tag : Byte) (delay : BitVec 48), s.Running →
    let due := s.sched.ticks + delay.toInt
    let fault := fun k => exec (.schedAdd tag delay) s = .next (s.faulted k (.word (encode (.schedAdd tag delay))))
    if tag = 0 ∨ tag = 1 then fault (.reservedTag tag)
    else if delay.toInt < 0 then fault (.negativeDelay tag delay.toInt)
    else if 2 ^ 63 - 1 ≤ due then fault (.tickOverflow (.due tag due))
    else if s.sched.capacity = some s.sched.queue.length then fault (.queueFull tag)
    else ∃ t, exec (.schedAdd tag delay) s = .next t ∧ EventAdded s t due tag

/-- R203: the internal `POP` takes the first event, which in a queue in the order of R200 is the least, and
faults on an empty queue. -/
def Obligations.SchedPop : Prop :=
  ∀ s : State, s.Running → s.ports.issuer = .internal →
    (s.sched.queue = [] → exec .schedPop s = .next (s.faulted .popEmpty (.word (encode .schedPop)))) ∧
    ∀ e rest, s.sched.queue = e :: rest →
      exec .schedPop s = .next ({ s with sched := { s.sched with queue := rest } }.put (.revent e.due e.tag)) ∧
      (s.sched.Sorted → ∀ f ∈ rest, e.NotAfter f)

/-- R204: `SCHED.CANCEL` removes the least pending event with the tag, if there is one, and nothing else. -/
def Obligations.SchedCancel : Prop :=
  ∀ (s : State) (tag : Byte), s.Running →
    (tag = 0 ∨ tag = 1 →
      exec (.schedCancel tag) s = .next (s.faulted (.reservedTag tag) (.word (encode (.schedCancel tag))))) ∧
    (tag ≠ 0 → tag ≠ 1 →
      ((∀ e ∈ s.sched.queue, e.tag ≠ tag) → exec (.schedCancel tag) s = .next s) ∧
      ((∃ e ∈ s.sched.queue, e.tag = tag) → ∃ e before after, s.sched.queue = before ++ e :: after ∧ e.tag = tag ∧
        exec (.schedCancel tag) s = .next { s with sched := { s.sched with queue := before ++ after } } ∧
        (s.sched.Sorted → ∀ f ∈ s.sched.queue, f.tag = tag → e.NotAfter f)))

/-- R205, R211: `SCHED.ADVANCE` moves the clock and nothing else, or raises a fault. That the fault inside a
drain comes first is the model's choice (assumption 16), and so is that the info of `TickOverflow` is R205's `{n}`,
without R442's due tick (assumption 30). -/
def Obligations.SchedAdvance : Prop :=
  ∀ (s : State) (n : BitVec 48), s.Running →
    let fault := fun k => exec (.schedAdvance n) s = .next (s.faulted k (.word (encode (.schedAdvance n))))
    if s.sched.draining = true then fault (.callbackAdvance n.toInt)
    else if n.toInt < 0 then fault (.timeDecrease n.toInt)
    else if 2 ^ 63 - 1 ≤ s.sched.ticks + n.toInt then fault (.tickOverflow (.advance n.toInt))
    else exec (.schedAdvance n) s = .next { s with sched := { s.sched with ticks := s.sched.ticks + n.toInt } }

/-- R209: `SCHED.NOW` returns the clock and `SCHED.NEXT` the least due time of a queue in the order of R200, or
`2^63 - 1` with nothing pending. -/
def Obligations.SchedQueries : Prop :=
  ∀ s : State, s.Running →
    exec .schedNow s = .next (s.put (.rticks s.sched.ticks)) ∧
    ∃ t, exec .schedNext s = .next (s.put (.rticks t)) ∧
      (s.sched.queue = [] → t = 2 ^ 63 - 1) ∧
      (s.sched.queue ≠ [] → s.sched.Sorted → (∃ e ∈ s.sched.queue, e.due = t) ∧ ∀ e ∈ s.sched.queue, t ≤ e.due)

/-- R206: `SCHED.DRAIN` carries out the whole loop: it ends, and only at a fault or when no event is due. After
a fault `draining` stays as the loop left it (assumption 10). -/
def Obligations.SchedDrain : Prop :=
  ∀ s : State, s.Running → s.sched.draining = false →
    ∃ t, Drains { s with sched := { s.sched with draining := true } } t ∧
      exec .schedDrain s =
        .next (if t.faults = [] then { t with sched := { t.sched with draining := false } } else t)

/-- R208: when a drain returns without a fault, no pending event is due. -/
def Obligations.DrainToQuiescence : Prop :=
  ∀ s t : State, s.Running → s.sched.draining = false → s.sched.Sorted → exec .schedDrain s = .next t → t.Running →
    t.sched.draining = false ∧ ∀ e ∈ t.sched.queue, t.sched.ticks < e.due

/-- R207: a drain or halt skip issued during a drain raises `DrainReentry` and does nothing else. -/
def Obligations.DrainReentry : Prop :=
  ∀ s : State, s.Running → s.sched.draining = true →
    exec .schedDrain s = .next (s.faulted .drainReentry (.word (encode .schedDrain))) ∧
    exec .schedHaltskip s = .next (s.faulted .drainReentry (.word (encode .schedHaltskip)))

/-- R206, R210, R440: the halt skip outside a drain fires one event, the first: where the clock stands if it is
due, or after a jump to its due time. That it fires one also with several due is the ruling of D19 and the prose of
R210, against its pseudocode (assumption 27). The stuck case is `Fault.haltStuck` (assumption 20); a call ended by
a fault returns no value (assumption 13) and leaves `draining` set (assumption 10). -/
def Obligations.HaltSkip : Prop :=
  ∀ s : State, s.Running → s.sched.draining = false →
    let ends := fun (t : State) =>
      if t.faults = [] then { t with sched := { t.sched with draining := false } }.put (.rbit true) else t
    (s.irq.Awake → exec .schedHaltskip s = .next (s.put (.rbit false))) ∧
    (¬ s.irq.Awake → s.sched.queue = [] → exec .schedHaltskip s = .fault .haltStuck) ∧
    (¬ s.irq.Awake → ∀ e rest, s.sched.queue = e :: rest →
      let fired := fun (p : State) (lateness : Int) =>
        if e.tag = 0 then p.hblankStart lateness
        else if e.tag = 1 then p.hblankEnd lateness
        else p.emit (.fire e.tag lateness)
      (e.due ≤ s.sched.ticks →
        exec .schedHaltskip s = .next (ends
          (fired { s with sched := { s.sched with draining := true, queue := rest } } (s.sched.ticks - e.due)))) ∧
      (s.sched.ticks < e.due →
        exec .schedHaltskip s = .next (ends
          (fired { s with sched := { s.sched with ticks := e.due, draining := true, queue := rest } } 0))))

/-- R113, R211: an emitted signal is put on the port and the environment's response to it, the next list of
words, is carried out in full before the emitting operation goes on (assumption 6); with no list left the
response is empty. A word of a response runs the operation it spells, and an operation of a response does what
the operation does when the environment issues it during a drain, also in a DMA transfer's (assumption 28). -/
def Obligations.ResponsesRunInFull : Prop :=
  (∀ (s : State) (g : Signal) (ws : List OpWord) (rest : List (List OpWord)), s.ports.responses = ws :: rest →
    s.emit g = ws.foldl State.respondWord
      { s with ports := { s.ports with responses := rest, out := s.ports.out ++ [.signal g] } }) ∧
  (∀ (s : State) (g : Signal), s.ports.responses = [] →
    s.emit g = { s with ports := { s.ports with out := s.ports.out ++ [.signal g] } }) ∧
  (∀ (s : State) (w : OpWord) (i : Instr), decode w = .ok i → s.respondWord w = s.respond i) ∧
  (∀ (s : State) (i : Instr), s.ports.issuer = .environment → s.sched.draining = true →
    exec i s = .next (s.respond i))

/-- R214, R490: the clock never moves back, and it moves only in a step that is an advance or a halt skip. -/
def Obligations.ClockMoves : Prop :=
  ∀ s t : State, step s = .next t → s.sched.ticks ≤ t.sched.ticks ∧
    (s.sched.ticks ≠ t.sched.ticks → ∃ w rest, s.ports.input = w :: rest ∧
      ((∃ n, decode w = .ok (.schedAdvance n)) ∨ decode w = .ok .schedHaltskip))

/-! ## The LCD timing controller -/

/-- R233, R201: `HBLANK_START` on a vblank scanline sets `HBLANK`, flags kind 1 when enabled and schedules its
successor 272 ticks after its own due time, and does nothing else; a check of R201 that fails, as with a lateness
above 272 (R250), ends it in that fault instead. That the record names the event and not the drain is
assumption 17, and that `nextSeq` wraps at its last value assumption 14. -/
def Obligations.HblankStartInVblank : Prop :=
  (∀ (s : State) (L : BitVec 48), s.Running → s.ports.issuer = .internal →
    exec (.eventHblankStart L) s = .next (s.hblankStart L.toInt)) ∧
  ∀ (s : State) (L : Int), s.Running → 160 ≤ s.display.vcount.toNat →
    ∃ d f, (∀ i, i < 16 → d.getLsbD i = (s.display.dispstat.getLsbD i || decide (i = 1))) ∧
      (∀ i, i < 16 → f.getLsbD i =
        (s.irq.iflag.getLsbD i || (decide (i = 1) && s.display.dispstat.getLsbD 4))) ∧
      let b := { s with display := { s.display with dispstat := d }, irq := { s.irq with iflag := f } }
      let due := s.sched.ticks + (272 - L)
      let fault := fun k => s.hblankStart L = b.faulted k (.hblankStart L)
      if 272 < L then fault (.negativeDelay 1 (272 - L))
      else if 2 ^ 63 - 1 ≤ due then fault (.tickOverflow (.due 1 due))
      else if s.sched.capacity = some s.sched.queue.length then fault (.queueFull 1)
      else EventAdded b (s.hblankStart L) due 1

/-- R232, R268: the order of `HBLANK_START` on a visible scanline: render, flag, DMA trigger, successor; a
fault on the way ends it there (R440). That a record names the event is assumption 17. -/
def Obligations.HblankStartOrder : Prop :=
  (∀ (s : State) (L : BitVec 48), s.Running → s.ports.issuer = .internal →
    exec (.eventHblankStart L) s = .next (s.hblankStart L.toInt)) ∧
  ∀ (s : State) (L : Int), s.Running → s.display.vcount.toNat < 160 →
    let r := s.renderLine s.display.vcount.toNat
    (¬ r.Running → s.hblankStart L = r) ∧
    (r.Running → ∃ d f, (∀ i, i < 16 → d.getLsbD i = (r.display.dispstat.getLsbD i || decide (i = 1))) ∧
      (∀ i, i < 16 → f.getLsbD i =
        (r.irq.iflag.getLsbD i || (decide (i = 1) && r.display.dispstat.getLsbD 4))) ∧
      let b := { r with display := { r.display with dispstat := d }, irq := { r.irq with iflag := f } }.emit .dmaHblank
      (¬ b.Running → s.hblankStart L = b) ∧
      (b.Running → s.hblankStart L = b.schedule 1 (272 - L) (.hblankStart L)))

/-- R234, R235, R236: `HBLANK_END`, vblank entry being `R237`'s. The scanline advances modulo 228, the match is
evaluated against it, and the successor is due 960 ticks after the event's own due time. That a fault record of
the successor names the event is assumption 17. -/
def Obligations.HblankEnd : Prop :=
  (∀ (s : State) (L : BitVec 48), s.Running → s.ports.issuer = .internal →
    exec (.eventHblankEnd L) s = .next (s.hblankEnd L.toInt)) ∧
  ∀ (s : State) (L : Int) (y : Byte), s.Running → y.toNat = (s.display.vcount.toNat + 1) % 228 →
    ∃ d f, (∀ i, i < 16 → d.getLsbD i = if i = 1 then false
        else if i = 2 then decide (y = s.display.dispstat.extractLsb' 8 8) else s.display.dispstat.getLsbD i) ∧
      (∀ i, i < 16 → f.getLsbD i = (s.irq.iflag.getLsbD i ||
        (decide (i = 2 ∧ y = s.display.dispstat.extractLsb' 8 8) && s.display.dispstat.getLsbD 5))) ∧
      let a := { s with
        display := { s.display with dispstat := d, vcount := y }, irq := { s.irq with iflag := f } }
      let last := fun (c : State) => c.schedule 0 (960 - L) (.hblankEnd L)
      (y ≠ 160 → y ≠ 227 → y ≠ 0 → s.hblankEnd L = last a) ∧
      (y = 227 → s.hblankEnd L = last { a with display := { a.display with dispstat := d &&& 0xFFFE } }) ∧
      (y = 0 → s.hblankEnd L = last { a with mos := { a.mos with v := 0 } }) ∧
      (y = 160 → a.vblankEntry.Running → s.hblankEnd L = last a.vblankEntry) ∧
      (y = 160 → ¬ a.vblankEntry.Running → s.hblankEnd L = a.vblankEntry)

/-- R237: vblank entry sets `VBLANK`, reloads the affine references, triggers the DMA, and then flags kind 0
when enabled, counts the frame, swaps the framebuffers and sets `frameReady`. A response to the trigger that
faults ends it (R113, R440; the responses are assumption 6). -/
def Obligations.VblankEntry : Prop :=
  ∀ s : State, s.Running → ∃ d b, (∀ i, i < 16 → d.getLsbD i = (s.display.dispstat.getLsbD i || decide (i = 0))) ∧
    (∀ n, b.bg n = s.bgs.bg n) ∧
    (∀ n, b.aff n = { s.bgs.aff n with
      refX := (s.bgs.aff n).x.extractLsb' 0 28, refY := (s.bgs.aff n).y.extractLsb' 0 28 }) ∧
    let u := { s with display := { s.display with dispstat := d }, bgs := b }.emit .dmaVblank
    (¬ u.Running → s.vblankEntry = u) ∧
    (u.Running → ∃ f, (∀ i, i < 16 → f.getLsbD i =
        (u.irq.iflag.getLsbD i || (decide (i = 0) && u.display.dispstat.getLsbD 3))) ∧
      s.vblankEntry = { u with
        irq := { u.irq with iflag := f }
        output := { u.output with
          frameCounter := u.output.frameCounter + 1, front := u.output.back, back := u.output.front,
          frameReady := true } })

/-- R203, R238, R300: an internal operation offered by the environment raises `InternalOnly` and changes nothing
else. -/
def Obligations.InternalOnly : Prop :=
  ∀ (s : State) (L : BitVec 48) (y : Byte), s.Running → s.ports.issuer = .environment →
    ∀ i ∈ [Instr.schedPop, .eventHblankStart L, .eventHblankEnd L, .renderLine y],
      exec i s = .next (s.faulted (.internalOnly (encode i)) (.word (encode i)))

/-- R149, R212, R231, R239: only an LCD event changes `VCOUNT` or the status bits of `DISPSTAT`, and nothing
else adds or removes a pending LCD event, the internal `POP` apart. So too inside a drain: a signal with its
whole response, and so an external event, changes none of them. -/
def Obligations.LcdStateIsTheLcds : Prop :=
  (∀ (s t : State) (w : OpWord) (rest : List OpWord) (i : Instr), s.ports.input = w :: rest → decode w = .ok i →
    ¬ i.FiresLcd → step s = .next t →
    t.display.vcount = s.display.vcount ∧
    (∀ k, k < 3 → t.display.dispstat.getLsbD k = s.display.dispstat.getLsbD k) ∧
    (i ≠ .schedPop → lcdEvents t.sched.queue = lcdEvents s.sched.queue)) ∧
  ∀ (s : State) (g : Signal),
    (s.emit g).display.vcount = s.display.vcount ∧
    (∀ k, k < 3 → (s.emit g).display.dispstat.getLsbD k = s.display.dispstat.getLsbD k) ∧
    lcdEvents (s.emit g).sched.queue = lcdEvents s.sched.queue

/-- R212, R215, R236, R237, R240, R241: every step keeps the LCD on time, whatever the latenesses: with no fault so
far, exactly one LCD event is pending, due at the tick its scanline and frame name, and `VBLANK` and the frame
counter are those of the scanline and frame. The issuer of a step's word, the environment, is assumption 8. -/
def Obligations.LcdRunsOnTime : Prop :=
  ∀ s t : State, s.ports.issuer = .environment → s.LcdOnTime → step s = .next t →
    t.ports.issuer = .environment ∧ t.LcdOnTime

/-- R240: after a drain to quiescence the scanline, the blanking flags and the frame counter are functions of the
clock alone. -/
def Obligations.CyclePosition : Prop :=
  ∀ (f : Nat) (s : State), s.LcdAt f → (∀ e ∈ s.sched.queue, s.sched.ticks < e.due) →
    let p := s.sched.ticks % 280896
    (s.display.vcount.toNat : Int) = p / 1232 ∧
    (s.display.dispstat.getLsbD 1 = true ↔ 960 ≤ p % 1232) ∧
    (s.display.dispstat.getLsbD 0 = true ↔ 160 ≤ p / 1232 ∧ p / 1232 ≤ 226) ∧
    s.output.frameCounter = BitVec.ofInt 64 ((s.sched.ticks + 1232 * 68) / 280896)

/-! ## Invariants -/

/-- Every step keeps the video memories in canonical form, so equal memories are equal data. -/
def Obligations.StepKeepsMemories : Prop :=
  ∀ s t : State, s.video.wf → step s = .next t → t.video.wf

/-- R52, R200, R201, R205: every step keeps the queue in its order, and the clock and every due time in 0 to
`2^63 - 2`. -/
def Obligations.StepKeepsQueue : Prop :=
  ∀ s t : State, s.sched.Sorted → s.sched.InRange → step s = .next t → t.sched.Sorted ∧ t.sched.InRange

/-- R21 to R41: every step keeps every register in its layout: bits that nothing stores stay 0, `VCOUNT` stays a
scanline, and the mosaic counter stays at most 15. -/
def Obligations.StepKeepsRegisters : Prop :=
  ∀ s t : State, s.RegsLegal → step s = .next t → t.RegsLegal

/-- R42, R421: every step keeps both framebuffers at 160 rows of 240 pixels. -/
def Obligations.StepKeepsFrames : Prop :=
  ∀ s t : State, s.output.Shaped → step s = .next t → t.output.Shaped

/-- R441: a stopped block changes no state, returns 0, and neither emits nor faults, whatever the operation. What
`RVAL = 0` is for a frame and for a pair is assumption 23. -/
def Obligations.StoppedBlock : Prop :=
  ∀ (s : State) (i : Instr), ¬ s.Running → exec i s = .next (i.zeroReturn.foldl State.put s)

/-- R440, R445: faults are never cleared, and one operation records at most one. -/
def Obligations.AtMostOneFault : Prop :=
  ∀ s t : State, step s = .next t → ∃ l, t.faults = s.faults ++ l ∧ l.length ≤ 1 ∧ (s.faults ≠ [] → l = [])

/-! ## The host -/

/-- R280 to R284: the host operations. -/
def Obligations.HostOperations : Prop :=
  ∀ (s : State) (b : BitVec 1), s.Running →
    exec .hostReadframe s = .next (s.put (.rframe s.output.front)) ∧
    exec .hostClearready s = .next { s with output := { s.output with frameReady := false } } ∧
    exec .hostReady s = .next (s.put (.rbit s.output.frameReady)) ∧
    exec (.hostSetcc b) s = .next { s with output := { s.output with colorCorrection := b.getLsbD 0 } } ∧
    exec .hostFrames s = .next (s.put (.rcount s.output.frameCounter))

/-! ## Rendering -/

/-- R300, R303, R341, R395, R400, R410, R420: in forced blank the row is white, whatever else the state holds;
with no layer, object or window enabled it is the backdrop, palette entry 0. The affine and mosaic updates run in
both. A scanline from 160 up, which no word spells, has no row to replace (assumption 22). -/
def Obligations.BlankAndBackdropLines : Prop :=
  ∀ (s : State) (y : Byte), s.Running →
    let t := s.renderLine y.toNat
    (s.ports.issuer = .internal → exec (.renderLine y) s = .next t) ∧
    (s.display.dispcnt.getLsbD 7 = true → LineRendered s t y (List.replicate 240 ⟨255, 255, 255, 255⟩)) ∧
    (∀ lo hi : Byte, s.display.dispcnt = 0 → s.byte? .pram 0 = some lo → s.byte? .pram 1 = some hi →
      s.fx.bldcnt.getLsbD 5 = false → s.output.colorCorrection = false →
      let ch := fun k => BitVec.ofNat 8 (channel ((hi ++ lo).extractLsb' 0 15) k * 255 / 31)
      LineRendered s t y (List.replicate 240 ⟨ch 0, ch 1, ch 2, 255⟩))

/-- R300, R303, R341, R421: a scanline in a mode 0 to 5 renders, over memories whose contents are known and
without a prohibited object on it. Each pixel of its row is the converted colour, after effects, of the layers
pushed back to front on the backdrop and the object's pixel merged in; the render writes exactly its row of
`back`, the affine references and the mosaic state. -/
def Obligations.RenderCompletes : Prop :=
  ∀ (s : State) (y : Byte), s.Running → y.toNat < 160 → s.display.dispcnt.toNat % 8 ≤ 5 → s.VideoKnown →
    (s.display.dispcnt.getLsbD 12 = true → ∀ i o, i < 128 → s.objAttr i = .ok o → ¬ o.Prohibited y.toNat) →
    let t := s.renderLine y.toNat
    (s.ports.issuer = .internal → exec (.renderLine y) s = .next t) ∧
    ∃ p row, LineStarted s p y ∧ p.Renders y.toNat row ∧ row.length = 240 ∧ LineRendered s t y row

/-- R301, R341, R363, R440, R445, R472: when a scanline faults: in modes 6 and 7 (`UnimplementedPath`), at the first
prohibited object (`ProhibitedObject`), and on a backdrop of unknown contents (`UninitRead`). Only the latches of
the start of the line have changed then: no pixel is written and no reference accumulated. The operation a
record names is assumption 17, and that the low byte of the backdrop is read first is assumption 18. -/
def Obligations.RenderFaults : Prop :=
  ∀ (s : State) (y : Byte), s.Running → y.toNat < 160 → s.display.dispcnt.getLsbD 7 = false →
    let t := s.renderLine y.toNat
    let faults := fun k => ∃ p, LineStarted s p y ∧ t = p.faulted k (.renderLine y.toNat)
    (s.ports.issuer = .internal → exec (.renderLine y) s = .next t) ∧
    (6 ≤ s.display.dispcnt.toNat % 8 → faults (.unimplementedPath s.display.dispcnt)) ∧
    (s.display.dispcnt.toNat % 8 ≤ 5 → s.display.dispcnt.getLsbD 12 = true → s.VideoKnown → ∀ i o, i < 128 →
      s.objAttr i = .ok o → o.Prohibited y.toNat →
      (∀ j p, j < i → s.objAttr j = .ok p → ¬ p.Prohibited y.toNat) → faults (.prohibitedObject i o.a0)) ∧
    (s.display.dispcnt.toNat % 8 ≤ 5 → s.display.dispcnt.getLsbD 12 = false → s.byte? .pram 0 = none →
      faults (.uninitRead .pram 0))

/-- R92: a scanline's pixels, or its fault, depend on the LCD, background, window, effect and mosaic registers,
the video memories and the colour toggle at that instant, and on nothing else of the state. A scanline from 160
up, which no word spells, has no row to replace (assumption 22). -/
def Obligations.PictureDependsOnlyOnItsInputs : Prop :=
  (∀ (s : State) (y : Byte), s.Running → s.ports.issuer = .internal →
    exec (.renderLine y) s = .next (s.renderLine y.toNat)) ∧
  ∀ (s t : State) (y : Byte), s.Running → t.Running → State.SamePicture s t →
    let s' := s.renderLine y.toNat
    let t' := t.renderLine y.toNat
    (∃ row, LineRendered s s' y row ∧ LineRendered t t' y row) ∨
      ∃ r, s'.faults = [r] ∧ t'.faults = [r] ∧ s'.output = s.output ∧ t'.output = t.output

/-- R301, R302: the layers of a scanline are the enabled backgrounds that the mode has, back to front by
priority and then by number. -/
def Obligations.LayerOrder : Prop :=
  (∀ n : Fin 4, layerKind 0 n = some .text ∧
    layerKind 1 n = [some .text, some .text, some .affine, none].getD n.val none ∧
    layerKind 2 n = [none, none, some .affine, some .affine].getD n.val none ∧
    layerKind 3 n = [none, none, some .bitmap3, none].getD n.val none ∧
    layerKind 4 n = [none, none, some .bitmap4, none].getD n.val none ∧
    layerKind 5 n = [none, none, some .bitmap5, none].getD n.val none) ∧
  ∀ s : State, s.layerOrder.Nodup ∧
    (∀ n, n ∈ s.layerOrder ↔ s.display.dispcnt.getLsbD (8 + n.val) = true ∧
      layerKind (s.display.dispcnt.toNat % 8) n ≠ none) ∧
    s.layerOrder.Pairwise fun a b =>
      (s.bgs.bg b).cnt.toNat % 4 < (s.bgs.bg a).cnt.toNat % 4 ∨
        ((s.bgs.bg b).cnt.toNat % 4 = (s.bgs.bg a).cnt.toNat % 4 ∧ b < a)

/-- R340: the sample-and-hold counter of horizontal mosaic gives column `x` the sample of the first column of
its group of `BG_H + 1`; a layer without mosaic samples every column. -/
def Obligations.HorizontalMosaic : Prop :=
  ∀ (s : State) (n : Fin 4) (y : Nat) (kind : LayerKind),
    layerKind (dispMode s.display.dispcnt) n = some kind →
    s.bgRow n y = (List.range 240).mapM fun x => s.layerPixel kind n y
      (if (s.bgs.bg n).cnt.getLsbD 6 = true then x - x % (s.fx.mosaic.toNat % 16 + 1) else x)

/-- R320, R321, R322: the pixel of an affine layer. With `WRAP = 1` the layer repeats with the period of its
size: a reference point moved by whole sizes gives the same pixels; with `WRAP = 0` a texel outside the square is
`NONE`; and the texel `(tx, ty)` inside it, wrapped or as it is, takes its tile from the map and its palette
index from the tile, a fetch at or above 0x10000 giving `NONE` (R315). -/
def Obligations.AffineWrapsOrClips : Prop :=
  ∀ (s t : State) (n : AffineBg) (b : Fin 4) (x i j : Nat), b.val = (if n = .bg2 then 2 else 3) →
    let cnt := (s.bgs.bg b).cnt
    let size : Nat := 128 * 2 ^ (cnt.toNat / 2 ^ 14)
    let wrap := cnt.getLsbD 13
    let a := s.bgs.aff n
    let f := s.affinePoint n cnt x
    (wrap = true →
      t = { s with bgs := s.bgs.setAff n { a with
        refX := a.refX + BitVec.ofNat 28 (256 * size * i), refY := a.refY + BitVec.ofNat 28 (256 * size * j)
        mosRefX := a.mosRefX + BitVec.ofNat 28 (256 * size * i)
        mosRefY := a.mosRefY + BitVec.ofNat 28 (256 * size * j) } } →
      t.affinePixel b x = s.affinePixel b x) ∧
    (wrap = false → (f.1 < 0 ∨ 256 * size ≤ f.1 ∨ f.2 < 0 ∨ 256 * size ≤ f.2) → s.affinePixel b x = .ok none) ∧
    ∀ tx ty : Nat, tx < size → ty < size →
      (tx : Int) = (if wrap then f.1 / 256 % size else f.1 / 256) →
      (ty : Int) = (if wrap then f.2 / 256 % size else f.2 / 256) →
      let map := cnt.toNat / 256 % 32 * 0x800 + ty / 8 * (size / 8) + tx / 8
      (0x10000 ≤ map → s.affinePixel b x = .ok none) ∧
      (map < 0x10000 → ∀ tile, s.byte? .vram map = some tile →
        let texel := cnt.toNat / 4 % 4 * 0x4000 + tile.toNat * 64 + ty % 8 * 8 + tx % 8
        (0x10000 ≤ texel → s.affinePixel b x = .ok none) ∧
        (texel < 0x10000 → ∀ index, s.byte? .vram texel = some index →
          s.Indexed b index.toNat (2 * index.toNat) (s.affinePixel b x)))

/-- R315: no background of a tile mode depends on a byte of VRAM at or above 0x10000. -/
def Obligations.BackgroundFetchLimit : Prop :=
  ∀ (s : State) (v : Video) (n : Fin 4) (y : Nat), s.display.dispcnt.toNat % 8 ≤ 2 →
    (∀ m a, (m = .vram → a < 0x10000) → (v.mem m).read? a = s.byte? m a) →
    ({ s with video := v } : State).bgRow n y = s.bgRow n y

/-- R352, R355 to R358, R360, R361: the object line. At each column the objects that show a colour there are
placed in OAM order; over memories whose contents are known and without a prohibited object on the scanline
these are exactly the texels of R355 and R356, and with objects off there are none. The sprite priority resolver
(R357): of the opaque object pixels placed at a column, in OAM order, the one with the lowest priority value
shows, and among equals the first; an object-window pixel only marks the column. -/
def Obligations.ObjectPriority : Prop :=
  (∀ l : List (ObjAttr × Colour),
    let c := l.foldl (fun col p => p.1.placeCol p.2 col) ⟨none, false⟩
    (c.win = true ↔ ∃ p ∈ l, p.1.mode = 2) ∧
    (c.px = none ↔ ∀ p ∈ l, p.1.mode = 2) ∧
    ∀ q, c.px = some q → ∃ before p after, l = before ++ p :: after ∧ p.1.mode ≠ 2 ∧
      q = ⟨p.2, p.1.prio, .obj, decide (p.1.mode = 1)⟩ ∧
      (∀ o ∈ before, o.1.mode ≠ 2 → p.1.prio < o.1.prio) ∧ ∀ o ∈ after, o.1.mode ≠ 2 → p.1.prio ≤ o.1.prio) ∧
  ∀ (s : State) (y : Nat),
    (s.display.dispcnt.getLsbD 12 = false → s.objectLine y = .ok (List.replicate 240 ⟨none, false⟩)) ∧
    (s.display.dispcnt.getLsbD 12 = true → s.VideoKnown →
      (∀ i o, i < 128 → s.objAttr i = .ok o → ¬ o.Prohibited y) →
      ∃ drawn : Nat → Nat → Option (ObjAttr × Colour),
        (∀ i x o c, i < 128 → x < 240 → (drawn i x = some (o, c) ↔ s.objAttr i = .ok o ∧ s.Drawn o y x c)) ∧
        s.objectLine y = .ok ((List.range 240).map fun x =>
          ((List.range 128).filterMap fun i => drawn i x).foldl (fun col p => p.1.placeCol p.2 col) ⟨none, false⟩))

/-- R390, R391: the window mask of a column, by the priority window 0, window 1, object window, outside. -/
def Obligations.WindowMask : Prop :=
  ∀ (s : State) (x y : Nat) (objwin : Bool), x < 256 → y < 256 →
    let d := s.display.dispcnt
    let in0 := d.getLsbD 13 = true ∧ s.InsideWindow .win0 x y
    let in1 := d.getLsbD 14 = true ∧ s.InsideWindow .win1 x y
    let inObj := d.getLsbD 15 = true ∧ objwin = true
    let noWindow := d.getLsbD 13 = false ∧ d.getLsbD 14 = false ∧ d.getLsbD 15 = false
    (noWindow → s.windowMask x y objwin = 0b111111) ∧
    (in0 → s.windowMask x y objwin = s.win.winin.extractLsb' 0 6) ∧
    (¬ in0 → in1 → s.windowMask x y objwin = s.win.winin.extractLsb' 8 6) ∧
    (¬ in0 → ¬ in1 → inObj → s.windowMask x y objwin = s.win.winout.extractLsb' 8 6) ∧
    (¬ noWindow → ¬ in0 → ¬ in1 → ¬ inObj → s.windowMask x y objwin = s.win.winout.extractLsb' 0 6)

/-- R395: pushing the pixels of the layers back to front leaves the frontmost in `high` and the one behind it in
`low`, the backdrop and the empty pixel standing below them; a layer whose window bit is 0 is not pushed. R396:
the object pixel is then merged by its priority, if the column's window shows objects. -/
def Obligations.LayerStack : Prop :=
  (∀ (mask : BitVec 6) (obj : Option Px) (backdrop : Colour) (l : List (Fin 4 × Px)),
    let c := l.foldl (fun c p => c.push p.1 (some p.2)) (Col.init mask obj backdrop)
    ∃ below, ((l.filter fun p => mask.getLsbD p.1.val).map Prod.snd).reverse ++
        [⟨backdrop, 4, .bd, false⟩, ⟨0, 5, .empty, false⟩] = c.high :: c.low :: below) ∧
  ∀ (c : Col) (o : Px),
    (c.obj = none ∨ c.mask.getLsbD 4 = false → c.mergeObject = c) ∧
    (c.obj = some o → c.mask.getLsbD 4 = true →
      (o.prio ≤ c.high.prio → c.mergeObject = { c with high := o, low := c.high }) ∧
      (c.high.prio < o.prio → o.prio ≤ c.low.prio → c.mergeObject = { c with low := o }) ∧
      (c.high.prio < o.prio → c.low.prio < o.prio → c.mergeObject = c))

/-- R402 to R405: the three colour effects, channel by channel, and none of them overflows a channel. -/
def Obligations.EffectChannels : Prop :=
  ∀ (alpha bldy : Half) (top bot : Colour) (k : Nat), k < 3 →
    let eva := min 16 (alpha.toNat % 32)
    let evb := min 16 (alpha.toNat / 256 % 32)
    let evy := min 16 (bldy.toNat % 32)
    channel (blend alpha top bot) k = min 31 ((channel top k * eva + channel bot k * evb) / 16) ∧
    channel (lighten bldy top) k = channel top k + (31 - channel top k) * evy / 16 ∧
    channel (darken bldy top) k = channel top k - channel top k * evy / 16

/-- R400, R401: which colour effect a column takes. -/
def Obligations.ColourEffect : Prop :=
  ∀ (s : State) (c : Col),
    let t1 := c.high.src.InSet (s.fx.bldcnt.extractLsb' 0 6)
    let t2 := c.low.src.InSet (s.fx.bldcnt.extractLsb' 8 6)
    let semi := c.high.src = .obj ∧ c.high.semi = true ∧ t2
    let effect := s.fx.bldcnt.toNat / 64 % 4
    (c.mask.getLsbD 5 = false → s.colourEffect c = c.high.colour) ∧
    (c.mask.getLsbD 5 = true →
      (semi → s.colourEffect c = blend s.fx.bldalpha c.high.colour c.low.colour) ∧
      (¬ semi → ¬ t1 → s.colourEffect c = c.high.colour) ∧
      (¬ semi → t1 →
        (effect = 0 → s.colourEffect c = c.high.colour) ∧
        (effect = 1 → t2 → s.colourEffect c = blend s.fx.bldalpha c.high.colour c.low.colour) ∧
        (effect = 1 → ¬ t2 → s.colourEffect c = c.high.colour) ∧
        (effect = 2 → s.colourEffect c = lighten s.fx.bldy c.high.colour) ∧
        (effect = 3 → s.colourEffect c = darken s.fx.bldy c.high.colour)))

/-- R420, R422: the palette conversion. With colour correction on it is the open curve (assumption 4). -/
def Obligations.PaletteConversion : Prop :=
  ∀ (s : State) (c : Colour),
    (s.output.colorCorrection = false →
      s.toRgba c = ⟨BitVec.ofNat 8 (channel c 0 * 255 / 31), BitVec.ofNat 8 (channel c 1 * 255 / 31),
        BitVec.ofNat 8 (channel c 2 * 255 / 31), 255⟩ ∧
      s.toRgba 0x7FFF = ⟨255, 255, 255, 255⟩ ∧ s.toRgba 0x0000 = ⟨0, 0, 0, 255⟩ ∧
      s.toRgba 0x001F = ⟨255, 0, 0, 255⟩ ∧ s.toRgba 0x03E0 = ⟨0, 255, 0, 255⟩ ∧
      s.toRgba 0x7C00 = ⟨0, 0, 255, 255⟩ ∧
      (s.toRgba 1).r = 8 ∧ (s.toRgba 15).r = 123 ∧ (s.toRgba 16).r = 131 ∧ (s.toRgba 30).r = 246) ∧
    (s.output.colorCorrection = true → ∃ p, p = gammaCurve (BitVec.ofNat 5 (channel c 0))
        (BitVec.ofNat 5 (channel c 1)) (BitVec.ofNat 5 (channel c 2)) ∧
      s.toRgba c = ⟨p.1, p.2.1, p.2.2, 255⟩)

/-- R301, R310 to R312, R330 to R333: the pixel of a text layer, through its map entry and its tile, and of the
three bitmap layers; a text fetch at or above 0x10000 gives `NONE` (R315). The affine layer's is
`AffineWrapsOrClips`'. -/
def Obligations.LayerPixels : Prop :=
  (∀ (s : State) (n : Fin 4) (y x : Nat),
    let r := s.bgs.bg n
    let size := r.cnt.toNat / 2 ^ 14
    let mx := (x + r.hofs.toNat % 512) % (if size % 2 = 1 then 512 else 256)
    let my := ((if r.cnt.getLsbD 6 then s.mos.line.toNat else y) + r.vofs.toNat % 512) % (if 2 ≤ size then 512 else 256)
    let block := [0, mx / 256, my / 256, 2 * (my / 256) + mx / 256].getD size 0
    let entry := r.cnt.toNat / 256 % 32 * 0x800 + block * 0x800 + my % 256 / 8 * 64 + mx % 256 / 8 * 2
    (0x10000 ≤ entry → s.layerPixel .text n y x = .ok none) ∧
    (entry < 0x10000 → ∀ e, s.HalfAt .vram entry e → s.layerPixel .text n y x = s.tilePixel n e (mx % 8) (my % 8))) ∧
  (∀ (s : State) (n : Fin 4) (e : Half) (px py : Nat), px < 8 → py < 8 →
    let cnt := (s.bgs.bg n).cnt
    let tile := e.toNat % 1024
    let fx := if e.getLsbD 10 then 7 - px else px
    let fy := if e.getLsbD 11 then 7 - py else py
    let a := cnt.toNat / 4 % 4 * 0x4000 +
      if cnt.getLsbD 7 then tile * 64 + fy * 8 + fx else tile * 32 + fy * 4 + fx / 2
    (0x10000 ≤ a → s.tilePixel n e px py = .ok none) ∧
    (a < 0x10000 → ∀ b, s.byte? .vram a = some b →
      let i := if cnt.getLsbD 7 then b.toNat else if fx % 2 = 0 then b.toNat % 16 else b.toNat / 16
      s.Indexed n i (2 * if cnt.getLsbD 7 then i else 16 * (e.toNat / 4096) + i) (s.tilePixel n e px py))) ∧
  (∀ (s : State) (n : Fin 4) (y x : Nat), s.layerPixel .affine n y x = s.affinePixel n x) ∧
  ∀ (s : State) (y x : Nat),
    let f := s.affinePoint .bg2 s.bgs.bg2.cnt x
    let frame : Nat := if s.display.dispcnt.getLsbD 4 then 0xA000 else 0
    let clipped := fun (w h : Nat) => f.1 / 256 < 0 ∨ (w : Int) ≤ f.1 / 256 ∨ f.2 / 256 < 0 ∨ (h : Int) ≤ f.2 / 256
    let direct := fun kind a => ∀ h, s.HalfAt .vram a h → s.layerPixel kind 2 y x = .ok (some (s.layerPx 2 h))
    (clipped 240 160 → s.layerPixel .bitmap3 2 y x = .ok none ∧ s.layerPixel .bitmap4 2 y x = .ok none) ∧
    (clipped 160 128 → s.layerPixel .bitmap5 2 y x = .ok none) ∧
    ∀ tx ty : Nat, (tx : Int) = f.1 / 256 → (ty : Int) = f.2 / 256 →
      (tx < 240 → ty < 160 → direct .bitmap3 (2 * (240 * ty + tx))) ∧
      (tx < 240 → ty < 160 → ∀ index, s.byte? .vram (frame + 240 * ty + tx) = some index →
        s.Indexed 2 index.toNat (2 * index.toNat) (s.layerPixel .bitmap4 2 y x)) ∧
      (tx < 160 → ty < 128 → direct .bitmap5 (frame + 2 * (160 * ty + tx)))

/-- R350, R351, R353, R354: where an object's attributes lie and what their fields are, the sizes, the bounding
box, and the colour of a texel. -/
def Obligations.ObjectTexels : Prop :=
  (∀ (s : State) (i : Nat) (a0 a1 a2 : Half), s.HalfAt .oam (8 * i) a0 → s.HalfAt .oam (8 * i + 2) a1 →
    s.HalfAt .oam (8 * i + 4) a2 → s.objAttr i = .ok ⟨i, a0, a1, a2⟩) ∧
  (∀ o : ObjAttr, o.y = o.a0.toNat % 256 ∧ o.aff = o.a0.getLsbD 8 ∧ o.dbl = o.a0.getLsbD 9 ∧
    o.mode = o.a0.toNat / 1024 % 4 ∧ o.mos = o.a0.getLsbD 12 ∧ o.c8 = o.a0.getLsbD 13 ∧ o.shape = o.a0.toNat / 2 ^ 14 ∧
    o.x = (if o.a1.toNat % 512 < 256 then (o.a1.toNat % 512 : Int) else (o.a1.toNat % 512 : Int) - 512) ∧
    o.grp = o.a1.toNat / 512 % 32 ∧ o.hf = o.a1.getLsbD 12 ∧ o.vf = o.a1.getLsbD 13 ∧ o.size = o.a1.toNat / 2 ^ 14 ∧
    o.tile = o.a2.toNat % 1024 ∧ o.prio = o.a2.toNat / 1024 % 4 ∧ o.pal = o.a2.toNat / 4096 ∧
    o.box = let wh := objSize o.shape o.size
      if o.aff = true ∧ o.dbl = true then (2 * wh.1, 2 * wh.2) else wh) ∧
  ((List.range 4).map (objSize 0) = [(8, 8), (16, 16), (32, 32), (64, 64)] ∧
    (List.range 4).map (objSize 1) = [(16, 8), (32, 8), (32, 16), (64, 32)] ∧
    (List.range 4).map (objSize 2) = [(8, 16), (8, 32), (16, 32), (32, 64)]) ∧
  ∀ (s : State) (o : ObjAttr) (tx ty : Nat),
    let w := (objSize o.shape o.size).1
    let mode := s.display.dispcnt.toNat % 8
    let unit := if o.c8 then
        (if s.display.dispcnt.getLsbD 6 then o.tile else o.tile - o.tile % 2) +
          ty / 8 * (if s.display.dispcnt.getLsbD 6 then 2 * (w / 8) else 32) + 2 * (tx / 8)
      else o.tile + ty / 8 * (if s.display.dispcnt.getLsbD 6 then w / 8 else 32) + tx / 8
    let offset := (unit * 32 + if o.c8 then ty % 8 * 8 + tx % 8 else ty % 8 * 4 + tx % 8 / 2) % 0x8000
    let overlapped := 3 ≤ mode ∧ mode ≤ 5 ∧ unit * 32 % 0x8000 < 0x4000
    (overlapped → s.objTexel o tx ty = .ok none) ∧
    (¬ overlapped → ∀ b, s.byte? .vram (0x10000 + offset) = some b →
      let i := if o.c8 then b.toNat else if tx % 2 = 0 then b.toNat % 16 else b.toNat / 16
      (i = 0 → s.objTexel o tx ty = .ok none) ∧
      (i ≠ 0 → ∀ h, s.HalfAt .pram (0x200 + 2 * if o.c8 then i else 16 * o.pal + i) h →
        s.objTexel o tx ty = .ok (some (h.extractLsb' 0 15))))
end

