-- ==== Sys2Proof/Laws/State.lean ====
section
/-! SUPPORT. What each update of the state does to each field: one equation per field. -/

namespace Sys2Proof.Machine

/-! `State.put` -/

@[simp] theorem State.put_display (s : State) (o : PortOut) :
    (s.put o).display = s.display := rfl
@[simp] theorem State.put_bgs (s : State) (o : PortOut) :
    (s.put o).bgs = s.bgs := rfl
@[simp] theorem State.put_win (s : State) (o : PortOut) :
    (s.put o).win = s.win := rfl
@[simp] theorem State.put_fx (s : State) (o : PortOut) :
    (s.put o).fx = s.fx := rfl
@[simp] theorem State.put_irq (s : State) (o : PortOut) :
    (s.put o).irq = s.irq := rfl
@[simp] theorem State.put_mos (s : State) (o : PortOut) :
    (s.put o).mos = s.mos := rfl
@[simp] theorem State.put_output (s : State) (o : PortOut) :
    (s.put o).output = s.output := rfl
@[simp] theorem State.put_sched (s : State) (o : PortOut) :
    (s.put o).sched = s.sched := rfl
@[simp] theorem State.put_faults (s : State) (o : PortOut) :
    (s.put o).faults = s.faults := rfl
@[simp] theorem State.put_video (s : State) (o : PortOut) :
    (s.put o).video = s.video := rfl
@[simp] theorem State.put_ports (s : State) (o : PortOut) :
    (s.put o).ports = { s.ports with out := s.ports.out ++ [o] } := rfl

/-! `State.raise` -/

@[simp] theorem State.raise_display (s : State) (k : FaultKind) (op : FaultOp) :
    (s.raise k op).display = s.display := rfl
@[simp] theorem State.raise_bgs (s : State) (k : FaultKind) (op : FaultOp) :
    (s.raise k op).bgs = s.bgs := rfl
@[simp] theorem State.raise_win (s : State) (k : FaultKind) (op : FaultOp) :
    (s.raise k op).win = s.win := rfl
@[simp] theorem State.raise_fx (s : State) (k : FaultKind) (op : FaultOp) :
    (s.raise k op).fx = s.fx := rfl
@[simp] theorem State.raise_irq (s : State) (k : FaultKind) (op : FaultOp) :
    (s.raise k op).irq = s.irq := rfl
@[simp] theorem State.raise_mos (s : State) (k : FaultKind) (op : FaultOp) :
    (s.raise k op).mos = s.mos := rfl
@[simp] theorem State.raise_output (s : State) (k : FaultKind) (op : FaultOp) :
    (s.raise k op).output = s.output := rfl
@[simp] theorem State.raise_sched (s : State) (k : FaultKind) (op : FaultOp) :
    (s.raise k op).sched = s.sched := rfl
@[simp] theorem State.raise_faults (s : State) (k : FaultKind) (op : FaultOp) :
    (s.raise k op).faults = s.faults ++ [⟨k, op⟩] := rfl
@[simp] theorem State.raise_video (s : State) (k : FaultKind) (op : FaultOp) :
    (s.raise k op).video = s.video := rfl
@[simp] theorem State.raise_ports (s : State) (k : FaultKind) (op : FaultOp) :
    (s.raise k op).ports = s.ports := rfl

/-! `State.storeByte` -/

@[simp] theorem State.storeByte_display (s : State) (m : Config.VMem) (a : Nat) (b : Byte) :
    (s.storeByte m a b).display = s.display := rfl
@[simp] theorem State.storeByte_bgs (s : State) (m : Config.VMem) (a : Nat) (b : Byte) :
    (s.storeByte m a b).bgs = s.bgs := rfl
@[simp] theorem State.storeByte_win (s : State) (m : Config.VMem) (a : Nat) (b : Byte) :
    (s.storeByte m a b).win = s.win := rfl
@[simp] theorem State.storeByte_fx (s : State) (m : Config.VMem) (a : Nat) (b : Byte) :
    (s.storeByte m a b).fx = s.fx := rfl
@[simp] theorem State.storeByte_irq (s : State) (m : Config.VMem) (a : Nat) (b : Byte) :
    (s.storeByte m a b).irq = s.irq := rfl
@[simp] theorem State.storeByte_mos (s : State) (m : Config.VMem) (a : Nat) (b : Byte) :
    (s.storeByte m a b).mos = s.mos := rfl
@[simp] theorem State.storeByte_output (s : State) (m : Config.VMem) (a : Nat) (b : Byte) :
    (s.storeByte m a b).output = s.output := rfl
@[simp] theorem State.storeByte_sched (s : State) (m : Config.VMem) (a : Nat) (b : Byte) :
    (s.storeByte m a b).sched = s.sched := rfl
@[simp] theorem State.storeByte_faults (s : State) (m : Config.VMem) (a : Nat) (b : Byte) :
    (s.storeByte m a b).faults = s.faults := rfl
@[simp] theorem State.storeByte_video (s : State) (m : Config.VMem) (a : Nat) (b : Byte) :
    (s.storeByte m a b).video = s.video.store m a b := rfl
@[simp] theorem State.storeByte_ports (s : State) (m : Config.VMem) (a : Nat) (b : Byte) :
    (s.storeByte m a b).ports = s.ports := rfl

/-! `State.setVblank` -/

@[simp] theorem State.setVblank_display (s : State) (b : Bool) :
    (s.setVblank b).display = { s.display with dispstat := setBit s.display.dispstat 0 b } := rfl
@[simp] theorem State.setVblank_bgs (s : State) (b : Bool) :
    (s.setVblank b).bgs = s.bgs := rfl
@[simp] theorem State.setVblank_win (s : State) (b : Bool) :
    (s.setVblank b).win = s.win := rfl
@[simp] theorem State.setVblank_fx (s : State) (b : Bool) :
    (s.setVblank b).fx = s.fx := rfl
@[simp] theorem State.setVblank_irq (s : State) (b : Bool) :
    (s.setVblank b).irq = s.irq := rfl
@[simp] theorem State.setVblank_mos (s : State) (b : Bool) :
    (s.setVblank b).mos = s.mos := rfl
@[simp] theorem State.setVblank_output (s : State) (b : Bool) :
    (s.setVblank b).output = s.output := rfl
@[simp] theorem State.setVblank_sched (s : State) (b : Bool) :
    (s.setVblank b).sched = s.sched := rfl
@[simp] theorem State.setVblank_faults (s : State) (b : Bool) :
    (s.setVblank b).faults = s.faults := rfl
@[simp] theorem State.setVblank_video (s : State) (b : Bool) :
    (s.setVblank b).video = s.video := rfl
@[simp] theorem State.setVblank_ports (s : State) (b : Bool) :
    (s.setVblank b).ports = s.ports := rfl

/-! `State.setHblank` -/

@[simp] theorem State.setHblank_display (s : State) (b : Bool) :
    (s.setHblank b).display = { s.display with dispstat := setBit s.display.dispstat 1 b } := rfl
@[simp] theorem State.setHblank_bgs (s : State) (b : Bool) :
    (s.setHblank b).bgs = s.bgs := rfl
@[simp] theorem State.setHblank_win (s : State) (b : Bool) :
    (s.setHblank b).win = s.win := rfl
@[simp] theorem State.setHblank_fx (s : State) (b : Bool) :
    (s.setHblank b).fx = s.fx := rfl
@[simp] theorem State.setHblank_irq (s : State) (b : Bool) :
    (s.setHblank b).irq = s.irq := rfl
@[simp] theorem State.setHblank_mos (s : State) (b : Bool) :
    (s.setHblank b).mos = s.mos := rfl
@[simp] theorem State.setHblank_output (s : State) (b : Bool) :
    (s.setHblank b).output = s.output := rfl
@[simp] theorem State.setHblank_sched (s : State) (b : Bool) :
    (s.setHblank b).sched = s.sched := rfl
@[simp] theorem State.setHblank_faults (s : State) (b : Bool) :
    (s.setHblank b).faults = s.faults := rfl
@[simp] theorem State.setHblank_video (s : State) (b : Bool) :
    (s.setHblank b).video = s.video := rfl
@[simp] theorem State.setHblank_ports (s : State) (b : Bool) :
    (s.setHblank b).ports = s.ports := rfl

/-! `State.setMatch` -/

@[simp] theorem State.setMatch_display (s : State) (b : Bool) :
    (s.setMatch b).display = { s.display with dispstat := setBit s.display.dispstat 2 b } := rfl
@[simp] theorem State.setMatch_bgs (s : State) (b : Bool) :
    (s.setMatch b).bgs = s.bgs := rfl
@[simp] theorem State.setMatch_win (s : State) (b : Bool) :
    (s.setMatch b).win = s.win := rfl
@[simp] theorem State.setMatch_fx (s : State) (b : Bool) :
    (s.setMatch b).fx = s.fx := rfl
@[simp] theorem State.setMatch_irq (s : State) (b : Bool) :
    (s.setMatch b).irq = s.irq := rfl
@[simp] theorem State.setMatch_mos (s : State) (b : Bool) :
    (s.setMatch b).mos = s.mos := rfl
@[simp] theorem State.setMatch_output (s : State) (b : Bool) :
    (s.setMatch b).output = s.output := rfl
@[simp] theorem State.setMatch_sched (s : State) (b : Bool) :
    (s.setMatch b).sched = s.sched := rfl
@[simp] theorem State.setMatch_faults (s : State) (b : Bool) :
    (s.setMatch b).faults = s.faults := rfl
@[simp] theorem State.setMatch_video (s : State) (b : Bool) :
    (s.setMatch b).video = s.video := rfl
@[simp] theorem State.setMatch_ports (s : State) (b : Bool) :
    (s.setMatch b).ports = s.ports := rfl

/-! `State.setVcount` -/

@[simp] theorem State.setVcount_display (s : State) (y : Byte) :
    (s.setVcount y).display = { s.display with vcount := y } := rfl
@[simp] theorem State.setVcount_bgs (s : State) (y : Byte) :
    (s.setVcount y).bgs = s.bgs := rfl
@[simp] theorem State.setVcount_win (s : State) (y : Byte) :
    (s.setVcount y).win = s.win := rfl
@[simp] theorem State.setVcount_fx (s : State) (y : Byte) :
    (s.setVcount y).fx = s.fx := rfl
@[simp] theorem State.setVcount_irq (s : State) (y : Byte) :
    (s.setVcount y).irq = s.irq := rfl
@[simp] theorem State.setVcount_mos (s : State) (y : Byte) :
    (s.setVcount y).mos = s.mos := rfl
@[simp] theorem State.setVcount_output (s : State) (y : Byte) :
    (s.setVcount y).output = s.output := rfl
@[simp] theorem State.setVcount_sched (s : State) (y : Byte) :
    (s.setVcount y).sched = s.sched := rfl
@[simp] theorem State.setVcount_faults (s : State) (y : Byte) :
    (s.setVcount y).faults = s.faults := rfl
@[simp] theorem State.setVcount_video (s : State) (y : Byte) :
    (s.setVcount y).video = s.video := rfl
@[simp] theorem State.setVcount_ports (s : State) (y : Byte) :
    (s.setVcount y).ports = s.ports := rfl

/-! `State.flagInterrupt` -/

@[simp] theorem State.flagInterrupt_display (s : State) (k : Nat) :
    (s.flagInterrupt k).display = s.display := rfl
@[simp] theorem State.flagInterrupt_bgs (s : State) (k : Nat) :
    (s.flagInterrupt k).bgs = s.bgs := rfl
@[simp] theorem State.flagInterrupt_win (s : State) (k : Nat) :
    (s.flagInterrupt k).win = s.win := rfl
@[simp] theorem State.flagInterrupt_fx (s : State) (k : Nat) :
    (s.flagInterrupt k).fx = s.fx := rfl
@[simp] theorem State.flagInterrupt_irq (s : State) (k : Nat) :
    (s.flagInterrupt k).irq = { s.irq with iflag := s.irq.iflag ||| (1#16 <<< k) } := rfl
@[simp] theorem State.flagInterrupt_mos (s : State) (k : Nat) :
    (s.flagInterrupt k).mos = s.mos := rfl
@[simp] theorem State.flagInterrupt_output (s : State) (k : Nat) :
    (s.flagInterrupt k).output = s.output := rfl
@[simp] theorem State.flagInterrupt_sched (s : State) (k : Nat) :
    (s.flagInterrupt k).sched = s.sched := rfl
@[simp] theorem State.flagInterrupt_faults (s : State) (k : Nat) :
    (s.flagInterrupt k).faults = s.faults := rfl
@[simp] theorem State.flagInterrupt_video (s : State) (k : Nat) :
    (s.flagInterrupt k).video = s.video := rfl
@[simp] theorem State.flagInterrupt_ports (s : State) (k : Nat) :
    (s.flagInterrupt k).ports = s.ports := rfl

/-! `State.setTicks` -/

@[simp] theorem State.setTicks_display (s : State) (t : Int) :
    (s.setTicks t).display = s.display := rfl
@[simp] theorem State.setTicks_bgs (s : State) (t : Int) :
    (s.setTicks t).bgs = s.bgs := rfl
@[simp] theorem State.setTicks_win (s : State) (t : Int) :
    (s.setTicks t).win = s.win := rfl
@[simp] theorem State.setTicks_fx (s : State) (t : Int) :
    (s.setTicks t).fx = s.fx := rfl
@[simp] theorem State.setTicks_irq (s : State) (t : Int) :
    (s.setTicks t).irq = s.irq := rfl
@[simp] theorem State.setTicks_mos (s : State) (t : Int) :
    (s.setTicks t).mos = s.mos := rfl
@[simp] theorem State.setTicks_output (s : State) (t : Int) :
    (s.setTicks t).output = s.output := rfl
@[simp] theorem State.setTicks_sched (s : State) (t : Int) :
    (s.setTicks t).sched = { s.sched with ticks := t } := rfl
@[simp] theorem State.setTicks_faults (s : State) (t : Int) :
    (s.setTicks t).faults = s.faults := rfl
@[simp] theorem State.setTicks_video (s : State) (t : Int) :
    (s.setTicks t).video = s.video := rfl
@[simp] theorem State.setTicks_ports (s : State) (t : Int) :
    (s.setTicks t).ports = s.ports := rfl

/-! `State.setDraining` -/

@[simp] theorem State.setDraining_display (s : State) (b : Bool) :
    (s.setDraining b).display = s.display := rfl
@[simp] theorem State.setDraining_bgs (s : State) (b : Bool) :
    (s.setDraining b).bgs = s.bgs := rfl
@[simp] theorem State.setDraining_win (s : State) (b : Bool) :
    (s.setDraining b).win = s.win := rfl
@[simp] theorem State.setDraining_fx (s : State) (b : Bool) :
    (s.setDraining b).fx = s.fx := rfl
@[simp] theorem State.setDraining_irq (s : State) (b : Bool) :
    (s.setDraining b).irq = s.irq := rfl
@[simp] theorem State.setDraining_mos (s : State) (b : Bool) :
    (s.setDraining b).mos = s.mos := rfl
@[simp] theorem State.setDraining_output (s : State) (b : Bool) :
    (s.setDraining b).output = s.output := rfl
@[simp] theorem State.setDraining_sched (s : State) (b : Bool) :
    (s.setDraining b).sched = { s.sched with draining := b } := rfl
@[simp] theorem State.setDraining_faults (s : State) (b : Bool) :
    (s.setDraining b).faults = s.faults := rfl
@[simp] theorem State.setDraining_video (s : State) (b : Bool) :
    (s.setDraining b).video = s.video := rfl
@[simp] theorem State.setDraining_ports (s : State) (b : Bool) :
    (s.setDraining b).ports = s.ports := rfl

/-! `State.setQueue` -/

@[simp] theorem State.setQueue_display (s : State) (q : List Event) :
    (s.setQueue q).display = s.display := rfl
@[simp] theorem State.setQueue_bgs (s : State) (q : List Event) :
    (s.setQueue q).bgs = s.bgs := rfl
@[simp] theorem State.setQueue_win (s : State) (q : List Event) :
    (s.setQueue q).win = s.win := rfl
@[simp] theorem State.setQueue_fx (s : State) (q : List Event) :
    (s.setQueue q).fx = s.fx := rfl
@[simp] theorem State.setQueue_irq (s : State) (q : List Event) :
    (s.setQueue q).irq = s.irq := rfl
@[simp] theorem State.setQueue_mos (s : State) (q : List Event) :
    (s.setQueue q).mos = s.mos := rfl
@[simp] theorem State.setQueue_output (s : State) (q : List Event) :
    (s.setQueue q).output = s.output := rfl
@[simp] theorem State.setQueue_sched (s : State) (q : List Event) :
    (s.setQueue q).sched = { s.sched with queue := q } := rfl
@[simp] theorem State.setQueue_faults (s : State) (q : List Event) :
    (s.setQueue q).faults = s.faults := rfl
@[simp] theorem State.setQueue_video (s : State) (q : List Event) :
    (s.setQueue q).video = s.video := rfl
@[simp] theorem State.setQueue_ports (s : State) (q : List Event) :
    (s.setQueue q).ports = s.ports := rfl

/-! `State.setBackRow` -/

@[simp] theorem State.setBackRow_display (s : State) (y : Nat) (r : Row) :
    (s.setBackRow y r).display = s.display := rfl
@[simp] theorem State.setBackRow_bgs (s : State) (y : Nat) (r : Row) :
    (s.setBackRow y r).bgs = s.bgs := rfl
@[simp] theorem State.setBackRow_win (s : State) (y : Nat) (r : Row) :
    (s.setBackRow y r).win = s.win := rfl
@[simp] theorem State.setBackRow_fx (s : State) (y : Nat) (r : Row) :
    (s.setBackRow y r).fx = s.fx := rfl
@[simp] theorem State.setBackRow_irq (s : State) (y : Nat) (r : Row) :
    (s.setBackRow y r).irq = s.irq := rfl
@[simp] theorem State.setBackRow_mos (s : State) (y : Nat) (r : Row) :
    (s.setBackRow y r).mos = s.mos := rfl
@[simp] theorem State.setBackRow_output (s : State) (y : Nat) (r : Row) :
    (s.setBackRow y r).output = { s.output with back := s.output.back.set y r } := rfl
@[simp] theorem State.setBackRow_sched (s : State) (y : Nat) (r : Row) :
    (s.setBackRow y r).sched = s.sched := rfl
@[simp] theorem State.setBackRow_faults (s : State) (y : Nat) (r : Row) :
    (s.setBackRow y r).faults = s.faults := rfl
@[simp] theorem State.setBackRow_video (s : State) (y : Nat) (r : Row) :
    (s.setBackRow y r).video = s.video := rfl
@[simp] theorem State.setBackRow_ports (s : State) (y : Nat) (r : Row) :
    (s.setBackRow y r).ports = s.ports := rfl

/-! `State.affineAccumulate` -/

@[simp] theorem State.affineAccumulate_display (s : State) :
    (s.affineAccumulate).display = s.display := rfl
@[simp] theorem State.affineAccumulate_bgs (s : State) :
    (s.affineAccumulate).bgs = s.bgs.mapAff Affine.accumulate := rfl
@[simp] theorem State.affineAccumulate_win (s : State) :
    (s.affineAccumulate).win = s.win := rfl
@[simp] theorem State.affineAccumulate_fx (s : State) :
    (s.affineAccumulate).fx = s.fx := rfl
@[simp] theorem State.affineAccumulate_irq (s : State) :
    (s.affineAccumulate).irq = s.irq := rfl
@[simp] theorem State.affineAccumulate_mos (s : State) :
    (s.affineAccumulate).mos = s.mos := rfl
@[simp] theorem State.affineAccumulate_output (s : State) :
    (s.affineAccumulate).output = s.output := rfl
@[simp] theorem State.affineAccumulate_sched (s : State) :
    (s.affineAccumulate).sched = s.sched := rfl
@[simp] theorem State.affineAccumulate_faults (s : State) :
    (s.affineAccumulate).faults = s.faults := rfl
@[simp] theorem State.affineAccumulate_video (s : State) :
    (s.affineAccumulate).video = s.video := rfl
@[simp] theorem State.affineAccumulate_ports (s : State) :
    (s.affineAccumulate).ports = s.ports := rfl

/-! `State.mosaicLineEnd` -/

@[simp] theorem State.mosaicLineEnd_display (s : State) :
    (s.mosaicLineEnd).display = s.display := rfl
@[simp] theorem State.mosaicLineEnd_bgs (s : State) :
    (s.mosaicLineEnd).bgs = s.bgs := rfl
@[simp] theorem State.mosaicLineEnd_win (s : State) :
    (s.mosaicLineEnd).win = s.win := rfl
@[simp] theorem State.mosaicLineEnd_fx (s : State) :
    (s.mosaicLineEnd).fx = s.fx := rfl
@[simp] theorem State.mosaicLineEnd_irq (s : State) :
    (s.mosaicLineEnd).irq = s.irq := rfl
@[simp] theorem State.mosaicLineEnd_mos (s : State) :
    (s.mosaicLineEnd).mos = { s.mos with v := nextMosV s.mos.v (mosBgV s.fx.mosaic) } := rfl
@[simp] theorem State.mosaicLineEnd_output (s : State) :
    (s.mosaicLineEnd).output = s.output := rfl
@[simp] theorem State.mosaicLineEnd_sched (s : State) :
    (s.mosaicLineEnd).sched = s.sched := rfl
@[simp] theorem State.mosaicLineEnd_faults (s : State) :
    (s.mosaicLineEnd).faults = s.faults := rfl
@[simp] theorem State.mosaicLineEnd_video (s : State) :
    (s.mosaicLineEnd).video = s.video := rfl
@[simp] theorem State.mosaicLineEnd_ports (s : State) :
    (s.mosaicLineEnd).ports = s.ports := rfl

/-! `State.mosaicFrameStart` -/

@[simp] theorem State.mosaicFrameStart_display (s : State) :
    (s.mosaicFrameStart).display = s.display := rfl
@[simp] theorem State.mosaicFrameStart_bgs (s : State) :
    (s.mosaicFrameStart).bgs = s.bgs := rfl
@[simp] theorem State.mosaicFrameStart_win (s : State) :
    (s.mosaicFrameStart).win = s.win := rfl
@[simp] theorem State.mosaicFrameStart_fx (s : State) :
    (s.mosaicFrameStart).fx = s.fx := rfl
@[simp] theorem State.mosaicFrameStart_irq (s : State) :
    (s.mosaicFrameStart).irq = s.irq := rfl
@[simp] theorem State.mosaicFrameStart_mos (s : State) :
    (s.mosaicFrameStart).mos = { s.mos with v := 0 } := rfl
@[simp] theorem State.mosaicFrameStart_output (s : State) :
    (s.mosaicFrameStart).output = s.output := rfl
@[simp] theorem State.mosaicFrameStart_sched (s : State) :
    (s.mosaicFrameStart).sched = s.sched := rfl
@[simp] theorem State.mosaicFrameStart_faults (s : State) :
    (s.mosaicFrameStart).faults = s.faults := rfl
@[simp] theorem State.mosaicFrameStart_video (s : State) :
    (s.mosaicFrameStart).video = s.video := rfl
@[simp] theorem State.mosaicFrameStart_ports (s : State) :
    (s.mosaicFrameStart).ports = s.ports := rfl

/-! `State.begin` -/

@[simp] theorem State.begin_display (s : State) (rest : List OpWord) :
    (s.begin rest).display = s.display := rfl
@[simp] theorem State.begin_bgs (s : State) (rest : List OpWord) :
    (s.begin rest).bgs = s.bgs := rfl
@[simp] theorem State.begin_win (s : State) (rest : List OpWord) :
    (s.begin rest).win = s.win := rfl
@[simp] theorem State.begin_fx (s : State) (rest : List OpWord) :
    (s.begin rest).fx = s.fx := rfl
@[simp] theorem State.begin_irq (s : State) (rest : List OpWord) :
    (s.begin rest).irq = s.irq := rfl
@[simp] theorem State.begin_mos (s : State) (rest : List OpWord) :
    (s.begin rest).mos = s.mos := rfl
@[simp] theorem State.begin_output (s : State) (rest : List OpWord) :
    (s.begin rest).output = s.output := rfl
@[simp] theorem State.begin_sched (s : State) (rest : List OpWord) :
    (s.begin rest).sched = s.sched := rfl
@[simp] theorem State.begin_faults (s : State) (rest : List OpWord) :
    (s.begin rest).faults = s.faults := rfl
@[simp] theorem State.begin_video (s : State) (rest : List OpWord) :
    (s.begin rest).video = s.video := rfl
@[simp] theorem State.begin_ports (s : State) (rest : List OpWord) :
    (s.begin rest).ports = { s.ports with input := rest, out := [] } := rfl

/-! `State.flagInterruptIf` -/

@[simp] theorem State.flagInterruptIf_display (s : State) (en : Bool) (k : Nat) :
    (s.flagInterruptIf en k).display = s.display := by
  simp only [State.flagInterruptIf]; split_ifs <;> rfl
@[simp] theorem State.flagInterruptIf_bgs (s : State) (en : Bool) (k : Nat) :
    (s.flagInterruptIf en k).bgs = s.bgs := by
  simp only [State.flagInterruptIf]; split_ifs <;> rfl
@[simp] theorem State.flagInterruptIf_win (s : State) (en : Bool) (k : Nat) :
    (s.flagInterruptIf en k).win = s.win := by
  simp only [State.flagInterruptIf]; split_ifs <;> rfl
@[simp] theorem State.flagInterruptIf_fx (s : State) (en : Bool) (k : Nat) :
    (s.flagInterruptIf en k).fx = s.fx := by
  simp only [State.flagInterruptIf]; split_ifs <;> rfl
@[simp] theorem State.flagInterruptIf_mos (s : State) (en : Bool) (k : Nat) :
    (s.flagInterruptIf en k).mos = s.mos := by
  simp only [State.flagInterruptIf]; split_ifs <;> rfl
@[simp] theorem State.flagInterruptIf_output (s : State) (en : Bool) (k : Nat) :
    (s.flagInterruptIf en k).output = s.output := by
  simp only [State.flagInterruptIf]; split_ifs <;> rfl
@[simp] theorem State.flagInterruptIf_sched (s : State) (en : Bool) (k : Nat) :
    (s.flagInterruptIf en k).sched = s.sched := by
  simp only [State.flagInterruptIf]; split_ifs <;> rfl
@[simp] theorem State.flagInterruptIf_faults (s : State) (en : Bool) (k : Nat) :
    (s.flagInterruptIf en k).faults = s.faults := by
  simp only [State.flagInterruptIf]; split_ifs <;> rfl
@[simp] theorem State.flagInterruptIf_video (s : State) (en : Bool) (k : Nat) :
    (s.flagInterruptIf en k).video = s.video := by
  simp only [State.flagInterruptIf]; split_ifs <;> rfl
@[simp] theorem State.flagInterruptIf_ports (s : State) (en : Bool) (k : Nat) :
    (s.flagInterruptIf en k).ports = s.ports := by
  simp only [State.flagInterruptIf]; split_ifs <;> rfl

/-! `State.mosaicLineStart` -/

@[simp] theorem State.mosaicLineStart_display (s : State) (y : Nat) :
    (s.mosaicLineStart y).display = s.display := by
  simp only [State.mosaicLineStart]; split_ifs <;> rfl
@[simp] theorem State.mosaicLineStart_win (s : State) (y : Nat) :
    (s.mosaicLineStart y).win = s.win := by
  simp only [State.mosaicLineStart]; split_ifs <;> rfl
@[simp] theorem State.mosaicLineStart_fx (s : State) (y : Nat) :
    (s.mosaicLineStart y).fx = s.fx := by
  simp only [State.mosaicLineStart]; split_ifs <;> rfl
@[simp] theorem State.mosaicLineStart_irq (s : State) (y : Nat) :
    (s.mosaicLineStart y).irq = s.irq := by
  simp only [State.mosaicLineStart]; split_ifs <;> rfl
@[simp] theorem State.mosaicLineStart_output (s : State) (y : Nat) :
    (s.mosaicLineStart y).output = s.output := by
  simp only [State.mosaicLineStart]; split_ifs <;> rfl
@[simp] theorem State.mosaicLineStart_sched (s : State) (y : Nat) :
    (s.mosaicLineStart y).sched = s.sched := by
  simp only [State.mosaicLineStart]; split_ifs <;> rfl
@[simp] theorem State.mosaicLineStart_faults (s : State) (y : Nat) :
    (s.mosaicLineStart y).faults = s.faults := by
  simp only [State.mosaicLineStart]; split_ifs <;> rfl
@[simp] theorem State.mosaicLineStart_video (s : State) (y : Nat) :
    (s.mosaicLineStart y).video = s.video := by
  simp only [State.mosaicLineStart]; split_ifs <;> rfl
@[simp] theorem State.mosaicLineStart_ports (s : State) (y : Nat) :
    (s.mosaicLineStart y).ports = s.ports := by
  simp only [State.mosaicLineStart]; split_ifs <;> rfl

/-! `State.schedule` -/

@[simp] theorem State.schedule_display (s : State) (tag : Byte) (delay : Int) (op : FaultOp) :
    (s.schedule tag delay op).display = s.display := by
  simp only [State.schedule]; split_ifs <;> rfl
@[simp] theorem State.schedule_bgs (s : State) (tag : Byte) (delay : Int) (op : FaultOp) :
    (s.schedule tag delay op).bgs = s.bgs := by
  simp only [State.schedule]; split_ifs <;> rfl
@[simp] theorem State.schedule_win (s : State) (tag : Byte) (delay : Int) (op : FaultOp) :
    (s.schedule tag delay op).win = s.win := by
  simp only [State.schedule]; split_ifs <;> rfl
@[simp] theorem State.schedule_fx (s : State) (tag : Byte) (delay : Int) (op : FaultOp) :
    (s.schedule tag delay op).fx = s.fx := by
  simp only [State.schedule]; split_ifs <;> rfl
@[simp] theorem State.schedule_irq (s : State) (tag : Byte) (delay : Int) (op : FaultOp) :
    (s.schedule tag delay op).irq = s.irq := by
  simp only [State.schedule]; split_ifs <;> rfl
@[simp] theorem State.schedule_mos (s : State) (tag : Byte) (delay : Int) (op : FaultOp) :
    (s.schedule tag delay op).mos = s.mos := by
  simp only [State.schedule]; split_ifs <;> rfl
@[simp] theorem State.schedule_output (s : State) (tag : Byte) (delay : Int) (op : FaultOp) :
    (s.schedule tag delay op).output = s.output := by
  simp only [State.schedule]; split_ifs <;> rfl
@[simp] theorem State.schedule_video (s : State) (tag : Byte) (delay : Int) (op : FaultOp) :
    (s.schedule tag delay op).video = s.video := by
  simp only [State.schedule]; split_ifs <;> rfl
@[simp] theorem State.schedule_ports (s : State) (tag : Byte) (delay : Int) (op : FaultOp) :
    (s.schedule tag delay op).ports = s.ports := by
  simp only [State.schedule]; split_ifs <;> rfl

/-! `State.advance` -/

@[simp] theorem State.advance_display (s : State) (n : Int) (op : FaultOp) :
    (s.advance n op).display = s.display := by
  simp only [State.advance]; split_ifs <;> rfl
@[simp] theorem State.advance_bgs (s : State) (n : Int) (op : FaultOp) :
    (s.advance n op).bgs = s.bgs := by
  simp only [State.advance]; split_ifs <;> rfl
@[simp] theorem State.advance_win (s : State) (n : Int) (op : FaultOp) :
    (s.advance n op).win = s.win := by
  simp only [State.advance]; split_ifs <;> rfl
@[simp] theorem State.advance_fx (s : State) (n : Int) (op : FaultOp) :
    (s.advance n op).fx = s.fx := by
  simp only [State.advance]; split_ifs <;> rfl
@[simp] theorem State.advance_irq (s : State) (n : Int) (op : FaultOp) :
    (s.advance n op).irq = s.irq := by
  simp only [State.advance]; split_ifs <;> rfl
@[simp] theorem State.advance_mos (s : State) (n : Int) (op : FaultOp) :
    (s.advance n op).mos = s.mos := by
  simp only [State.advance]; split_ifs <;> rfl
@[simp] theorem State.advance_output (s : State) (n : Int) (op : FaultOp) :
    (s.advance n op).output = s.output := by
  simp only [State.advance]; split_ifs <;> rfl
@[simp] theorem State.advance_video (s : State) (n : Int) (op : FaultOp) :
    (s.advance n op).video = s.video := by
  simp only [State.advance]; split_ifs <;> rfl
@[simp] theorem State.advance_ports (s : State) (n : Int) (op : FaultOp) :
    (s.advance n op).ports = s.ports := by
  simp only [State.advance]; split_ifs <;> rfl

end Sys2Proof.Machine
end

