-- ==== Sys2Proof/Laws/Ops.lean ====
section
/-! SUPPORT. One law for each shared operation: everything it can do, so that no proof unfolds it. -/

namespace Sys2Proof.Machine

open Sys2Proof.Config

theorem stopped_eq_false {s : State} (h : s.faults = []) : s.stopped = false := by
  simp [State.stopped, h]

theorem stopped_eq_true {s : State} (h : s.faults ≠ []) : s.stopped = true := by
  simp [State.stopped, h]

theorem stopped_iff {s : State} : s.stopped = true ↔ s.faults ≠ [] := by
  simp [State.stopped]

theorem running_iff {s : State} : s.stopped = false ↔ s.faults = [] := by
  simp [State.stopped]

@[simp] theorem raise_stopped (s : State) (k : FaultKind) (op : FaultOp) : (s.raise k op).stopped = true := by
  simp [State.stopped]

@[simp] theorem put_stopped (s : State) (o : PortOut) : (s.put o).stopped = s.stopped := rfl

/-! ## `act`, `query`, `actReturning`, `busRead`, `proceed` -/

theorem act_running {s : State} (h : s.faults = []) (f : State → State) : s.act f = .next (f s) := by
  simp [State.act, stopped_eq_false h]

theorem act_stopped {s : State} (h : s.faults ≠ []) (f : State → State) : s.act f = .next s := by
  simp [State.act, stopped_eq_true h]

theorem act_next {s t : State} {f : State → State} (h : s.act f = .next t) :
    (s.faults = [] ∧ t = f s) ∨ (s.faults ≠ [] ∧ t = s) := by
  by_cases hs : s.faults = []
  · rw [act_running hs] at h; injection h with h; exact .inl ⟨hs, h.symm⟩
  · rw [act_stopped hs] at h; injection h with h; exact .inr ⟨hs, h.symm⟩

theorem query_running {s : State} (h : s.faults = []) (v z : PortOut) : s.query v z = .next (s.put v) := by
  simp [State.query, stopped_eq_false h]

theorem query_stopped {s : State} (h : s.faults ≠ []) (v z : PortOut) : s.query v z = .next (s.put z) := by
  simp [State.query, stopped_eq_true h]

theorem query_next {s t : State} {v z : PortOut} (h : s.query v z = .next t) : ∃ o, t = s.put o := by
  unfold State.query at h
  injection h with h
  exact ⟨_, h.symm⟩

theorem busRead_running {s : State} (h : s.faults = []) (b : Byte) :
    s.busRead b = .next (s.put (.rdata b)) := query_running h _ _

theorem busRead_stopped {s : State} (h : s.faults ≠ []) (b : Byte) :
    s.busRead b = .next (s.put (.rdata 0)) := query_stopped h _ _

theorem actReturning_running {s : State} (h : s.faults = []) (z : PortOut) (f : State → Step) :
    s.actReturning z f = f s := by
  simp [State.actReturning, stopped_eq_false h]

theorem actReturning_stopped {s : State} (h : s.faults ≠ []) (z : PortOut) (f : State → Step) :
    s.actReturning z f = .next (s.put z) := by
  simp [State.actReturning, stopped_eq_true h]

theorem proceed_running {s : State} (h : s.faults = []) (f : State → State) : s.proceed f = f s := by
  simp [State.proceed, stopped_eq_false h]

theorem proceed_stopped {s : State} (h : s.faults ≠ []) (f : State → State) : s.proceed f = s := by
  simp [State.proceed, stopped_eq_true h]

/-! ## Scheduling and the clock -/

/-- Everything `schedule` can do (R201): one of three faults, or one event more. -/
theorem schedule_cases (s : State) (tag : Byte) (delay : Int) (op : FaultOp) :
    (∃ k, s.schedule tag delay op = s.raise k op) ∨
    (0 ≤ delay ∧ s.sched.ticks + delay < tickLimit ∧ s.sched.full = false ∧
      s.schedule tag delay op = { s with sched := { s.sched with
        queue := insertEvent ⟨s.sched.ticks + delay, tag, s.sched.nextSeq⟩ s.sched.queue
        nextSeq := s.sched.nextSeq + 1 } }) := by
  unfold State.schedule
  dsimp only
  split_ifs with h1 h2 h3
  · exact .inl ⟨_, rfl⟩
  · exact .inl ⟨_, rfl⟩
  · exact .inl ⟨_, rfl⟩
  · exact .inr ⟨by omega, by omega, by simpa using h3, rfl⟩

@[simp] theorem State.schedule_ticks (s : State) (tag : Byte) (delay : Int) (op : FaultOp) :
    (s.schedule tag delay op).sched.ticks = s.sched.ticks := by
  rcases schedule_cases s tag delay op with ⟨k, hk⟩ | ⟨-, -, -, hk⟩ <;> rw [hk]
  rfl

theorem full_iff (q : Sched) : q.full = true ↔ q.capacity = some q.queue.length := by
  unfold Sched.full
  cases q.capacity <;> simp [eq_comm]

theorem isLcdTag_iff (tag : Byte) : isLcdTag tag = true ↔ tag = 0 ∨ tag = 1 := by
  simp [isLcdTag, tagHblankStart, tagHblankEnd]

/-- Everything the clock advance can do (R205): one of two faults, or a later clock. -/
theorem advance_cases (s : State) (n : Int) (op : FaultOp) :
    (∃ k, s.advance n op = s.raise k op) ∨
    (0 ≤ n ∧ s.sched.ticks + n < tickLimit ∧
      s.advance n op = { s with sched := { s.sched with ticks := s.sched.ticks + n } }) := by
  unfold State.advance
  split_ifs with h1 h2
  · exact .inl ⟨_, rfl⟩
  · exact .inl ⟨_, rfl⟩
  · exact .inr ⟨by omega, by omega, rfl⟩

/-! ## An operation's meaning -/

/-- Every operation but the internal ones, the drain, the halt skip and the advance does in a response what it
does on the port. -/
theorem exec_respond (s : State) (i : Instr) :
    exec i s = .next (s.respond i) ∨ i = .schedPop ∨ (∃ n, i = .schedAdvance n) ∨ i = .schedDrain ∨
      i = .schedHaltskip ∨ (∃ L, i = .eventHblankStart L) ∨ (∃ L, i = .eventHblankEnd L) ∨ ∃ y, i = .renderLine y := by
  cases i
  all_goals first
    | exact .inl rfl
    | simp

/-! ## The queue -/

theorem mem_insertEvent {e x : Event} {q : List Event} : x ∈ insertEvent e q ↔ x = e ∨ x ∈ q := by
  induction q with
  | nil => simp [insertEvent]
  | cons f rest ih =>
    simp only [insertEvent]
    split_ifs
    · simp only [List.mem_cons]
    · simp only [List.mem_cons, ih]; tauto

/-- As a multiset, the queue gains exactly the event. -/
theorem insertEvent_perm (e : Event) (q : List Event) : (insertEvent e q).Perm (e :: q) := by
  induction q with
  | nil => simp [insertEvent]
  | cons f rest ih =>
    simp only [insertEvent]
    split_ifs
    · exact .refl _
    · exact (ih.cons f).trans (.swap e f rest)

/-- A cancelled tag's event is the first that carries it. -/
theorem cancelTag_split {tag : Byte} {q : List Event} (h : ∃ e ∈ q, e.tag = tag) :
    ∃ e a b, q = a ++ e :: b ∧ e.tag = tag ∧ cancelTag tag q = a ++ b ∧ ∀ f ∈ a, f.tag ≠ tag := by
  induction q with
  | nil => simp at h
  | cons f r ih =>
    by_cases hf : f.tag = tag
    · exact ⟨f, [], r, rfl, hf, by simp [cancelTag, hf], by simp⟩
    · obtain ⟨e, a, b, h1, h2, h3, h4⟩ := ih (by simpa [hf] using h)
      exact ⟨e, f :: a, b, by simp [h1], h2, by simp [cancelTag, hf, h3], by simpa [hf] using h4⟩

theorem cancelTag_none {tag : Byte} {q : List Event} (h : ∀ e ∈ q, e.tag ≠ tag) : cancelTag tag q = q := by
  induction q with
  | nil => rfl
  | cons f r ih =>
    simp only [List.mem_cons, forall_eq_or_imp] at h
    simp [cancelTag, h.1, ih h.2]

theorem cancelTag_sublist (tag : Byte) (q : List Event) : (cancelTag tag q).Sublist q := by
  induction q with
  | nil => exact .slnil
  | cons f rest ih =>
    simp only [cancelTag]
    split_ifs
    · exact List.sublist_cons_self f rest
    · exact ih.cons_cons f

theorem notAfter_trans {a b c : Event} (h1 : a.NotAfter b) (h2 : b.NotAfter c) : a.NotAfter c := by
  unfold Event.NotAfter at *; omega

theorem insert_sorted (e : Event) {q : List Event} (h : q.Pairwise Event.NotAfter) :
    (insertEvent e q).Pairwise Event.NotAfter := by
  induction q with
  | nil => simp [insertEvent]
  | cons f rest ih =>
    obtain ⟨hf, hr⟩ := List.pairwise_cons.mp h
    simp only [insertEvent]
    split_ifs with hb
    · have hef : e.NotAfter f := by simp [Event.before] at hb; unfold Event.NotAfter; omega
      refine List.pairwise_cons.mpr ⟨fun x hx => ?_, h⟩
      rcases List.mem_cons.mp hx with rfl | hx
      · exact hef
      · exact notAfter_trans hef (hf x hx)
    · have hfe : f.NotAfter e := by simp [Event.before] at hb; unfold Event.NotAfter; omega
      refine List.pairwise_cons.mpr ⟨fun x hx => ?_, ih hr⟩
      rcases mem_insertEvent.mp hx with rfl | hx
      · exact hfe
      · exact hf x hx

end Sys2Proof.Machine
end

