-- ==== Sys2Proof/Laws/Render.lean ====
section
/-! SUPPORT. Laws of the renderer: every row it computes has 240 columns, and what a rendered line
changes. -/

namespace Sys2Proof.Machine

open Sys2Proof.Config

/-! ## Computations that may fault -/

theorem Fetch.bind_ok {α β : Type} {x : Fetch α} {f : α → Fetch β} {b : β} (h : (x >>= f) = .ok b) :
    ∃ a, x = .ok a ∧ f a = .ok b := by
  cases x with
  | error e => cases h
  | ok a => exact ⟨a, rfl, h⟩

theorem Fetch.mapM_length {α β : Type} {f : α → Fetch β} {l : List α} {r : List β}
    (h : l.mapM f = .ok r) : r.length = l.length := by
  induction l generalizing r with
  | nil => rw [List.mapM_nil] at h; cases h; rfl
  | cons a l ih =>
    rw [List.mapM_cons] at h
    obtain ⟨b, -, h⟩ := Fetch.bind_ok h
    obtain ⟨bs, hbs, h⟩ := Fetch.bind_ok h
    cases h
    simp [ih hbs]

/-- What every step of a fold keeps, the fold keeps. -/
theorem Fetch.foldlM_keeps {α β : Type} {P : β → Prop} {f : β → α → Fetch β} {l : List α} {b r : β}
    (hf : ∀ b a b', P b → f b a = .ok b' → P b') (hb : P b) (h : l.foldlM f b = .ok r) : P r := by
  induction l generalizing b with
  | nil => rw [List.foldlM_nil] at h; cases h; exact hb
  | cons a l ih =>
    rw [List.foldlM_cons] at h
    obtain ⟨b', hb', h⟩ := Fetch.bind_ok h
    exact ih (hf b a b' hb hb') h

/-! ## Lengths -/

@[simp] theorem columns_length : columns.length = screenW := by simp [columns]

theorem holdRow_length {size : Nat} {f : Nat → Fetch (Option Px)} {xs : List Nat} {h : Nat} {held : Option Px}
    {r : List (Option Px)} (hr : holdRow size f xs h held = .ok r) : r.length = xs.length := by
  induction xs generalizing h held r with
  | nil => cases hr; rfl
  | cons x xs ih =>
    unfold holdRow at hr
    obtain ⟨a, -, hr⟩ := Fetch.bind_ok hr
    obtain ⟨b, hb, hr⟩ := Fetch.bind_ok hr
    cases hr
    simp [ih hb]

theorem bgRow_length {s : State} {n : Fin 4} {y : Nat} {r : List (Option Px)} (h : s.bgRow n y = .ok r) :
    r.length = screenW := by
  unfold State.bgRow at h
  split at h
  · cases h; simp
  · dsimp only at h
    split_ifs at h
    · simpa using holdRow_length h
    · simpa using Fetch.mapM_length h

theorem drawCol_length {o : ObjAttr} {t : Fetch (Option Colour)} {ix : Nat} {line r : ObjLine}
    (h : o.drawCol t ix line = .ok r) : r.length = line.length := by
  unfold ObjAttr.drawCol at h
  dsimp only at h
  split_ifs at h
  · cases h; rfl
  · obtain ⟨c, -, h⟩ := Fetch.bind_ok h
    cases c <;> cases h <;> simp

theorem scanEnabled_length {s : State} {y : Nat} {line r : ObjLine} {o : ObjAttr}
    (h : s.scanEnabled y line o = .ok r) : r.length = line.length := by
  unfold State.scanEnabled at h
  dsimp only at h
  split_ifs at h
  · cases h; rfl
  · unfold State.drawAffine at h
    obtain ⟨m, -, h⟩ := Fetch.bind_ok h
    exact Fetch.foldlM_keeps (P := fun l => l.length = line.length)
      (fun b a b' hb hab => (drawCol_length hab).trans hb) rfl h
  · exact Fetch.foldlM_keeps (P := fun l => l.length = line.length)
      (fun b a b' hb hab => (drawCol_length hab).trans hb) rfl h

theorem scanObject_length {s : State} {y : Nat} {line r : ObjLine} {i : Nat}
    (h : s.scanObject y line i = .ok r) : r.length = line.length := by
  unfold State.scanObject at h
  obtain ⟨a0, -, h⟩ := Fetch.bind_ok h
  split_ifs at h
  · cases h; rfl
  · obtain ⟨o, -, h⟩ := Fetch.bind_ok h
    exact scanEnabled_length h

theorem objectLine_length {s : State} {y : Nat} {r : ObjLine} (h : s.objectLine y = .ok r) :
    r.length = screenW := by
  unfold State.objectLine at h
  split_ifs at h
  · exact Fetch.foldlM_keeps (P := fun l => l.length = screenW)
      (fun b a b' hb hab => (scanObject_length hab).trans hb) (by simp [emptyObjLine]) h
  · cases h; simp [emptyObjLine]

theorem lineColours_length {s : State} {y : Nat} {r : List Colour} (h : s.lineColours y = .ok r) :
    r.length = screenW := by
  unfold State.lineColours at h
  split_ifs at h
  · obtain ⟨objs, ho, h⟩ := Fetch.bind_ok h
    obtain ⟨bd, -, h⟩ := Fetch.bind_ok h
    obtain ⟨cols, hc, h⟩ := Fetch.bind_ok h
    cases h
    have : cols.length = screenW :=
      Fetch.foldlM_keeps (P := fun l => l.length = screenW)
        (fun b a b' hb hab => by
          unfold State.pushLayer at hab
          obtain ⟨row, hr, hab⟩ := Fetch.bind_ok hab
          cases hab
          simp [hb, bgRow_length hr])
        (by simp [State.initCols, objectLine_length ho]) hc
    simpa using this

/-- Every rendered row has 240 pixels. -/
theorem lineRow_length {s : State} {y : Nat} {r : Row} (h : s.lineRow y = .ok r) : r.length = screenW := by
  unfold State.lineRow at h
  split_ifs at h
  · cases h; simp
  · obtain ⟨cs, hc, h⟩ := Fetch.bind_ok h
    cases h
    simpa using lineColours_length hc

/-- Everything a rendered line can do (R300): a fault after the start of the line, or a new row of `back`
and the updates of the end of the line. -/
theorem renderLine_cases (s : State) (y : Nat) :
    (∃ k, s.renderLine y = (s.mosaicLineStart y).raise k (.renderLine y)) ∨
    (∃ row, row.length = screenW ∧
      s.renderLine y = (((s.mosaicLineStart y).setBackRow y row).affineAccumulate).mosaicLineEnd) := by
  unfold State.renderLine
  dsimp only
  split
  · exact .inl ⟨_, rfl⟩
  · next row h => exact .inr ⟨row, lineRow_length h, rfl⟩

end Sys2Proof.Machine
end

