-- ==== Sys2Proof/Laws/Keeps.lean ====
section
/-! SUPPORT. The induction every invariant goes through, packaged once: what the parts of an operation
keep, every step keeps. -/

namespace Sys2Proof.Machine

open Sys2Proof.Config

/-! ## Decoded operations are well formed -/

theorem bare_ok {i j : Instr} {tag : Byte} {arg : BitVec 48} (h : bare i tag arg = .ok j) :
    j = i ∧ tag = 0 ∧ arg = 0 := by
  unfold bare at h
  split_ifs at h with hc
  cases h
  exact ⟨rfl, hc⟩

theorem argOnly_ok {i j : Instr} {tag : Byte} (h : argOnly i tag = .ok j) : j = i ∧ tag = 0 := by
  unfold argOnly at h
  split_ifs at h with hc
  cases h
  exact ⟨rfl, hc⟩

theorem decode_irqFlag {w : OpWord} {k : BitVec 4} (h : decode w = .ok (.irqFlag k)) : k.toNat < 14 := by
  unfold decode at h
  dsimp only at h
  split at h
  · unfold decodeBus at h
    dsimp only at h
    split_ifs at h <;> split at h <;> try cases h
    all_goals next t _ => cases t <;> cases h
  · unfold decodeSched at h
    split at h <;> first
      | cases h
      | (have := (bare_ok h).1; cases this)
      | (have := (argOnly_ok h).1; cases this)
      | (split_ifs at h; cases h)
  · unfold decodeEvent at h
    split at h <;> first
      | cases h
      | (have := (argOnly_ok h).1; cases this)
  · unfold decodeIrq at h
    split at h
    · split_ifs at h with h1 h2
      cases h
      omega
    all_goals first
      | cases h
      | (have := (bare_ok h).1; cases this)
  · unfold decodeHost at h
    split at h <;> first
      | cases h
      | (have := (bare_ok h).1; cases this)
      | (split_ifs at h; cases h)
  · unfold decodeRender at h
    split at h
    · split_ifs at h; cases h
    · cases h
  · cases h

theorem decode_renderLine {w : OpWord} {y : Byte} (h : decode w = .ok (.renderLine y)) : y.toNat < screenH := by
  unfold decode at h
  dsimp only at h
  split at h
  · unfold decodeBus at h
    dsimp only at h
    split_ifs at h <;> split at h <;> try cases h
    all_goals next t _ => cases t <;> cases h
  · unfold decodeSched at h
    split at h <;> first
      | cases h
      | (have := (bare_ok h).1; cases this)
      | (have := (argOnly_ok h).1; cases this)
      | (split_ifs at h; cases h)
  · unfold decodeEvent at h
    split at h <;> first
      | cases h
      | (have := (argOnly_ok h).1; cases this)
  · unfold decodeIrq at h
    split at h
    · split_ifs at h; cases h
    all_goals first
      | cases h
      | (have := (bare_ok h).1; cases this)
  · unfold decodeHost at h
    split at h <;> first
      | cases h
      | (have := (bare_ok h).1; cases this)
      | (split_ifs at h; cases h)
  · unfold decodeRender at h
    split at h
    · split_ifs at h with h1 h2
      cases h
      omega
    · cases h
  · cases h

/-! ## The parts -/

/-- `P` is kept by every operation the environment may issue that fires no event. -/
structure KeptByOps (P : State → Prop) : Prop where
  ports : ∀ {s : State} (p : Ports), p.issuer = s.ports.issuer → P s → P { s with ports := p }
  raise : ∀ {s : State} (k : FaultKind) (op : FaultOp), s.Running → P s → P (s.raise k op)
  dispcnt : ∀ {s : State} (l : BitVec 1) (d : Byte), P s →
    P { s with display := { s.display with dispcnt := writeLane s.display.dispcnt 0xFFF7 l.toNat d } }
  dispstat : ∀ {s : State} (l : BitVec 1) (d : Byte), P s →
    P { s with display := { s.display with dispstat := writeLane s.display.dispstat 0xFF38 l.toNat d } }
  bgcnt : ∀ {s : State} (n : Fin 4) (l : BitVec 1) (d : Byte), P s →
    P { s with bgs := s.bgs.setBg n { s.bgs.bg n with cnt := writeLane (s.bgs.bg n).cnt 0xFFCF l.toNat d } }
  bgofs : ∀ {s : State} (n : Fin 4) (a : Scroll) (l : BitVec 1) (d : Byte), P s →
    P { s with bgs := s.bgs.setBg n ((s.bgs.bg n).setOfs a (writeLane ((s.bgs.bg n).ofs a) 0x01FF l.toNat d)) }
  bgp : ∀ {s : State} (n : AffineBg) (q : AffineParam) (l : BitVec 1) (d : Byte), P s →
    P { s with bgs := s.bgs.setAff n ((s.bgs.aff n).setParam q (writeLane ((s.bgs.aff n).param q) 0xFFFF l.toNat d)) }
  bgref : ∀ {s : State} (n : AffineBg) (a : Axis) (l : BitVec 2) (d : Byte), P s →
    P { s with bgs := s.bgs.setAff n ((s.bgs.aff n).setLatch a (writeLane ((s.bgs.aff n).latch a) 0x0FFFFFFF l.toNat d)) }
  winh : ∀ {s : State} (n : WindowId) (l : BitVec 1) (d : Byte), P s →
    P { s with win := s.win.setH n (writeLane (s.win.h n) 0xFFFF l.toNat d) }
  winv : ∀ {s : State} (n : WindowId) (l : BitVec 1) (d : Byte), P s →
    P { s with win := s.win.setV n (writeLane (s.win.v n) 0xFFFF l.toNat d) }
  winin : ∀ {s : State} (l : BitVec 1) (d : Byte), P s →
    P { s with win := { s.win with winin := writeLane s.win.winin 0x3F3F l.toNat d } }
  winout : ∀ {s : State} (l : BitVec 1) (d : Byte), P s →
    P { s with win := { s.win with winout := writeLane s.win.winout 0x3F3F l.toNat d } }
  mosaic : ∀ {s : State} (l : BitVec 1) (d : Byte), P s →
    P { s with fx := { s.fx with mosaic := writeLane s.fx.mosaic 0xFFFF l.toNat d } }
  bldcnt : ∀ {s : State} (l : BitVec 1) (d : Byte), P s →
    P { s with fx := { s.fx with bldcnt := writeLane s.fx.bldcnt 0x3FFF l.toNat d } }
  bldalpha : ∀ {s : State} (l : BitVec 1) (d : Byte), P s →
    P { s with fx := { s.fx with bldalpha := writeLane s.fx.bldalpha 0x1F1F l.toNat d } }
  bldy : ∀ {s : State} (l : BitVec 1) (d : Byte), P s →
    P { s with fx := { s.fx with bldy := writeLane s.fx.bldy 0x001F l.toNat d } }
  ie : ∀ {s : State} (l : BitVec 1) (d : Byte), P s →
    P { s with irq := { s.irq with ie := writeLane s.irq.ie 0x3FFF l.toNat d } }
  iflag : ∀ {s : State} (l : BitVec 1) (d : Byte), P s →
    P { s with irq := { s.irq with iflag := clearFlags s.irq.iflag l.toNat d } }
  ime : ∀ {s : State} (l : BitVec 1) (d : Byte), P s →
    P { s with irq := { s.irq with ime := writeLane s.irq.ime 0x0001 l.toNat d } }
  store : ∀ {s : State} (m : VMem) (a : Nat) (b : Byte), a < m.size → P s → P (s.storeByte m a b)
  schedule : ∀ {s : State} (tag : Byte) (d : Int) (op : FaultOp), isLcdTag tag = false → s.Running → P s →
    P (s.schedule tag d op)
  cancel : ∀ {s : State} (tag : Byte), isLcdTag tag = false → P s →
    P { s with sched := { s.sched with queue := cancelTag tag s.sched.queue } }
  flag : ∀ {s : State} (k : Nat), k < 14 → P s → P (s.flagInterrupt k)
  ready : ∀ {s : State}, P s → P { s with output := { s.output with frameReady := false } }
  setcc : ∀ {s : State} (b : Bool), P s → P { s with output := { s.output with colorCorrection := b } }

variable {P : State → Prop}

theorem KeptByOps.put (h : KeptByOps P) {s : State} (o : PortOut) (hs : P s) : P (s.put o) :=
  h.ports _ rfl hs

theorem act_keeps {s : State} {f : State → State} (h : ∀ s, s.Running → P s → P (f s))
    (hs : P s) : P (stateAfter s (s.act f)) := by
  by_cases hr : s.faults = []
  · rw [act_running hr]; exact h s hr hs
  · rw [act_stopped hr]; exact hs

theorem KeptByOps.busRead (h : KeptByOps P) {s : State} (b : Byte) (hs : P s) :
    P (stateAfter s (s.busRead b)) := h.put _ hs

theorem KeptByOps.query (h : KeptByOps P) {s : State} (v z : PortOut) (hs : P s) :
    P (stateAfter s (s.query v z)) := h.put _ hs

theorem KeptByOps.puts (h : KeptByOps P) {s : State} (l : List PortOut) (hs : P s) : P (l.foldl State.put s) := by
  induction l generalizing s with
  | nil => exact hs
  | cons o l ih => exact ih (h.put o hs)

theorem KeptByOps.refuse (h : KeptByOps P) {s : State} (z : List PortOut) (k : FaultKind) (i : Instr)
    (hs : P s) : P (s.refuseInResponse z k i) := by
  unfold State.refuseInResponse
  split_ifs with hr
  · exact h.puts z hs
  · exact h.raise _ _ (running_iff.mp (by simpa using hr)) hs

theorem KeptByOps.add (h : KeptByOps P) {s : State} (tag : Byte) (d : BitVec 48) (hs : P s) :
    P (stateAfter s (execSchedAdd tag d s)) := by
  refine act_keeps (fun s hr hs => ?_) hs
  dsimp only
  split_ifs with ht
  · exact h.raise _ _ hr hs
  · exact h.schedule _ _ _ (by simpa using ht) hr hs

theorem KeptByOps.del (h : KeptByOps P) {s : State} (tag : Byte) (hs : P s) :
    P (stateAfter s (execSchedCancel tag s)) := by
  refine act_keeps (fun s hr hs => ?_) hs
  dsimp only
  split_ifs with ht
  · exact h.raise _ _ hr hs
  · exact h.cancel _ (by simpa using ht) hs

theorem vramHi_lt (o : BitVec 15) : vramHiOffset o < VMem.vram.size := by
  have := o.isLt
  show 0x10000 + o.toNat < 98304
  omega

theorem vramLo_lt (o : BitVec 16) : o.toNat < VMem.vram.size := by
  have := o.isLt
  show o.toNat < 98304
  omega

/-- What the parts keep, one operation of a response keeps. -/
theorem KeptByOps.respond (h : KeptByOps P) {s : State} {i : Instr}
    (hk : ∀ k, i = .irqFlag k → k.toNat < 14) (hs : P s) : P (s.respond i) := by
  cases i with
  | wDispcnt lane data => exact act_keeps (fun _ _ => h.dispcnt lane data) hs
  | rDispcnt _ => exact h.busRead _ hs
  | wNoreg002 _ _ => exact act_keeps (fun _ _ => id) hs
  | rNoreg002 _ => exact h.busRead _ hs
  | wDispstat lane data => exact act_keeps (fun _ _ => h.dispstat lane data) hs
  | rDispstat _ => exact h.busRead _ hs
  | wVcount _ _ => exact act_keeps (fun _ _ => id) hs
  | rVcount _ => exact h.busRead _ hs
  | wBgcnt n lane data => exact act_keeps (fun _ _ => h.bgcnt n lane data) hs
  | rBgcnt _ _ => exact h.busRead _ hs
  | wBgofs n axis lane data => exact act_keeps (fun _ _ => h.bgofs n axis lane data) hs
  | rBgofs _ _ _ => exact h.busRead _ hs
  | wBgp n param lane data => exact act_keeps (fun _ _ => h.bgp n param lane data) hs
  | rBgp _ _ _ => exact h.busRead _ hs
  | wBgref n axis lane data => exact act_keeps (fun _ _ => h.bgref n axis lane data) hs
  | rBgref _ _ _ => exact h.busRead _ hs
  | wWinh n lane data => exact act_keeps (fun _ _ => h.winh n lane data) hs
  | rWinh _ _ => exact h.busRead _ hs
  | wWinv n lane data => exact act_keeps (fun _ _ => h.winv n lane data) hs
  | rWinv _ _ => exact h.busRead _ hs
  | wWinin lane data => exact act_keeps (fun _ _ => h.winin lane data) hs
  | rWinin _ => exact h.busRead _ hs
  | wWinout lane data => exact act_keeps (fun _ _ => h.winout lane data) hs
  | rWinout _ => exact h.busRead _ hs
  | wMosaic lane data => exact act_keeps (fun _ _ => h.mosaic lane data) hs
  | rMosaic _ => exact h.busRead _ hs
  | wNoreg04e _ _ => exact act_keeps (fun _ _ => id) hs
  | rNoreg04e _ => exact h.busRead _ hs
  | wBldcnt lane data => exact act_keeps (fun _ _ => h.bldcnt lane data) hs
  | rBldcnt _ => exact h.busRead _ hs
  | wBldalpha lane data => exact act_keeps (fun _ _ => h.bldalpha lane data) hs
  | rBldalpha _ => exact h.busRead _ hs
  | wBldy lane data => exact act_keeps (fun _ _ => h.bldy lane data) hs
  | rBldy _ => exact h.busRead _ hs
  | wNoreg056 _ _ => exact act_keeps (fun _ _ => id) hs
  | rNoreg056 _ => exact h.busRead _ hs
  | wNoreg058 _ _ => exact act_keeps (fun _ _ => id) hs
  | rNoreg058 _ => exact h.busRead _ hs
  | wIe lane data => exact act_keeps (fun _ _ => h.ie lane data) hs
  | rIe _ => exact h.busRead _ hs
  | wIf lane data => exact act_keeps (fun _ _ => h.iflag lane data) hs
  | rIf _ => exact h.busRead _ hs
  | wIme lane data => exact act_keeps (fun _ _ => h.ime lane data) hs
  | rIme _ => exact h.busRead _ hs
  | wNoreg20a _ _ => exact act_keeps (fun _ _ => id) hs
  | rNoreg20a _ => exact h.busRead _ hs
  | wPram o data => exact act_keeps (fun _ _ => h.store .pram _ data o.isLt) hs
  | rPram _ => exact h.busRead _ hs
  | wVramLo o data => exact act_keeps (fun _ _ => h.store .vram _ data (vramLo_lt o)) hs
  | rVramLo _ => exact h.busRead _ hs
  | wVramHi o data => exact act_keeps (fun _ _ => h.store .vram _ data (vramHi_lt o)) hs
  | rVramHi _ => exact h.busRead _ hs
  | wOam o data => exact act_keeps (fun _ _ => h.store .oam _ data o.isLt) hs
  | rOam _ => exact h.busRead _ hs
  | schedAdd tag delay => exact h.add tag delay hs
  | schedPop => exact h.refuse _ _ _ hs
  | schedCancel tag => exact h.del tag hs
  | schedAdvance _ => exact h.refuse _ _ _ hs
  | schedDrain => exact h.refuse _ _ _ hs
  | schedHaltskip => exact h.refuse _ _ _ hs
  | schedNext => exact h.query _ _ hs
  | schedNow => exact h.query _ _ hs
  | eventHblankStart _ => exact h.refuse _ _ _ hs
  | eventHblankEnd _ => exact h.refuse _ _ _ hs
  | irqFlag kind => exact act_keeps (fun _ _ => h.flag _ (hk kind rfl)) hs
  | irqLine => exact h.query _ _ hs
  | irqHaltexit => exact h.query _ _ hs
  | hostReadframe => exact h.query _ _ hs
  | hostClearready => exact act_keeps (fun _ _ => h.ready) hs
  | hostSetcc enable => exact act_keeps (fun _ _ => h.setcc _) hs
  | hostReady => exact h.query _ _ hs
  | hostFrames => exact h.query _ _ hs
  | renderLine _ => exact h.refuse _ _ _ hs

theorem KeptByOps.respondWord (h : KeptByOps P) {s : State} (w : OpWord) (hs : P s) : P (s.respondWord w) := by
  unfold State.respondWord
  split
  · next i hi => exact h.respond (fun k hk => decode_irqFlag (hk ▸ hi)) hs
  · exact h.ports _ rfl hs

theorem KeptByOps.respondAll (h : KeptByOps P) {s : State} (ws : List OpWord) (hs : P s) :
    P (ws.foldl State.respondWord s) := by
  induction ws generalizing s with
  | nil => exact hs
  | cons w ws ih => exact ih (h.respondWord w hs)

/-- A signal and the environment's whole response to it keep what the parts keep. -/
theorem KeptByOps.emit (h : KeptByOps P) {s : State} (g : Signal) (hs : P s) : P (s.emit g) := by
  have ht : P { s with ports := { s.ports with responses := s.ports.responses.tail } } := h.ports _ rfl hs
  exact h.respondAll _ (h.put _ ht)

/-! ## The events -/

/-- `P` is kept by every operation and every event of the block, an LCD event counted as one. -/
structure Kept (P : State → Prop) : Prop extends KeptByOps P where
  advance : ∀ {s : State} (n : Int) (op : FaultOp), s.Running → P s → P (s.advance n op)
  draining : ∀ {s : State} (b : Bool), P s → P (s.setDraining b)
  skip : ∀ {s : State} {e : Event} {rest : List Event}, s.sched.queue = e :: rest → s.sched.ticks < e.due →
    P s → P { s with sched := { s.sched with ticks := e.due } }
  pop : ∀ {s : State} {e : Event} {rest : List Event}, s.sched.queue = e :: rest → isLcdTag e.tag = false →
    P s → P (s.setQueue rest)
  hblankStart : ∀ {s : State} {e : Event} {rest : List Event}, s.Running → s.sched.queue = e :: rest →
    e.tag = tagHblankStart → e.due ≤ s.sched.ticks → P s →
    P ((s.setQueue rest).hblankStart (s.sched.ticks - e.due))
  hblankEnd : ∀ {s : State} {e : Event} {rest : List Event}, s.Running → s.sched.queue = e :: rest →
    e.tag = tagHblankEnd → e.due ≤ s.sched.ticks → P s →
    P ((s.setQueue rest).hblankEnd (s.sched.ticks - e.due))

/-- `P` is kept by every part of every operation and event, so also between the parts. -/
structure KeptByParts (P : State → Prop) : Prop extends KeptByOps P where
  advance : ∀ {s : State} (n : Int) (op : FaultOp), s.Running → P s → P (s.advance n op)
  draining : ∀ {s : State} (b : Bool), P s → P (s.setDraining b)
  skip : ∀ {s : State} {e : Event} {rest : List Event}, s.sched.queue = e :: rest → s.sched.ticks < e.due →
    P s → P { s with sched := { s.sched with ticks := e.due } }
  pop : ∀ {s : State} {e : Event} {rest : List Event}, s.sched.queue = e :: rest → P s → P (s.setQueue rest)
  lcdSchedule : ∀ {s : State} (tag : Byte) (d : Int) (op : FaultOp), s.Running → P s → P (s.schedule tag d op)
  lineStart : ∀ {s : State} (y : Nat), y < screenH → P s → P (s.mosaicLineStart y)
  row : ∀ {s : State} (y : Nat) (r : Row), r.length = screenW → P s → P (s.setBackRow y r)
  accumulate : ∀ {s : State}, P s → P s.affineAccumulate
  lineEnd : ∀ {s : State}, P s → P s.mosaicLineEnd
  frameStart : ∀ {s : State}, P s → P s.mosaicFrameStart
  setHblank : ∀ {s : State} (b : Bool), P s → P (s.setHblank b)
  setVblank : ∀ {s : State} (b : Bool), P s → P (s.setVblank b)
  setMatch : ∀ {s : State} (b : Bool), P s → P (s.setMatch b)
  vcount : ∀ {s : State}, P s → P (s.setVcount (nextLine s.display.vcount))
  reload : ∀ {s : State}, P s → P { s with bgs := s.bgs.mapAff Affine.reload }
  complete : ∀ {s : State}, P s → P { s with output := s.output.completeFrame }

theorem proceed_keeps {s : State} {f : State → State} (hf : ∀ s, s.Running → P s → P (f s)) (hs : P s) :
    P (s.proceed f) := by
  by_cases hr : s.faults = []
  · rw [proceed_running hr]; exact hf s hr hs
  · rw [proceed_stopped hr]; exact hs

/-- `P` is kept by the parts of the events and by the emission of a signal. -/
structure KeptByEvents (P : State → Prop) : Prop where
  put : ∀ {s : State} (o : PortOut), P s → P (s.put o)
  emit : ∀ {s : State} (g : Signal), P s → P (s.emit g)
  raise : ∀ {s : State} (k : FaultKind) (op : FaultOp), s.Running → P s → P (s.raise k op)
  flag : ∀ {s : State} (k : Nat), k < 14 → P s → P (s.flagInterrupt k)
  draining : ∀ {s : State} (b : Bool), P s → P (s.setDraining b)
  pop : ∀ {s : State} {e : Event} {rest : List Event}, s.sched.queue = e :: rest → P s → P (s.setQueue rest)
  lcdSchedule : ∀ {s : State} (tag : Byte) (d : Int) (op : FaultOp), s.Running → P s → P (s.schedule tag d op)
  lineStart : ∀ {s : State} (y : Nat), y < screenH → P s → P (s.mosaicLineStart y)
  row : ∀ {s : State} (y : Nat) (r : Row), r.length = screenW → P s → P (s.setBackRow y r)
  accumulate : ∀ {s : State}, P s → P s.affineAccumulate
  lineEnd : ∀ {s : State}, P s → P s.mosaicLineEnd
  frameStart : ∀ {s : State}, P s → P s.mosaicFrameStart
  setHblank : ∀ {s : State} (b : Bool), P s → P (s.setHblank b)
  setVblank : ∀ {s : State} (b : Bool), P s → P (s.setVblank b)
  setMatch : ∀ {s : State} (b : Bool), P s → P (s.setMatch b)
  vcount : ∀ {s : State}, P s → P (s.setVcount (nextLine s.display.vcount))
  reload : ∀ {s : State}, P s → P { s with bgs := s.bgs.mapAff Affine.reload }
  complete : ∀ {s : State}, P s → P { s with output := s.output.completeFrame }

theorem KeptByParts.events (h : KeptByParts P) : KeptByEvents P where
  put := h.put
  emit := h.emit
  raise := h.raise
  flag := h.flag
  draining := h.draining
  pop := h.pop
  lcdSchedule := h.lcdSchedule
  lineStart := h.lineStart
  row := h.row
  accumulate := h.accumulate
  lineEnd := h.lineEnd
  frameStart := h.frameStart
  setHblank := h.setHblank
  setVblank := h.setVblank
  setMatch := h.setMatch
  vcount := h.vcount
  reload := h.reload
  complete := h.complete

theorem KeptByEvents.renderLine (h : KeptByEvents P) {s : State} {y : Nat} (hy : y < screenH) (hr : s.Running)
    (hs : P s) : P (s.renderLine y) := by
  rcases renderLine_cases s y with ⟨k, hk⟩ | ⟨row, hrow, hk⟩ <;> rw [hk]
  · exact h.raise _ _ (by simpa [State.Running] using hr) (h.lineStart y hy hs)
  · exact h.lineEnd (h.accumulate (h.row y row hrow (h.lineStart y hy hs)))

theorem KeptByEvents.flagIf (h : KeptByEvents P) {s : State} (en : Bool) {k : Nat} (hk : k < 14) (hs : P s) :
    P (s.flagInterruptIf en k) := by
  unfold State.flagInterruptIf
  split_ifs
  · exact h.flag k hk hs
  · exact hs

theorem KeptByEvents.start (h : KeptByEvents P) {s : State} (L : Int) (hr : s.Running) (hs : P s) :
    P (s.hblankStart L) := by
  unfold State.hblankStart
  dsimp only
  refine proceed_keeps (fun s _ hs => ?_) ?_
  · refine proceed_keeps (fun s hr hs => h.lcdSchedule _ _ _ hr hs) ?_
    unfold State.dmaHblankIfVisible
    split_ifs
    · exact h.emit _ (h.flagIf _ (by decide) (h.setHblank _ hs))
    · exact h.flagIf _ (by decide) (h.setHblank _ hs)
  · unfold State.renderIfVisible
    split_ifs with hv
    · exact h.renderLine (by simpa [visible] using hv) hr hs
    · exact hs

theorem KeptByEvents.vblankEntry (h : KeptByEvents P) {s : State} (hs : P s) : P s.vblankEntry := by
  unfold State.vblankEntry
  dsimp only
  refine proceed_keeps (fun s _ hs => h.complete (h.flagIf _ (by decide) hs)) (h.emit _ ?_)
  exact h.reload (h.setVblank true hs)

theorem KeptByEvents.finish (h : KeptByEvents P) {s : State} (L : Int) (hs : P s) : P (s.hblankEnd L) := by
  unfold State.hblankEnd
  dsimp only
  have hc : P ((s.setHblank false).setVcount (nextLine (s.setHblank false).display.vcount)).vcountCompare :=
    h.flagIf _ (by decide) (h.setMatch _ (h.vcount (h.setHblank _ hs)))
  refine proceed_keeps (fun s hr hs => h.lcdSchedule _ _ _ ?_ ?_) ?_
  · split_ifs <;> exact hr
  · have h1 : P (if s.display.vcount = 227 then s.setVblank false else s) := by
      split_ifs
      · exact h.setVblank _ hs
      · exact hs
    split_ifs at h1 ⊢ <;> first | exact h.frameStart h1 | exact h1
  · split_ifs
    · exact h.vblankEntry hc
    · exact hc

theorem KeptByParts.kept (h : KeptByParts P) : Kept P :=
  { h with
    pop := fun hq _ hs => h.pop hq hs
    hblankStart := fun hr hq _ _ hs => h.events.start _ hr (h.pop hq hs)
    hblankEnd := fun _ hq _ _ hs => h.events.finish _ (h.pop hq hs) }

/-- `P` is kept when the first pending event, being due, leaves the queue and fires. -/
def KeptByFiring (P : State → Prop) : Prop :=
  ∀ {s : State} {e : Event} {rest : List Event}, s.Running → s.sched.queue = e :: rest → e.due ≤ s.sched.ticks →
    P s → P ((s.setQueue rest).dispatch e.tag (s.sched.ticks - e.due))

theorem KeptByEvents.fire (h : KeptByEvents P) : KeptByFiring P := by
  intro s e rest hr hq _ hs
  unfold State.dispatch
  split_ifs
  · exact h.start _ hr (h.pop hq hs)
  · exact h.finish _ (h.pop hq hs)
  · exact h.emit _ (h.pop hq hs)

theorem Kept.fire (h : Kept P) : KeptByFiring P := by
  intro s e rest hr hq hd hs
  unfold State.dispatch
  split_ifs with h0 h1
  · exact h.hblankStart hr hq h0 hd hs
  · exact h.hblankEnd hr hq h1 hd hs
  · exact h.emit _ (h.pop hq (by simpa [isLcdTag] using ⟨h0, h1⟩) hs)

theorem KeptByFiring.loop (h : KeptByFiring P) {s : State} (n : Nat) (hs : P s) : P (drainLoop n s) := by
  induction n generalizing s with
  | zero => exact hs
  | succ n ih =>
    unfold drainLoop
    split_ifs with hr
    · exact hs
    · split
      · exact hs
      · next e rest hq =>
        split_ifs with hd
        · exact ih (h (running_iff.mp (by simpa using hr)) hq hd hs)
        · exact hs

theorem KeptByFiring.drain (h : KeptByFiring P) (hd : ∀ {s : State} (b : Bool), P s → P (s.setDraining b))
    {s : State} (hs : P s) : P s.drain :=
  proceed_keeps (fun _ _ hs => hd _ hs) (h.loop _ (hd _ hs))

theorem KeptByFiring.fireOne (h : KeptByFiring P) (hd : ∀ {s : State} (b : Bool), P s → P (s.setDraining b))
    {s : State} {e : Event} {rest : List Event} (hr : s.Running) (hq : s.sched.queue = e :: rest)
    (hdue : e.due ≤ s.sched.ticks) (hs : P s) : P (s.fireOne e rest (s.sched.ticks - e.due)) :=
  proceed_keeps (fun _ _ hs => hd _ hs) (h (s := s.setDraining true) hr hq hdue (hd _ hs))

theorem KeptByFiring.skip (h : KeptByFiring P) (hd : ∀ {s : State} (b : Bool), P s → P (s.setDraining b))
    {s : State} {e : Event} {rest : List Event} (hr : s.Running) (hq : s.sched.queue = e :: rest)
    (hs : P (s.setTicks e.due)) : P ((s.setTicks e.due).fireOne e rest 0) := by
  have hf := h.fireOne hd (s := s.setTicks e.due) hr hq (Int.le_refl _) hs
  rwa [show (s.setTicks e.due).sched.ticks - e.due = 0 from Int.sub_self _] at hf

theorem KeptByFiring.haltskip (h : KeptByFiring P) (hd : ∀ {s : State} (b : Bool), P s → P (s.setDraining b))
    (hput : ∀ {s : State} (o : PortOut), P s → P (s.put o))
    (hraise : ∀ {s : State} (k : FaultKind) (op : FaultOp), s.Running → P s → P (s.raise k op))
    {s : State} (hskip : ∀ {e : Event} {rest : List Event}, s.sched.queue = e :: rest → s.sched.ticks < e.due →
      P { s with sched := { s.sched with ticks := e.due } })
    (hs : P s) : P (stateAfter s (execSchedHaltskip s)) := by
  by_cases hr : s.faults = []
  · unfold execSchedHaltskip
    rw [actReturning_running hr]
    split_ifs
    · exact hraise _ _ hr hs
    · exact hput _ hs
    · split
      · exact hs
      · next e rest hq =>
        split_ifs with hdue
        · exact proceed_keeps (fun _ _ hs => hput _ hs) (h.fireOne hd hr hq hdue hs)
        · exact proceed_keeps (fun _ _ hs => hput _ hs) (h.skip hd hr hq (hskip hq (by omega)))
  · unfold execSchedHaltskip
    rw [actReturning_stopped hr]
    exact hput _ hs

/-- An internal operation: its effect when the block issues it, `InternalOnly` when the environment does. -/
theorem internal_keeps {s : State} {j : Instr} {f : State → State}
    (hraise : s.Running → P (s.raiseInternalOnly j)) (hf : s.Running → s.ports.issuer = .internal → P (f s))
    (hs : P s) :
    P (stateAfter s (s.act fun s => match s.ports.issuer with
      | .environment => s.raiseInternalOnly j
      | .internal => f s)) := by
  by_cases hr : s.faults = []
  · rw [act_running hr]
    cases hp : s.ports.issuer with
    | environment => simpa only [stateAfter, hp] using hraise hr
    | internal => simpa only [stateAfter, hp] using hf hr hp
  · rw [act_stopped hr]; exact hs

theorem pop_keeps (hput : ∀ {s : State} (o : PortOut), P s → P (s.put o))
    (hraise : ∀ {s : State} (k : FaultKind) (op : FaultOp), s.Running → P s → P (s.raise k op)) {s : State}
    (hpop : ∀ {e : Event} {rest : List Event}, s.ports.issuer = .internal → s.sched.queue = e :: rest →
      P (s.setQueue rest))
    (hs : P s) : P (stateAfter s (execSchedPop s)) := by
  by_cases hr : s.faults = []
  · unfold execSchedPop
    rw [actReturning_running hr]
    cases hp : s.ports.issuer with
    | environment => exact hraise _ _ hr hs
    | internal =>
      show P s.popReturning
      unfold State.popReturning
      split
      · exact hraise _ _ hr hs
      · next e rest hq => exact hput _ (hpop hp hq)
  · unfold execSchedPop
    rw [actReturning_stopped hr]
    exact hput _ hs

/-- What the parts of the events keep and the operation's response keeps, the operation keeps; an advance and
a halt skip must not move the clock out of it. -/
theorem KeptByEvents.exec (h : KeptByEvents P) {s : State} {i : Instr} (hresp : P (s.respond i))
    (hadv : ∀ n, i = .schedAdvance n → s.Running → P (s.advance (argInt n) (.word (encode i))))
    (hskip : i = .schedHaltskip → ∀ {e : Event} {rest : List Event}, s.sched.queue = e :: rest →
      s.sched.ticks < e.due → P { s with sched := { s.sched with ticks := e.due } })
    (hy : ∀ y, i = .renderLine y → y.toNat < screenH) (hs : P s) : P (stateAfter s (exec i s)) := by
  rcases exec_respond s i with he | rfl | ⟨n, rfl⟩ | rfl | rfl | ⟨L, rfl⟩ | ⟨L, rfl⟩ | ⟨y, rfl⟩
  · rw [he]; exact hresp
  · exact pop_keeps h.put h.raise (fun _ hq => h.pop hq hs) hs
  · show P (stateAfter s (execSchedAdvance n s))
    unfold execSchedAdvance
    by_cases hr : s.faults = []
    · rw [act_running hr]
      dsimp only [stateAfter]
      split_ifs
      · exact h.raise _ _ hr hs
      · exact hadv n rfl hr
    · rw [act_stopped hr]; exact hs
  · refine act_keeps (f := fun s => if s.sched.draining then s.raise .drainReentry (.word (encode .schedDrain))
      else s.drain) (fun s hr hs => ?_) hs
    split_ifs
    · exact h.raise _ _ hr hs
    · exact KeptByFiring.drain h.fire h.draining hs
  · exact KeptByFiring.haltskip h.fire h.draining h.put h.raise (hskip rfl) hs
  · exact internal_keeps (f := fun s => s.hblankStart (argInt L)) (fun hr => h.raise _ _ hr hs)
      (fun hr _ => h.start _ hr hs) hs
  · exact internal_keeps (f := fun s => s.hblankEnd (argInt L)) (fun hr => h.raise _ _ hr hs)
      (fun _ _ => h.finish _ hs) hs
  · exact internal_keeps (f := fun s => s.renderLine y.toNat) (fun hr => h.raise _ _ hr hs)
      (fun hr _ => h.renderLine (hy y rfl) hr hs) hs

/-- What the parts and events keep, one operation keeps. An internal operation that the environment did
not issue is kept by its parts. -/
theorem Kept.exec (h : Kept P) {s : State} {i : Instr} (hi : s.ports.issuer = .environment ∨ KeptByParts P)
    (hk : ∀ k, i = .irqFlag k → k.toNat < 14) (hy : ∀ y, i = .renderLine y → y.toNat < screenH) (hs : P s) :
    P (stateAfter s (exec i s)) := by
  have parts : s.ports.issuer = .internal → KeptByParts P := fun hp => hi.resolve_left (by simp [hp])
  rcases exec_respond s i with he | rfl | ⟨n, rfl⟩ | rfl | rfl | ⟨L, rfl⟩ | ⟨L, rfl⟩ | ⟨y, rfl⟩
  · rw [he]; exact h.respond hk hs
  · exact pop_keeps h.put h.raise (fun hp hq => (parts hp).pop hq hs) hs
  · refine act_keeps (f := fun s => if s.sched.draining
      then s.raise (.callbackAdvance (argInt n)) (.word (encode (.schedAdvance n)))
      else s.advance (argInt n) (.word (encode (.schedAdvance n)))) (fun s hr hs => ?_) hs
    split_ifs
    · exact h.raise _ _ hr hs
    · exact h.advance _ _ hr hs
  · refine act_keeps (f := fun s => if s.sched.draining then s.raise .drainReentry (.word (encode .schedDrain))
      else s.drain) (fun s hr hs => ?_) hs
    split_ifs
    · exact h.raise _ _ hr hs
    · exact KeptByFiring.drain h.fire h.draining hs
  · exact KeptByFiring.haltskip h.fire h.draining h.put h.raise (fun hq hd => h.skip hq hd hs) hs
  · exact internal_keeps (f := fun s => s.hblankStart (argInt L)) (fun hr => h.raise _ _ hr hs)
      (fun hr hp => (parts hp).events.start _ hr hs) hs
  · exact internal_keeps (f := fun s => s.hblankEnd (argInt L)) (fun hr => h.raise _ _ hr hs)
      (fun _ hp => (parts hp).events.finish _ hs) hs
  · exact internal_keeps (f := fun s => s.renderLine y.toNat) (fun hr => h.raise _ _ hr hs)
      (fun hr hp => (parts hp).events.renderLine (hy y rfl) hr hs) hs

/-- What the parts and events keep, every step keeps. -/
theorem Kept.step (h : Kept P) {s t : State} (hi : s.ports.issuer = .environment ∨ KeptByParts P) (hs : P s)
    (ht : step s = .next t) : P t := by
  unfold Machine.step at ht
  split at ht
  · injection ht with ht; subst ht; exact h.ports _ rfl hs
  · next w rest hw =>
    split at ht
    · next i hd =>
      have hb : P (s.begin rest) := h.ports _ rfl hs
      have := h.exec (s := s.begin rest) (i := i) hi (fun k hk => decode_irqFlag (hk ▸ hd))
        (fun y hy => decode_renderLine (hy ▸ hd)) hb
      rw [ht] at this
      exact this
    · cases ht

/-- No operation and no event changes who issues operations. -/
theorem issuer_kept (v : Issuer) : KeptByParts fun s => s.ports.issuer = v := by
  constructor
  constructor
  all_goals intros
  all_goals first | assumption | simp_all

end Sys2Proof.Machine
end

