-- ==== Sys2Proof/Laws/Drain.lean ====
section
/-! SUPPORT. The drain: how many events it can fire, so that the loop's fuel is never what ends it. -/

namespace Sys2Proof.Machine

open Sys2Proof.Config

/-! ## What a response does to the scheduler and to the responses that are left -/

theorem stateAfter_act_eq {α : Type} {s : State} {f : State → State} (g : State → α) (h : ∀ s, g (f s) = g s) :
    g (stateAfter s (s.act f)) = g s := by
  unfold State.act stateAfter
  dsimp only
  split_ifs
  · rfl
  · exact h s

theorem respond_sched (s : State) (i : Instr) (h1 : ∀ t d, i ≠ .schedAdd t d) (h2 : ∀ t, i ≠ .schedCancel t) :
    (s.respond i).sched = s.sched := by
  cases i
  case schedAdd t d => exact absurd rfl (h1 t d)
  case schedCancel t => exact absurd rfl (h2 t)
  all_goals first
    | exact stateAfter_act_eq (fun s => s.sched) (fun _ => rfl)
    | rfl
    | (unfold State.respond State.refuseInResponse; split_ifs <;> rfl)

theorem respond_irq (s : State) (i : Instr) (h1 : ∀ l d, i ≠ .wIe l d) (h2 : ∀ l d, i ≠ .wIf l d)
    (h3 : ∀ l d, i ≠ .wIme l d) (h4 : ∀ k, i ≠ .irqFlag k) : (s.respond i).irq = s.irq := by
  cases i
  case wIe l d => exact absurd rfl (h1 l d)
  case wIf l d => exact absurd rfl (h2 l d)
  case wIme l d => exact absurd rfl (h3 l d)
  case irqFlag k => exact absurd rfl (h4 k)
  case schedAdd t d =>
    refine stateAfter_act_eq (fun s => s.irq) fun s => ?_
    dsimp only
    split_ifs
    · rfl
    · rw [State.schedule_irq]
  case schedCancel t =>
    refine stateAfter_act_eq (fun s => s.irq) fun s => ?_
    dsimp only
    split_ifs <;> rfl
  all_goals first
    | exact stateAfter_act_eq (fun s => s.irq) (fun _ => rfl)
    | rfl
    | (unfold State.respond State.refuseInResponse; split_ifs <;> rfl)

theorem respond_responses (s : State) (i : Instr) : (s.respond i).ports.responses = s.ports.responses := by
  cases i
  case schedAdd t d =>
    refine stateAfter_act_eq (fun s => s.ports.responses) fun s => ?_
    dsimp only
    split_ifs
    · rfl
    · rw [State.schedule_ports]
  case schedCancel t =>
    refine stateAfter_act_eq (fun s => s.ports.responses) fun s => ?_
    dsimp only
    split_ifs <;> rfl
  all_goals first
    | exact stateAfter_act_eq (fun s => s.ports.responses) (fun _ => rfl)
    | rfl
    | (unfold State.respond State.refuseInResponse; split_ifs <;> rfl)

theorem respondWord_responses (s : State) (w : OpWord) : (s.respondWord w).ports.responses = s.ports.responses := by
  unfold State.respondWord
  split
  · exact respond_responses _ _
  · rfl

theorem respondAll_responses (ws : List OpWord) (s : State) :
    (ws.foldl State.respondWord s).ports.responses = s.ports.responses := by
  induction ws generalizing s with
  | nil => rfl
  | cons w ws ih => exact (ih _).trans (respondWord_responses s w)

/-! ## How many events are left to fire -/

/-- How many events a drain at tick `T` fires for a pending event: none if it is not due, two if it is an
LCD event whose successor can be due as well. -/
def weight (T : Int) (e : Event) : Nat :=
  if T < e.due then 0 else if isLcdTag e.tag && decide (e.due < T) then 2 else 1

/-- The weights of the pending events. -/
def weights (c : Sched) : Nat := (c.queue.map (weight c.ticks)).sum

/-- The words of the responses that are left: each can add one event. -/
def wordsLeft (s : State) : Nat := (s.ports.responses.map List.length).sum

/-- A bound on the events a drain can still fire. -/
def toFire (s : State) : Nat := weights s.sched + wordsLeft s

theorem weight_le_two (T : Int) (e : Event) : weight T e ≤ 2 := by
  unfold weight
  split_ifs <;> omega

theorem weight_other {T : Int} {e : Event} (h : isLcdTag e.tag = false) : weight T e ≤ 1 := by
  unfold weight
  simp only [h, Bool.false_and]
  split_ifs <;> simp_all

theorem weights_insert (T : Int) (e : Event) (q : List Event) :
    ((insertEvent e q).map (weight T)).sum = weight T e + (q.map (weight T)).sum := by
  simpa using ((insertEvent_perm e q).map (weight T)).sum_eq

theorem weights_cancel (T : Int) (tag : Byte) (q : List Event) :
    ((cancelTag tag q).map (weight T)).sum ≤ (q.map (weight T)).sum := by
  induction q with
  | nil => simp [cancelTag]
  | cons f r ih =>
    simp only [cancelTag]
    split_ifs
    · simp
    · simpa using ih

/-- An LCD event's successor is due in the same drain only if the event was late, and then on time. -/
theorem weight_successor {T d L : Int} {tag : Byte} {n : BitVec 64} (h : 0 ≤ d - L) (hd : 0 < d) :
    weight T ⟨T + (d - L), tag, n⟩ ≤ if L = 0 then 0 else 1 := by
  have h1 : ¬ T + (d - L) < T := by omega
  unfold weight
  simp only [h1, decide_false, Bool.and_false, Bool.false_eq_true, if_false]
  by_cases h2 : T < T + (d - L)
  · simp [h2]
  · rw [if_neg h2, if_neg (by omega)]

theorem schedule_weights {s : State} {tag : Byte} {d : Int} {op : FaultOp} {n : Nat}
    (h : 0 ≤ d → weight s.sched.ticks ⟨s.sched.ticks + d, tag, s.sched.nextSeq⟩ ≤ n) :
    weights (s.schedule tag d op).sched ≤ weights s.sched + n ∧
      (s.schedule tag d op).sched.ticks = s.sched.ticks := by
  rcases schedule_cases s tag d op with ⟨k, hk⟩ | ⟨ha, hb, -, hk⟩ <;> rw [hk]
  · exact ⟨Nat.le_add_right _ _, rfl⟩
  · refine ⟨?_, rfl⟩
    unfold weights
    dsimp only
    rw [weights_insert]
    have := h ha
    omega

theorem respond_weights (s : State) (i : Instr) :
    weights (s.respond i).sched ≤ weights s.sched + 1 ∧ (s.respond i).sched.ticks = s.sched.ticks := by
  cases i
  case schedAdd t d =>
    unfold State.respond execSchedAdd State.act stateAfter
    dsimp only
    split_ifs with h1 h2
    · exact ⟨by omega, rfl⟩
    · exact ⟨Nat.le_succ _, rfl⟩
    · exact schedule_weights fun _ => weight_other (by simpa using h2)
  case schedCancel t =>
    unfold State.respond execSchedCancel State.act stateAfter
    dsimp only
    split_ifs with h1 h2
    · exact ⟨by omega, rfl⟩
    · exact ⟨Nat.le_succ _, rfl⟩
    · exact ⟨(weights_cancel _ _ _).trans (Nat.le_succ _), rfl⟩
  all_goals rw [respond_sched _ _ (by simp) (by simp)]; exact ⟨by omega, rfl⟩

theorem respondWord_weights (s : State) (w : OpWord) :
    weights (s.respondWord w).sched ≤ weights s.sched + 1 ∧ (s.respondWord w).sched.ticks = s.sched.ticks := by
  unfold State.respondWord
  split
  · exact respond_weights _ _
  · exact ⟨Nat.le_succ _, rfl⟩

theorem respondAll_weights (ws : List OpWord) (s : State) :
    weights (ws.foldl State.respondWord s).sched ≤ weights s.sched + ws.length ∧
      (ws.foldl State.respondWord s).sched.ticks = s.sched.ticks := by
  induction ws generalizing s with
  | nil => exact ⟨by simp, rfl⟩
  | cons w ws ih =>
    have h1 := respondWord_weights s w
    have h2 := ih (s.respondWord w)
    simp only [List.foldl_cons, List.length_cons]
    exact ⟨by omega, h2.2.trans h1.2⟩

/-- A response adds no event to fire that its words did not already count for, and the clock stands. -/
theorem emit_toFire (s : State) (g : Signal) :
    toFire (s.emit g) ≤ toFire s ∧ (s.emit g).sched.ticks = s.sched.ticks := by
  unfold State.emit State.nextResponse
  dsimp only
  have h := respondAll_weights (s.ports.responses.headD [])
    (({ s with ports := { s.ports with responses := s.ports.responses.tail } } : State).put (.signal g))
  have hr := respondAll_responses (s.ports.responses.headD [])
    (({ s with ports := { s.ports with responses := s.ports.responses.tail } } : State).put (.signal g))
  refine ⟨?_, h.2⟩
  unfold toFire wordsLeft
  rw [hr]
  have h1 := h.1
  dsimp only [State.put] at h1 ⊢
  cases hp : s.ports.responses with
  | nil => simp only [hp, List.headD_nil, List.length_nil, List.tail_nil] at h1 ⊢; omega
  | cons r rest =>
    simp only [hp, List.headD_cons, List.tail_cons, List.map_cons, List.sum_cons] at h1 ⊢
    omega

/-- `P` holds of a state with at most `n` events left to fire at tick `T`. -/
def FiresAtMost (T : Int) (n : Nat) (s : State) : Prop := s.sched.ticks = T ∧ toFire s ≤ n

theorem FiresAtMost.emit {T : Int} {n : Nat} {s : State} (h : FiresAtMost T n s) (g : Signal) :
    FiresAtMost T n (s.emit g) :=
  ⟨(emit_toFire s g).2.trans h.1, (emit_toFire s g).1.trans h.2⟩

theorem FiresAtMost.congr {T : Int} {n : Nat} {s t : State} (h : FiresAtMost T n s) (hs : t.sched = s.sched)
    (hp : t.ports = s.ports) : FiresAtMost T n t := by
  unfold FiresAtMost toFire wordsLeft at *
  rw [hs, hp]
  exact h

theorem FiresAtMost.schedule {T : Int} {n k : Nat} {s : State} {tag : Byte} {d : Int} {op : FaultOp}
    (h : FiresAtMost T n s) (hw : 0 ≤ d → weight T ⟨T + d, tag, s.sched.nextSeq⟩ ≤ k) :
    FiresAtMost T (n + k) (s.schedule tag d op) := by
  have := schedule_weights (s := s) (tag := tag) (d := d) (op := op) (n := k) (by rw [h.1]; exact hw)
  refine ⟨this.2.trans h.1, ?_⟩
  have h2 := h.2
  unfold toFire wordsLeft at *
  rw [State.schedule_ports]
  omega

theorem FiresAtMost.proceed {T : Int} {n m : Nat} {s : State} {f : State → State} (hnm : n ≤ m)
    (h : FiresAtMost T n s) (hf : ∀ s, FiresAtMost T n s → FiresAtMost T m (f s)) :
    FiresAtMost T m (s.proceed f) := by
  unfold State.proceed
  split_ifs
  · exact ⟨h.1, h.2.trans hnm⟩
  · exact hf s h

theorem FiresAtMost.renderLine {T : Int} {n : Nat} {s : State} (h : FiresAtMost T n s) (y : Nat) :
    FiresAtMost T n (s.renderLine y) := by
  rcases renderLine_cases s y with ⟨k, hk⟩ | ⟨row, hr, hk⟩ <;> rw [hk]
  · exact h.congr (by simp) (by simp)
  · exact h.congr (by simp) (by simp)

theorem FiresAtMost.hblankStart {T : Int} {n k : Nat} {s : State} {L : Int} (h : FiresAtMost T n s)
    (hk : (if L = 0 then 0 else 1) ≤ k) : FiresAtMost T (n + k) (s.hblankStart L) := by
  unfold State.hblankStart
  dsimp only
  refine FiresAtMost.proceed (n := n) (by omega) ?_ fun s h => ?_
  · unfold State.renderIfVisible
    split_ifs
    · exact h.renderLine _
    · exact h
  · refine FiresAtMost.proceed (n := n) (by omega) ?_ fun s h => h.schedule fun hd => ?_
    · unfold State.dmaHblankIfVisible
      split_ifs
      · exact FiresAtMost.emit (h.congr (by simp) (by simp)) _
      · exact h.congr (by simp) (by simp)
    · exact (weight_successor hd (by decide)).trans hk

theorem FiresAtMost.hblankEnd {T : Int} {n k : Nat} {s : State} {L : Int} (h : FiresAtMost T n s)
    (hk : (if L = 0 then 0 else 1) ≤ k) : FiresAtMost T (n + k) (s.hblankEnd L) := by
  unfold State.hblankEnd
  dsimp only
  refine FiresAtMost.proceed (n := n) (by omega) ?_ fun s h => FiresAtMost.schedule ?_ fun hd => ?_
  · have hc : FiresAtMost T n ((s.setHblank false).setVcount (nextLine (s.setHblank false).display.vcount)).vcountCompare :=
      h.congr (by simp [State.vcountCompare]) (by simp [State.vcountCompare])
    split_ifs
    · unfold State.vblankEntry
      dsimp only
      refine FiresAtMost.proceed (Nat.le_refl _) (FiresAtMost.emit ?_ _) fun s h => ?_
      · exact hc.congr rfl rfl
      · exact h.congr (by simp) (by simp)
    · exact hc
  · split_ifs <;> exact h.congr rfl rfl
  · exact (weight_successor hd (by decide)).trans hk

/-- Firing a due event leaves fewer events to fire. -/
theorem fire_toFire {s : State} {e : Event} {rest : List Event} (hq : s.sched.queue = e :: rest)
    (hd : e.due ≤ s.sched.ticks) :
    toFire ((s.setQueue rest).dispatch e.tag (s.sched.ticks - e.due)) + 1 ≤ toFire s ∧
      ((s.setQueue rest).dispatch e.tag (s.sched.ticks - e.due)).sched.ticks = s.sched.ticks := by
  have hw : toFire s = weight s.sched.ticks e + toFire (s.setQueue rest) := by
    unfold toFire weights wordsLeft
    simp only [hq, List.map_cons, List.sum_cons, State.setQueue]
    omega
  have h0 : FiresAtMost s.sched.ticks (toFire (s.setQueue rest)) (s.setQueue rest) := ⟨rfl, Nat.le_refl _⟩
  have hweight : isLcdTag e.tag = true → weight s.sched.ticks e = if s.sched.ticks - e.due = 0 then 1 else 2 := by
    intro ht
    unfold weight
    simp only [ht, Bool.true_and, decide_eq_true_eq]
    split_ifs <;> omega
  have key : ∀ {u : State} {k : Nat}, FiresAtMost s.sched.ticks (toFire (s.setQueue rest) + k) u →
      k + 1 ≤ weight s.sched.ticks e → toFire u + 1 ≤ toFire s ∧ u.sched.ticks = s.sched.ticks := by
    intro u k hu hk
    exact ⟨by have := hu.2; omega, hu.1⟩
  unfold State.dispatch
  split_ifs with h1 h2
  · refine key (k := if s.sched.ticks - e.due = 0 then 0 else 1) (h0.hblankStart (Nat.le_refl _)) ?_
    rw [hweight (by simp [isLcdTag, h1])]
    split_ifs <;> omega
  · refine key (k := if s.sched.ticks - e.due = 0 then 0 else 1) (h0.hblankEnd (Nat.le_refl _)) ?_
    rw [hweight (by simp [isLcdTag, h2])]
    split_ifs <;> omega
  · refine key (k := 0) (h0.emit _) ?_
    unfold weight
    rw [if_neg (by omega)]
    split_ifs <;> omega

/-- The fuel of a drain covers every event it can fire. -/
theorem toFire_le_fuel (s : State) : toFire s ≤ s.drainFuel := by
  unfold toFire weights wordsLeft State.drainFuel
  have : ∀ q : List Event, (q.map (weight s.sched.ticks)).sum ≤ 2 * q.length := by
    intro q
    induction q with
    | nil => simp
    | cons e q ih =>
      have := weight_le_two s.sched.ticks e
      simp only [List.map_cons, List.sum_cons, List.length_cons]
      omega
  have := this s.sched.queue
  omega

/-- The loop ends because the block stopped or because the first pending event is not due. -/
theorem drainLoop_ends {n : Nat} {s : State} (hn : toFire s ≤ n) :
    (drainLoop n s).stopped = true ∨
      ∀ e rest, (drainLoop n s).sched.queue = e :: rest → (drainLoop n s).sched.ticks < e.due := by
  induction n generalizing s with
  | zero =>
    refine .inr fun e rest hq => ?_
    by_contra hc
    have h0 : toFire s = 0 := by omega
    have hq' : s.sched.queue = e :: rest := hq
    have := (fire_toFire (s := s) hq' (by exact Int.not_lt.mp hc)).1
    omega
  | succ n ih =>
    unfold drainLoop
    split_ifs with hs
    · exact .inl hs
    · split
      · next hq => exact .inr fun e rest h => by rw [hq] at h; cases h
      · next e rest hq =>
        split_ifs with hd
        · exact ih (by have := (fire_toFire hq hd).1; omega)
        · refine .inr fun e' rest' hq' => ?_
          rw [hq] at hq'
          cases hq'
          omega

/-- More fuel than events to fire changes nothing. -/
theorem drainLoop_fuel {n m : Nat} {s : State} (hn : toFire s ≤ n) (hm : toFire s ≤ m) :
    drainLoop n s = drainLoop m s := by
  induction n generalizing s m with
  | zero =>
    cases m with
    | zero => rfl
    | succ m =>
      unfold drainLoop
      split_ifs with hs
      · rfl
      · split
        · rfl
        · next e rest hq =>
          rw [if_neg]
          intro hd
          have := (fire_toFire hq hd).1
          omega
  | succ n ih =>
    cases m with
    | zero =>
      unfold drainLoop
      split_ifs with hs
      · rfl
      · split
        · rfl
        · next e rest hq =>
          rw [if_neg]
          intro hd
          have := (fire_toFire hq hd).1
          omega
    | succ m =>
      unfold drainLoop
      split_ifs with hs
      · rfl
      · split
        · rfl
        · next e rest hq =>
          split_ifs with hd
          · have := (fire_toFire hq hd).1
            exact ih (by omega) (by omega)
          · rfl

end Sys2Proof.Machine
end

