-- ==== Sys2Proof/Laws/Registers.lean ====
section
/-! SUPPORT. Register writes bit by bit, and the register layouts they respect. -/

namespace Sys2Proof.Machine

open Sys2Proof.Config

/-- The write of a byte lane, bit by bit (R140). -/
theorem writeLane_bit {w : Nat} (reg m : BitVec w) (lane : Nat) (d : Byte) :
    LaneWritten reg (writeLane reg m lane d) m lane d := by
  intro i hi
  have hsel : ((255 : BitVec w) <<< (8 * lane)).getLsbD i = decide (8 * lane ≤ i ∧ i < 8 * lane + 8) := by
    rw [BitVec.getLsbD_shiftLeft]
    have : (255 : BitVec w).getLsbD (i - 8 * lane) = (decide (i - 8*lane < w) && Nat.testBit 255 (i - 8*lane)) := by
      rw [show (255 : BitVec w) = BitVec.ofNat w 255 from rfl, BitVec.getLsbD_ofNat]
    rw [this]
    have h255 : Nat.testBit 255 (i - 8*lane) = decide (i - 8*lane < 8) := by
      rw [show 255 = 2^8 - 1 from rfl, Nat.testBit_two_pow_sub_one]
    rw [h255]
    by_cases h1 : i < 8 * lane
    · simp [h1, hi]
    · by_cases h2 : i < 8 * lane + 8
      · simp [h1, hi, h2, show i - 8 * lane < w by omega, show i - 8 * lane < 8 by omega, show 8 * lane ≤ i by omega]
      · simp [h1, hi, h2, show ¬ i - 8 * lane < 8 by omega]
  have hd : (d.setWidth w <<< (8 * lane)).getLsbD i = (decide (8 * lane ≤ i) && d.getLsbD (i - 8*lane)) := by
    rw [BitVec.getLsbD_shiftLeft, BitVec.getLsbD_setWidth]
    by_cases h1 : i < 8 * lane
    · simp [h1]
    · have : i - 8 * lane < w := by omega
      simp [h1, hi, this, show 8 * lane ≤ i by omega]
  simp only [writeLane, BitVec.getLsbD_or, BitVec.getLsbD_and, BitVec.getLsbD_not, hsel, hd, hi]
  by_cases h1 : 8 * lane ≤ i <;> by_cases h2 : i < 8 * lane + 8 <;> cases hm : m.getLsbD i <;> simp [h1, h2]
  have : d.getLsbD (i - 8*lane) = false := BitVec.getLsbD_of_ge _ _ (by omega)
  simp [this]

theorem writeLane_keeps_bit {w : Nat} {reg m : BitVec w} (lane : Nat) (d : Byte) (i : Nat)
    (hm : m.getLsbD i = false) : (writeLane reg m lane d).getLsbD i = reg.getLsbD i := by
  by_cases hi : i < w
  · simp only [writeLane, BitVec.getLsbD_and, BitVec.getLsbD_or, BitVec.getLsbD_not, hm, hi]
    cases reg.getLsbD i <;> cases ((255 : BitVec w) <<< (8*lane)).getLsbD i <;> simp
  · simp [BitVec.getLsbD_of_ge _ _ (Nat.le_of_not_lt hi)]

theorem stat_set (d : Half) (b : Bool) : (statHblank (setBit d 1 b) = b ∧ statVblank (setBit d 1 b) = statVblank d) ∧
   (statVblank (setBit d 0 b) = b ∧ statHblank (setBit d 0 b) = statHblank d) ∧ (statVblank (setBit d 2 b) = statVblank d ∧ statHblank (setBit d 2 b) = statHblank d) := by
  unfold statHblank statVblank flag setBit
  cases b <;> simp [BitVec.getLsbD_or, BitVec.getLsbD_and] <;> decide

theorem and_or_zero {w : Nat} {a b m : BitVec w} (ha : a &&& m = 0) (hb : b &&& m = 0) : (a ||| b) &&& m = 0 := by
  apply BitVec.eq_of_getLsbD_eq
  intro i hi
  have h1 := congrArg (·.getLsbD i) ha
  have h2 := congrArg (·.getLsbD i) hb
  simp at h1 h2 ⊢
  tauto
theorem and_and_zero {w : Nat} {a m : BitVec w} (b : BitVec w) (ha : a &&& m = 0) : (a &&& b) &&& m = 0 := by
  rw [BitVec.and_assoc, BitVec.and_comm b, ← BitVec.and_assoc, ha]; simp
theorem and_and_zero' {w : Nat} {a m : BitVec w} (b : BitVec w) (ha : a &&& m = 0) : (b &&& a) &&& m = 0 := by
  rw [BitVec.and_assoc, ha]; simp
theorem writeLane_legal {w : Nat} {reg m bad : BitVec w} (lane : Nat) (d : Byte) (h : reg &&& bad = 0) (hm : m &&& bad = 0) :
    writeLane reg m lane d &&& bad = 0 :=
  and_or_zero (and_or_zero (and_and_zero _ h) (and_and_zero' _ hm)) (and_and_zero _ (and_and_zero _ h))
theorem setBit_legal {v : Half} (i : Nat) (b : Bool) {m : Half} (hi : (1#16 <<< i) &&& m = 0) (h : v &&& m = 0) : setBit v i b &&& m = 0 := by
  unfold setBit; split_ifs
  · exact and_or_zero h hi
  · exact and_and_zero _ h

theorem setBg_legal {b : Backgrounds} (h : b.Legal) (n : Fin 4) {r : Bg} (hr : (b.bg n).Legal → r.Legal) : (b.setBg n r).Legal := by
  obtain ⟨h0,h1,h2,h3,h4,h5⟩ := h
  fin_cases n
  · exact ⟨hr h0,h1,h2,h3,h4,h5⟩
  · exact ⟨h0,hr h1,h2,h3,h4,h5⟩
  · exact ⟨h0,h1,hr h2,h3,h4,h5⟩
  · exact ⟨h0,h1,h2,hr h3,h4,h5⟩
theorem setAff_legal {b : Backgrounds} (h : b.Legal) (n : AffineBg) {r : Affine} (hr : (b.aff n).Legal → r.Legal) : (b.setAff n r).Legal := by
  obtain ⟨h0,h1,h2,h3,h4,h5⟩ := h
  cases n
  · exact ⟨h0,h1,h2,h3,hr h4,h5⟩
  · exact ⟨h0,h1,h2,h3,h4,hr h5⟩
theorem mapAff_legal {b : Backgrounds} (h : b.Legal) {f : Affine → Affine} (hr : ∀ a : Affine, a.Legal → (f a).Legal) : (b.mapAff f).Legal := by
  obtain ⟨h0,h1,h2,h3,h4,h5⟩ := h
  exact ⟨h0,h1,h2,h3,hr _ h4, hr _ h5⟩


end Sys2Proof.Machine
end

