-- ==== Sys2Proof/Laws/Lcd.lean ====
section
/-! SUPPORT. What an LCD event does to the LCD's registers and to its pending event. -/

namespace Sys2Proof.Machine

open Sys2Proof.Config

/-! ## The pending LCD events -/

theorem lcd_cons (e : Event) (q : List Event) : lcdEvents (e :: q) = if isLcdTag e.tag then (e.due, e.tag) :: lcdEvents q else lcdEvents q := by
  unfold lcdEvents; rw [List.filter_cons]; split_ifs <;> rfl

theorem lcd_insert_other {e : Event} (h : isLcdTag e.tag = false) (q : List Event) : lcdEvents (insertEvent e q) = lcdEvents q := by
  induction q with
  | nil => simp [insertEvent, lcd_cons, h]
  | cons f r ih => 
    simp only [insertEvent]
    split_ifs
    · simp [lcd_cons, h]
    · rw [lcd_cons, ih, lcd_cons]

theorem lcd_insert_none {e : Event} (h : isLcdTag e.tag = true) {q : List Event} (hq : lcdEvents q = []) : lcdEvents (insertEvent e q) = [(e.due, e.tag)] := by
  induction q with
  | nil => simp only [insertEvent, lcd_cons, h, if_true]; rfl
  | cons f r ih => 
    simp only [insertEvent]
    rw [lcd_cons] at hq
    split_ifs at hq with hf
    split_ifs
    · rw [lcd_cons, lcd_cons]; simp [h, hf, hq]
    · rw [lcd_cons, ih hq]; simp [hf]

theorem lcd_cancel {tag : Byte} (h : isLcdTag tag = false) (q : List Event) : lcdEvents (cancelTag tag q) = lcdEvents q := by
  induction q with
  | nil => rfl
  | cons f r ih => 
    simp only [cancelTag]
    split_ifs with ht
    · rw [lcd_cons, ht]; simp [h]
    · rw [lcd_cons, ih, lcd_cons]

/-! ## The LCD's registers through an event -/

/-- The LCD's registers, its clock, its pending events and its frame count. -/
structure MidAt (vc : Byte) (hb vb : Bool) (T : Int) (q : List (Int × Byte)) (c : BitVec 64) (s : State) : Prop where
  vc : s.display.vcount = vc
  hb : statHblank s.display.dispstat = hb
  vb : statVblank s.display.dispstat = vb
  ticks : s.sched.ticks = T
  lcd : lcdEvents s.sched.queue = q
  fc : s.output.frameCounter = c

/-- The same, unless a fault has stopped the block. -/
def Mid (vc : Byte) (hb vb : Bool) (T : Int) (q : List (Int × Byte)) (c : BitVec 64) (s : State) : Prop :=
  s.Running → MidAt vc hb vb T q c s

theorem mid_ops {vc hb vb T q c} : KeptByOps (Mid vc hb vb T q c) := by
  constructor
  case raise => intro s k op _ hs hr; simp [State.Running] at hr
  case dispstat =>
    intro s l d hs hr
    obtain ⟨a,b,c,d,e,f⟩ := hs hr
    exact ⟨a, (writeLane_keeps_bit _ _ _ (by decide)).trans b, (writeLane_keeps_bit _ _ _ (by decide)).trans c,d,e,f⟩
  case schedule =>
    intro s tag d op ht _ hs hr
    rcases schedule_cases s tag d op with ⟨k, hk⟩ | ⟨ha, hb, -, hk⟩ <;> rw [hk] at hr ⊢
    · simp [State.Running] at hr
    · obtain ⟨a,b,c,d,e,f⟩ := hs hr
      exact ⟨a,b,c,d,(lcd_insert_other ht _).trans e,f⟩
  case cancel =>
    intro s tag ht hs hr
    obtain ⟨a,b,c,d,e,f⟩ := hs hr
    exact ⟨a,b,c,d,(lcd_cancel ht _).trans e,f⟩
  all_goals intros
  all_goals rename_i hs
  all_goals first | assumption | (intro hr; obtain ⟨a,b,c,d,e,f⟩ := hs hr; exact ⟨a,b,c,d,e,f⟩)

theorem mid_flagIf {vc hb vb T q c} {s : State} (en k) (hs : Mid vc hb vb T q c s) : Mid vc hb vb T q c (s.flagInterruptIf en k) := by
  intro hr
  have : s.Running := by simpa [State.Running] using hr
  obtain ⟨a,b,c,d,e,f⟩ := hs this
  exact ⟨by simpa using a, by simpa using b, by simpa using c, by simpa using d, by simpa using e, by simpa using f⟩

theorem mid_renderLine {vc hb vb T q c} {s : State} (y) (hs : Mid vc hb vb T q c s) : Mid vc hb vb T q c (s.renderLine y) := by
  rcases renderLine_cases s y with ⟨k, hk⟩ | ⟨row, hr, hk⟩ <;> rw [hk]
  · intro hr; simp [State.Running] at hr
  · intro hr
    have : s.Running := by simpa [State.Running] using hr
    obtain ⟨a,b,c,d,e,f⟩ := hs this
    exact ⟨by simpa using a, by simpa using b, by simpa using c, by simpa using d, by simpa using e, by simpa using f⟩

theorem mid_start {vc hb vb T c} {s : State} {L : Int} (hs : Mid vc hb vb T [] c s) :
   Mid vc true vb T [(T + (272 - L), 1)] c (s.hblankStart L) := by
  unfold State.hblankStart
  dsimp only
  have h1 : Mid vc hb vb T [] c (s.renderIfVisible s.display.vcount) := by
    unfold State.renderIfVisible; split_ifs
    · exact mid_renderLine _ hs
    · exact hs
  intro hr
  by_cases hf : (s.renderIfVisible s.display.vcount).faults = []
  · rw [proceed_running hf] at hr ⊢
    have h2 : Mid vc true vb T [] c ((s.renderIfVisible s.display.vcount).setHblank true) := by
      intro hr
      obtain ⟨a,b,c,d,e,f⟩ := h1 hf
      exact ⟨a, (stat_set _ _).1.1, ((stat_set _ _).1.2).trans c, d,e,f⟩
    have h3 := mid_flagIf (statHblankIrqEn ((s.renderIfVisible s.display.vcount).setHblank true).display.dispstat) 1 h2
    generalize hg : (((s.renderIfVisible s.display.vcount).setHblank true).flagInterruptIf (statHblankIrqEn ((s.renderIfVisible s.display.vcount).setHblank true).display.dispstat) 1) = u at h3 hr ⊢
    have h4 : Mid vc true vb T [] c (u.dmaHblankIfVisible s.display.vcount) := by
      unfold State.dmaHblankIfVisible; split_ifs
      · exact mid_ops.emit _ h3
      · exact h3
    generalize (u.dmaHblankIfVisible s.display.vcount) = v at h4 hr ⊢
    by_cases hv : v.faults = []
    · rw [proceed_running hv] at hr ⊢
      obtain ⟨a,b,c,d,e,f⟩ := h4 hv
      rcases schedule_cases v tagHblankEnd (hblankCycles - L) (FaultOp.hblankStart L) with ⟨k, hk⟩ | ⟨ha, hb, -, hk⟩ <;> rw [hk] at hr ⊢
      · simp [State.Running] at hr
      · exact ⟨a,b,c,d,(lcd_insert_none (by rfl) e).trans (by simp [d]),f⟩
    · rw [proceed_stopped hv] at hr; exact absurd hr hv
  · rw [proceed_stopped hf] at hr; exact absurd hr hf

theorem mid_vblank {vc hb vb T q c} {s : State} (hs : Mid vc hb vb T q c s) :
   Mid vc hb true T q (c+1) s.vblankEntry := by
  unfold State.vblankEntry
  dsimp only
  have h1 : Mid vc hb true T q c ({ (s.setVblank true) with bgs := (s.setVblank true).bgs.mapAff Affine.reload } : State) := by
    intro hr
    obtain ⟨a,b,c,d,e,f⟩ := hs hr
    exact ⟨a, ((stat_set _ _).2.1.2).trans b, (stat_set _ _).2.1.1, d,e,f⟩
  have h2 := mid_ops.emit .dmaVblank h1
  generalize State.emit _ _ = v at h2 ⊢
  intro hr
  by_cases hv : v.faults = []
  · rw [proceed_running hv] at hr ⊢
    obtain ⟨a,b,c,d,e,f⟩ := mid_flagIf (statVblankIrqEn v.display.dispstat) 0 h2 (by simpa [State.Running] using hv)
    exact ⟨a,b,c,d,e,by rw [← f]; rfl⟩
  · rw [proceed_stopped hv] at hr; exact absurd hr hv

theorem mid_end {vc hb vb T c} {s : State} {L : Int} (hrun : s.Running) (hs : Mid vc hb vb T [] c s) :
   Mid (nextLine vc) false (if nextLine vc = 227 then false else if nextLine vc = 160 then true else vb) T [(T + (960 - L), 0)]
     (if nextLine vc = 160 then c + 1 else c) (s.hblankEnd L) := by
  unfold State.hblankEnd
  dsimp only
  have h1 : Mid vc false vb T [] c (s.setHblank false) := by
    intro hr
    obtain ⟨a,b,c,d,e,f⟩ := hs hr
    exact ⟨a, (stat_set _ _).1.1, ((stat_set _ _).1.2).trans c, d,e,f⟩
  have r1 : (s.setHblank false).faults = [] := hrun
  generalize s.setHblank false = s1 at h1 r1 ⊢
  have h2 : Mid (nextLine vc) false vb T [] c (s1.setVcount (nextLine s1.display.vcount)) := by
    intro hr
    obtain ⟨a,b,c,d,e,f⟩ := h1 hr
    exact ⟨by simp [a],b,c,d,e,f⟩
  have r2 : (s1.setVcount (nextLine s1.display.vcount)).faults = [] := r1
  generalize s1.setVcount (nextLine s1.display.vcount) = s2 at h2 r2 ⊢
  have h3 : Mid (nextLine vc) false vb T [] c s2.vcountCompare := by
    refine mid_flagIf _ _ ?_
    intro hr
    obtain ⟨a,b,c,d,e,f⟩ := h2 hr
    exact ⟨a, ((stat_set _ _).2.2.2).trans b, ((stat_set _ _).2.2.1).trans c,d,e,f⟩
  have hf : s2.vcountCompare.faults = [] := by simpa [State.vcountCompare] using r2
  generalize s2.vcountCompare = s3 at h3 hf ⊢
  have h4 : Mid (nextLine vc) false (if nextLine vc = 160 then true else vb) T [] (if nextLine vc = 160 then c + 1 else c) (if s3.display.vcount = 160 then s3.vblankEntry else s3) := by
    have hv := (h3 hf).vc
    rw [hv]
    split_ifs with h160
    · exact mid_vblank h3
    · exact h3
  generalize (if s3.display.vcount = 160 then s3.vblankEntry else s3) = s4 at h4 ⊢
  intro hr
  by_cases hv : s4.faults = []
  · rw [proceed_running hv] at hr ⊢
    have h5 : Mid (nextLine vc) false (if nextLine vc = 227 then false else if nextLine vc = 160 then true else vb) T [] (if nextLine vc = 160 then c + 1 else c) (if s4.display.vcount = 227 then s4.setVblank false else s4) := by
      obtain ⟨a,b,c,d,e,f⟩ := h4 hv
      intro _
      rw [a]
      by_cases h227 : nextLine vc = 227
      · rw [if_pos h227, if_pos h227]
        exact ⟨a, ((stat_set _ _).2.1.2).trans b, (stat_set _ _).2.1.1, d,e,f⟩
      · rw [if_neg h227, if_neg h227]
        exact ⟨a,b,c,d,e,f⟩
    generalize hs5 : (if s4.display.vcount = 227 then s4.setVblank false else s4) = s5 at h5 hr ⊢
    have h6 : Mid (nextLine vc) false (if nextLine vc = 227 then false else if nextLine vc = 160 then true else vb) T [] (if nextLine vc = 160 then c + 1 else c) (if s5.display.vcount = 0 then s5.mosaicFrameStart else s5) := by
      split_ifs at h5 ⊢ <;> (intro hr; obtain ⟨a,b,c,d,e,f⟩ := h5 hr; exact ⟨a,b,c,d,e,f⟩)
    generalize (if s5.display.vcount = 0 then s5.mosaicFrameStart else s5) = s6 at h6 hr ⊢
    rcases schedule_cases s6 tagHblankStart (drawCycles - L) (FaultOp.hblankEnd L) with ⟨k, hk⟩ | ⟨ha, hb, -, hk⟩ <;> rw [hk] at hr ⊢
    · simp [State.Running] at hr
    · obtain ⟨a,b,c,d,e,f⟩ := h6 hr
      exact ⟨a,b,c,d,(lcd_insert_none (by rfl) e).trans (by simp [d]),f⟩
  · rw [proceed_stopped hv] at hr; exact absurd hr hv

theorem lcd_mid {f : Nat} {s : State} (h : s.LcdAt f) (hr : s.Running) : Mid s.display.vcount (statHblank s.display.dispstat) (statVblank s.display.dispstat) s.sched.ticks (lcdEvents s.sched.queue) s.output.frameCounter s := fun _ => ⟨rfl,rfl,rfl,rfl,rfl,rfl⟩

/-- LcdAt depends only on MidAt data -/
theorem lcdAt_of_mid {f : Nat} {s t : State} (h : s.LcdAt f) (ht : MidAt s.display.vcount (statHblank s.display.dispstat) (statVblank s.display.dispstat) s.sched.ticks (lcdEvents s.sched.queue) s.output.frameCounter t) : t.LcdAt f := by
  obtain ⟨a,b,c,d,e,g⟩ := ht
  unfold State.LcdAt at h ⊢
  rw [a,b,c,d,e,g]; exact h

theorem lcd_later {f : Nat} {s : State} (h : s.LcdAt f) {n : Int} (hn : s.sched.ticks ≤ n) : ({ s with sched := { s.sched with ticks := n } } : State).LcdAt f := by
  unfold State.LcdAt at h ⊢
  dsimp only at h ⊢
  obtain ⟨a,b,c⟩ := h
  refine ⟨a,?_,c⟩
  split_ifs at b ⊢
  · exact ⟨b.1, by have := b.2; omega⟩
  · exact ⟨b.1, by have := b.2; omega⟩


end Sys2Proof.Machine
end

