-- ==== Sys2Proof/Laws/Memory.lean ====
section
/-! SUPPORT. The laws of the video memories: reading after a write, and that every store keeps the
canonical form. -/

namespace Sys2Proof.Machine

open Sys2Proof.Config

/-! ## Lists of cells -/

theorem lookupCell_insertCell_same (a : Nat) (v : Byte) (l : List Host.Cell) :
    lookupCell (insertCell a v l) a = some v := by
  induction l with
  | nil => simp [insertCell, lookupCell]
  | cons c rest ih =>
    obtain ⟨k, w⟩ := c
    simp only [insertCell]
    split_ifs with h1 h2
    · simp [lookupCell]
    · simp [lookupCell]
    · simp [lookupCell, Ne.symm h2, ih]

theorem lookupCell_insertCell_other {a b : Nat} (h : b ≠ a) (v : Byte) (l : List Host.Cell) :
    lookupCell (insertCell a v l) b = lookupCell l b := by
  induction l with
  | nil => simp [insertCell, lookupCell, Ne.symm h]
  | cons c rest ih =>
    obtain ⟨k, w⟩ := c
    simp only [insertCell]
    split_ifs with h1 h2
    · simp [lookupCell, Ne.symm h]
    · subst h2; simp [lookupCell, Ne.symm h]
    · simp [lookupCell, ih]

theorem lookupCell_eraseCell_same (a : Nat) (l : List Host.Cell) : lookupCell (eraseCell a l) a = none := by
  induction l with
  | nil => rfl
  | cons c rest ih =>
    obtain ⟨k, w⟩ := c
    by_cases h : k = a
    · simpa [eraseCell, h] using ih
    · simp only [eraseCell, ne_eq, decide_not] at ih
      simp [eraseCell, h, lookupCell, ih]

theorem lookupCell_eraseCell_other {a b : Nat} (h : b ≠ a) (l : List Host.Cell) :
    lookupCell (eraseCell a l) b = lookupCell l b := by
  induction l with
  | nil => rfl
  | cons c rest ih =>
    obtain ⟨k, w⟩ := c
    simp only [eraseCell, ne_eq, decide_not] at ih
    by_cases hk : k = a
    · simp [eraseCell, hk, lookupCell, Ne.symm h, ih]
    · simp [eraseCell, hk, lookupCell, ih]

theorem mem_insertCell {a : Nat} {v : Byte} {l : List Host.Cell} {c : Host.Cell} :
    c ∈ insertCell a v l → c = (a, v) ∨ c ∈ l := by
  induction l with
  | nil => simp [insertCell]
  | cons d rest ih =>
    obtain ⟨k, w⟩ := d
    simp only [insertCell]
    split_ifs <;> simp only [List.mem_cons] <;> tauto

theorem insertCell_pairwise (a : Nat) (v : Byte) {l : List Host.Cell}
    (h : l.Pairwise fun p q => p.1 < q.1) : (insertCell a v l).Pairwise fun p q => p.1 < q.1 := by
  induction l with
  | nil => simp [insertCell]
  | cons d rest ih =>
    obtain ⟨k, w⟩ := d
    obtain ⟨hk, hr⟩ := List.pairwise_cons.mp h
    simp only [insertCell]
    split_ifs with h1 h2
    · exact List.pairwise_cons.mpr ⟨fun c hc => by
        rcases List.mem_cons.mp hc with rfl | hc
        · exact h1
        · exact Nat.lt_trans h1 (hk c hc), h⟩
    · subst h2; exact List.pairwise_cons.mpr ⟨hk, hr⟩
    · refine List.pairwise_cons.mpr ⟨fun c hc => ?_, ih hr⟩
      rcases mem_insertCell hc with rfl | hc
      · show k < a
        omega
      · exact hk c hc

/-! ## One memory -/

/-- A byte read where it was written is the byte written. -/
theorem Memory.read_write_same (m : Memory) (a : Nat) (v : Byte) : (m.write a v).read? a = some v := by
  unfold Memory.write
  split_ifs with h
  · simp [Memory.read?, lookupCell_eraseCell_same, h]
  · simp [Memory.read?, lookupCell_insertCell_same]

/-- A write leaves every other byte as it was. -/
theorem Memory.read_write_other (m : Memory) {a b : Nat} (h : b ≠ a) (v : Byte) :
    (m.write a v).read? b = m.read? b := by
  unfold Memory.write
  split_ifs
  · simp [Memory.read?, lookupCell_eraseCell_other h]
  · simp [Memory.read?, lookupCell_insertCell_other h]

theorem Memory.write_unlisted (m : Memory) (a : Nat) (v : Byte) : (m.write a v).unlisted = m.unlisted := by
  unfold Memory.write
  split_ifs <;> rfl

/-- A write inside the memory keeps the canonical form. -/
theorem Memory.write_wf {size : Nat} {m : Memory} (h : m.wf size) {a : Nat} (ha : a < size) (v : Byte) :
    (m.write a v).wf size := by
  obtain ⟨hp, hc⟩ := h
  unfold Memory.write
  split_ifs with hv
  · exact ⟨hp.filter _, fun c h => hc c (List.mem_filter.mp h).1⟩
  · refine ⟨insertCell_pairwise a v hp, fun c h => ?_⟩
    rcases mem_insertCell h with rfl | h
    · exact ⟨ha, hv⟩
    · exact hc c h

theorem lookupCell_of_mem {l : List Host.Cell} (h : l.Pairwise fun p q => p.1 < q.1) {c : Host.Cell}
    (hc : c ∈ l) : lookupCell l c.1 = some c.2 := by
  induction l with
  | nil => cases hc
  | cons d rest ih =>
    obtain ⟨k, w⟩ := d
    obtain ⟨hk, hr⟩ := List.pairwise_cons.mp h
    rcases List.mem_cons.mp hc with rfl | hc
    · simp [lookupCell]
    · have := hk c hc
      simp only [lookupCell]
      rw [if_neg (by simpa using Nat.ne_of_lt this), ih hr hc]

theorem mem_of_lookupCell {l : List Host.Cell} {a : Nat} {v : Byte} (h : lookupCell l a = some v) :
    (a, v) ∈ l := by
  induction l with
  | nil => simp [lookupCell] at h
  | cons d rest ih =>
    obtain ⟨k, w⟩ := d
    simp only [lookupCell] at h
    split_ifs at h with hk
    · subst hk; simp_all
    · exact List.mem_cons_of_mem _ (ih h)

/-! ## The three memories -/

theorem Video.mem_store_same (v : Video) (m : VMem) (a : Nat) (b : Byte) :
    (v.store m a b).mem m = (v.mem m).write a b := by
  cases m <;> rfl

theorem Video.mem_store_other (v : Video) {m n : VMem} (h : n ≠ m) (a : Nat) (b : Byte) :
    (v.store m a b).mem n = v.mem n := by
  cases m <;> cases n <;> first | rfl | exact absurd rfl h

/-- A store inside a memory keeps all three in canonical form. -/
theorem Video.store_wf {v : Video} (h : v.wf) (m : VMem) {a : Nat} (ha : a < m.size) (b : Byte) :
    (v.store m a b).wf := by
  obtain ⟨h1, h2, h3⟩ := h
  cases m
  · exact ⟨Memory.write_wf h1 ha b, h2, h3⟩
  · exact ⟨h1, Memory.write_wf h2 ha b, h3⟩
  · exact ⟨h1, h2, Memory.write_wf h3 ha b⟩

/-- The byte stored is the byte read back. -/
theorem State.byte_storeByte_same (s : State) (m : VMem) (a : Nat) (b : Byte) :
    (s.storeByte m a b).byte? m a = some b := by
  simp [State.byte?, Video.mem_store_same, Memory.read_write_same]

/-- Every other byte of the three memories reads as before the store. -/
theorem State.byte_storeByte_other (s : State) {m n : VMem} {a c : Nat} (h : n ≠ m ∨ c ≠ a) (b : Byte) :
    (s.storeByte m a b).byte? n c = s.byte? n c := by
  by_cases hn : n = m
  · subst hn
    have hc : c ≠ a := by tauto
    simp [State.byte?, Video.mem_store_same, Memory.read_write_other _ hc]
  · simp [State.byte?, Video.mem_store_other _ hn]

/-- The memories are in canonical form after reset. -/
theorem reset_video_wf : State.reset.video.wf := by decide

end Sys2Proof.Machine
end

