-- ==== Sys2Proof/Laws/Picture.lean ====
section
/-! SUPPORT. Laws of the renderer over memories whose contents are known: its reads succeed, every layer's row
is a function of the column, and what the scan of one object does to the object line. -/

namespace Sys2Proof.Machine

open Sys2Proof.Config

/-! ## Fields and reads -/

/-- A field in the arithmetic of R10. -/
theorem field_eq {w : Nat} (v : BitVec w) (lo len : Nat) : field v lo len = v.toNat / 2 ^ lo % 2 ^ len := by
  unfold field; rw [BitVec.extractLsb'_toNat, Nat.shiftRight_eq_div_pow]

theorem field_lt {w : Nat} (v : BitVec w) (lo len : Nat) : field v lo len < 2 ^ len := by
  rw [field_eq]; exact Nat.mod_lt _ (by positivity)

theorem fetch8_of_byte {s : State} {m a b} (h : s.byte? m a = some b) : s.fetch8 m a = .ok b := by
  unfold State.fetch8; rw [h]

theorem fetch16_of_halfAt {s : State} {m a h} (hh : s.HalfAt m a h) : s.fetch16 m a = .ok h := by
  obtain ⟨lo, hi, h1, h2, rfl⟩ := hh
  unfold State.fetch16; rw [fetch8_of_byte h1, fetch8_of_byte h2]; rfl

theorem halfAt_of_fetch16 {s : State} {m a h} (hh : s.fetch16 m a = .ok h) : s.HalfAt m a h := by
  unfold State.fetch16 at hh
  obtain ⟨lo, h1, hh⟩ := Fetch.bind_ok hh
  obtain ⟨hi, h2, hh⟩ := Fetch.bind_ok hh
  cases hh
  unfold State.fetch8 at h1 h2
  split at h1 <;> cases h1
  split at h2 <;> cases h2
  exact ⟨lo, hi, ‹_›, ‹_›, rfl⟩

theorem halfAt_unique {s : State} {m a h k} (h1 : s.HalfAt m a h) (h2 : s.HalfAt m a k) : h = k := by
  have := fetch16_of_halfAt h1; rw [fetch16_of_halfAt h2] at this; cases this; rfl

theorem fetch8_known {s : State} (h : s.VideoKnown) {m a} (ha : a < m.size) : ∃ b, s.fetch8 m a = .ok b := by
  have := h m a ha
  unfold State.fetch8
  cases hb : s.byte? m a with
  | none => exact absurd hb this
  | some b => exact ⟨b, rfl⟩

theorem fetch16_known {s : State} (h : s.VideoKnown) {m a} (ha : a + 1 < m.size) : ∃ b, s.fetch16 m a = .ok b := by
  obtain ⟨l, hl⟩ := fetch8_known h (m := m) (a := a) (by omega)
  obtain ⟨k, hk⟩ := fetch8_known h (m := m) (a := a+1) (by omega)
  unfold State.fetch16; rw [hl, hk]; exact ⟨_, rfl⟩

/-! ## Computations that may fault -/

theorem Fetch.foldlM_snoc {α β : Type} (f : β → α → Fetch β) (l : List α) (a : α) (b c : β) (h : l.foldlM f b = .ok c) :
    (l ++ [a]).foldlM f b = f c a := by
  rw [List.foldlM_append, h]
  show (f c a >>= fun d => pure d) = _
  cases f c a <;> rfl

theorem Fetch.mapM_known {α β : Type} (f : α → Fetch β) (g : α → β) (l : List α) (h : ∀ a ∈ l, f a = .ok (g a)) :
    l.mapM f = .ok (l.map g) := by
  induction l with
  | nil => rfl
  | cons a l ih =>
    rw [List.mapM_cons, h a (by simp), ih fun b hb => h b (by simp [hb])]; rfl

/-! ## Background layers over memories of known contents -/

theorem paletteColour_known {s : State} (h : s.VideoKnown) {a : Nat} (ha : a + 1 < 1024) :
    ∃ c, s.paletteColour a = .ok c := by
  obtain ⟨x, hx⟩ := fetch16_known h (m := .pram) (a := a) ha
  unfold State.paletteColour; rw [hx]; exact ⟨_, rfl⟩

theorem palettePx_known {s : State} (h : s.VideoKnown) (n) {a : Nat} (ha : a + 1 < 1024) :
    ∃ c, (s.paletteColour a >>= fun c => pure (some (s.bgPx n c))) = (.ok c : Fetch (Option Px)) := by
  obtain ⟨c, hc⟩ := paletteColour_known h ha; rw [hc]; exact ⟨_, rfl⟩

theorem indexedPx_known {s : State} (h : s.VideoKnown) (n : Fin 4) (p : Prop) [Decidable p] (a : Nat)
    (ha : a + 1 < 1024) :
    ∃ r, (if p then (pure none : Fetch (Option Px))
      else s.paletteColour a >>= fun c => pure (some (s.bgPx n c))) = .ok r := by
  split
  · exact ⟨_, rfl⟩
  · exact palettePx_known h n ha

theorem limited8_known {s : State} (h : s.VideoKnown) (a : Nat) (k : Byte → Fetch (Option Px))
    (hk : ∀ b, ∃ r, k b = .ok r) :
    ∃ r, (if 0x10000 ≤ a then (.ok none : Fetch (Option Px)) else s.fetch8 .vram a >>= k) = .ok r := by
  split
  · exact ⟨_, rfl⟩
  · obtain ⟨b, hb⟩ := fetch8_known h (m := .vram) (a := a) (by show _ < 98304; omega)
    rw [hb]; exact hk b

theorem tilePixel_known {s : State} (h : s.VideoKnown) (n e px py) : ∃ r, s.tilePixel n e px py = .ok r := by
  unfold State.tilePixel
  dsimp only
  have he : field e 12 4 < 16 := field_lt _ _ _
  by_cases hc : bgColor8 (s.bgs.bg n).cnt = true
  · rw [if_pos hc]
    refine limited8_known h _ _ fun b => indexedPx_known h n _ _ ?_
    have := b.isLt; omega
  · rw [if_neg hc]
    refine limited8_known h _ _ fun b => indexedPx_known h n _ _ ?_
    have : ∀ z, nibble b z < 16 := by intro z; unfold nibble; split_ifs <;> exact field_lt _ _ _
    have := this (if flag e 10 = true then 7 - px else px)
    omega

/-- Every pixel function of R311, R321 and R330 answers a pixel or `NONE`. -/
theorem layerPixel_known {s : State} (h : s.VideoKnown) (kind n y x) : ∃ r, s.layerPixel kind n y x = .ok r := by
  have aff : ∀ tx ty, ∃ r, s.affineTile n tx ty = .ok r := by
    intro tx ty
    unfold State.affineTile; dsimp only
    refine limited8_known h _ _ fun t => ?_
    refine limited8_known h _ _ fun b => indexedPx_known h n _ _ ?_
    have := b.isLt; omega
  have hfb : s.frameBase ≤ 0xA000 := by
    unfold State.frameBase; have : dispFrame s.display.dispcnt < 2 := field_lt _ _ _; omega
  have bmp : ∀ w h' t, (∀ tx ty, tx < w → ty < h' → ∃ r, t tx ty = .ok r) → ∃ r, s.bitmapPixel n w h' t x = .ok r := by
    intro w h' t ht
    unfold State.bitmapPixel; dsimp only
    split
    · next hh =>
      rw [Bool.and_eq_true] at hh; simp only [inside, decide_eq_true_eq] at hh
      exact ht _ _ (by omega) (by omega)
    · exact ⟨_, rfl⟩
  have d16 : ∀ a, a + 1 < 98304 → ∃ r, s.direct16 n a = .ok r := by
    intro a ha
    obtain ⟨x, hx⟩ := fetch16_known h (m := .vram) (a := a) ha
    unfold State.direct16; rw [hx]; exact ⟨_, rfl⟩
  cases kind
  · show ∃ r, s.textPixel n y x = _
    have key : ∀ ea (k : Half → Fetch (Option Px)), (∀ b, ∃ r, k b = .ok r) →
        ∃ r, (if 0x10000 ≤ ea then (.ok none : Fetch (Option Px)) else s.fetch16 .vram ea >>= k) = .ok r := by
      intro ea k hk
      split
      · exact ⟨_, rfl⟩
      · obtain ⟨e, he⟩ := fetch16_known h (m := .vram) (a := ea) (by show _ < 98304; omega)
        rw [he]; exact hk e
    exact key _ _ fun e => tilePixel_known h _ _ _ _
  · show ∃ r, s.affinePixel n x = _
    unfold State.affinePixel; dsimp only
    split_ifs
    · exact aff _ _
    · exact aff _ _
    · exact ⟨_, rfl⟩
  · exact bmp _ _ _ fun tx ty h1 h2 => d16 _ (by omega)
  · refine bmp _ _ _ fun tx ty h1 h2 => ?_
    unfold State.bitmap4Texel
    obtain ⟨b, hb⟩ := fetch8_known h (m := .vram) (a := s.frameBase + 240 * ty + tx) (by show _ < 98304; omega)
    rw [hb]
    have := b.isLt
    exact indexedPx_known h n _ _ (by omega)
  · exact bmp _ _ _ fun tx ty h1 h2 => d16 _ (by omega)

theorem holdRow_known (size : Nat) (f : Nat → Fetch (Option Px)) (g : Nat → Option Px) (xs : List Nat)
    (h : ∀ a ∈ xs, f a = .ok (g a)) (k : Nat) (held : Option Px) :
    ∃ r, holdRow size f xs k held = .ok r := by
  induction xs generalizing k held with
  | nil => exact ⟨_, rfl⟩
  | cons x xs ih =>
    unfold holdRow
    by_cases hk : k = 0
    · simp only [if_pos hk]; rw [h x (by simp)]
      obtain ⟨r, hr⟩ := ih (fun a ha => h a (by simp [ha])) (if k + 1 > size then 0 else k + 1) (g x)
      dsimp only [bind, Except.bind]
      subst hk
      rw [hr]; exact ⟨_, rfl⟩
    · simp only [if_neg hk]
      obtain ⟨r, hr⟩ := ih (fun a ha => h a (by simp [ha])) (if k + 1 > size then 0 else k + 1) held
      dsimp only [bind, Except.bind, pure, Except.pure]
      rw [hr]; exact ⟨_, rfl⟩

theorem eq_range_map {α : Type} (l : List α) (h : l.length = 240) (d : α) :
    l = (List.range 240).map fun x => l.getD x d := by
  apply List.ext_getElem (by simp [h])
  intro i h1 h2; simp [h1]

/-- A layer's row is a function of the column (R340). -/
theorem bgRow_known {s : State} (h : s.VideoKnown) (n y) :
    ∃ g : Nat → Option Px, s.bgRow n y = .ok ((List.range 240).map g) := by
  have : ∃ r, s.bgRow n y = .ok r := by
    unfold State.bgRow
    split
    · exact ⟨_, rfl⟩
    · dsimp only
      have hk := fun x => layerPixel_known h (by assumption) n y x
      choose g hg using hk
      split_ifs
      · exact holdRow_known _ _ g _ (fun a _ => hg a) _ _
      · exact ⟨_, Fetch.mapM_known _ g _ fun a _ => hg a⟩
  obtain ⟨r, hr⟩ := this
  exact ⟨fun x => r.getD x none, by rw [hr, ← eq_range_map r (bgRow_length hr)]⟩

theorem zipWith_map_map {α β γ δ : Type} (f : α → β → γ) (l : List δ) (g : δ → α) (h : δ → β) :
    List.zipWith f (l.map g) (l.map h) = l.map fun x => f (g x) (h x) := by
  induction l with
  | nil => rfl
  | cons a l ih => simp

/-- Pushing the layers over the columns pushes them over each column (R300). -/
theorem pushLayers_known {s : State} (y) (ns : List (Fin 4)) (cell : Fin 4 → Nat → Option Px)
    (hc : ∀ n ∈ ns, s.bgRow n y = .ok ((List.range 240).map (cell n))) (g : Nat → Col) :
    ns.foldlM (s.pushLayer y) ((List.range 240).map g) =
      .ok ((List.range 240).map fun x => ns.foldl (fun c n => c.push n (cell n x)) (g x)) := by
  induction ns generalizing g with
  | nil => rfl
  | cons n ns ih =>
    rw [List.foldlM_cons]
    have : s.pushLayer y ((List.range 240).map g) n = .ok ((List.range 240).map fun x => (g x).push n (cell n x)) := by
      unfold State.pushLayer; rw [hc n (by simp)]
      dsimp only [bind, Except.bind, pure, Except.pure]
      rw [zipWith_map_map]
    rw [this]
    exact ih (fun m hm => hc m (by simp [hm])) _

/-! ## Objects over memories of known contents -/

theorem objTexel_known {s : State} (h : s.VideoKnown) (o : ObjAttr) (tx ty : Nat) :
    ∃ r, s.objTexel o tx ty = .ok r := by
  unfold State.objTexel
  by_cases h1 : bitmapMode (dispMode s.display.dispcnt) = true ∧ s.objTileUnit o tx ty * 32 % 0x8000 < 0x4000
  · rw [if_pos h1]; exact ⟨_, rfl⟩
  · rw [if_neg h1]
    have hoff : s.objTexelOffset o tx ty < 0x8000 := by
      unfold State.objTexelOffset; dsimp only; split_ifs <;> exact Nat.mod_lt _ (by decide)
    obtain ⟨b, hb⟩ := fetch8_known h (m := .vram) (a := 0x10000 + s.objTexelOffset o tx ty) (by show _ < 98304; omega)
    rw [hb]
    dsimp only [bind, Except.bind]
    by_cases hi : (if o.c8 = true then BitVec.toNat b else nibble b tx) = 0
    · rw [if_pos hi]; exact ⟨_, rfl⟩
    · rw [if_neg hi]
      have hp : o.pal < 16 := field_lt _ _ _
      have hn : nibble b tx < 16 := by unfold nibble; split_ifs <;> exact field_lt _ _ _
      have hb := b.isLt
      have hlt : ∀ i, (i = if o.c8 = true then b.toNat else nibble b tx) →
          (if o.c8 = true then 0x200 + 2 * i else 0x200 + 2 * (16 * o.pal + i)) + 1 < 1024 := by
        rintro i rfl; split_ifs <;> omega
      obtain ⟨c, hc⟩ := paletteColour_known h (hlt _ rfl)
      rw [hc]; exact ⟨_, rfl⟩

theorem objAttr_known {s : State} (h : s.VideoKnown) {i : Nat} (hi : i < 128) :
    ∃ a0 a1 a2, s.fetch16 .oam (8*i) = .ok a0 ∧ s.objAttr i = .ok ⟨i,a0,a1,a2⟩ := by
  obtain ⟨a, ha⟩ := fetch16_known h (m := .oam) (a := 8*i) (by show _ < 1024; omega)
  obtain ⟨b, hb⟩ := fetch16_known h (m := .oam) (a := 8*i+2) (by show _ < 1024; omega)
  obtain ⟨c, hc⟩ := fetch16_known h (m := .oam) (a := 8*i+4) (by show _ < 1024; omega)
  refine ⟨a,b,c,ha,?_⟩
  unfold State.objAttr; rw [ha,hb,hc]; rfl

theorem objMatrix_known {s : State} (h : s.VideoKnown) (g : Nat) (hg : g < 32) : ∃ pa pb pc pd : Half,
    s.HalfAt .oam (32*g+6) pa ∧ s.HalfAt .oam (32*g+14) pb ∧ s.HalfAt .oam (32*g+22) pc ∧ s.HalfAt .oam (32*g+30) pd ∧
    s.objMatrix g = .ok ⟨pa.toInt, pb.toInt, pc.toInt, pd.toInt⟩ := by
  obtain ⟨a, ha⟩ := fetch16_known h (m := .oam) (a := 32*g+6) (by show _ < 1024; omega)
  obtain ⟨b, hb⟩ := fetch16_known h (m := .oam) (a := 32*g+14) (by show _ < 1024; omega)
  obtain ⟨c, hc⟩ := fetch16_known h (m := .oam) (a := 32*g+22) (by show _ < 1024; omega)
  obtain ⟨d, hd⟩ := fetch16_known h (m := .oam) (a := 32*g+30) (by show _ < 1024; omega)
  refine ⟨a,b,c,d, halfAt_of_fetch16 ha, halfAt_of_fetch16 hb, halfAt_of_fetch16 hc, halfAt_of_fetch16 hd, ?_⟩
  unfold State.objMatrix; rw [ha,hb,hc,hd]; rfl

theorem mosObjH_eq (m : Half) : mosObjH m = m.toNat / 256 % 16 := by unfold mosObjH; rw [field_eq]; rfl

theorem mosObjV_eq (m : Half) : mosObjV m = m.toNat / 4096 := by
  unfold mosObjV; rw [field_eq]; have := m.isLt; norm_num; omega

/-- R355 in the arithmetic of R10. -/
theorem flatTexel_eq (s : State) (o : ObjAttr) (ix iy : Nat) :
    s.flatTexel o ix iy =
      let mx := if o.mos then ix - ix % (s.fx.mosaic.toNat / 256 % 16 + 1) else ix
      let my := if o.mos then iy - iy % (s.fx.mosaic.toNat / 4096 + 1) else iy
      (if o.hf then (objSize o.shape o.size).1 - 1 - mx else mx,
        if o.vf then (objSize o.shape o.size).2 - 1 - my else my) := by
  unfold State.flatTexel State.objSample
  rw [mosObjH_eq, mosObjV_eq]
  by_cases hm : o.mos = true <;> simp only [hm, if_true, if_false, Bool.false_eq_true]

/-- R356 in the arithmetic of R10. -/
theorem affineObjTexel_eq (s : State) (o : ObjAttr) (m : ObjMatrix) (ix iy : Nat) :
    s.affineObjTexel o m ix iy =
      let mx := if o.mos then ix - ix % (s.fx.mosaic.toNat / 256 % 16 + 1) else ix
      let my := if o.mos then iy - iy % (s.fx.mosaic.toNat / 4096 + 1) else iy
      let cx := (mx : Int) - (o.box.1 / 2 : Nat)
      let cy := (my : Int) - (o.box.2 / 2 : Nat)
      ((m.pa * cx + m.pb * cy) / 256 + ((objSize o.shape o.size).1 / 2 : Nat),
        (m.pc * cx + m.pd * cy) / 256 + ((objSize o.shape o.size).2 / 2 : Nat)) := by
  unfold State.affineObjTexel State.objSample
  rw [mosObjH_eq, mosObjV_eq]
  by_cases hm : o.mos = true <;> simp only [hm, if_true, if_false, Bool.false_eq_true]

/-- What drawing one object over a range of box columns does: a column of the screen takes the colour of the box
column that lies there, if there is one (R355, R356, R361). -/
theorem drawCols_known (o : ObjAttr) (f : Nat → Fetch (Option Colour)) (W : Nat)
    (hf : ∀ ix, ix < W → ∃ r, f ix = .ok r) (buf : ObjLine) (hl : buf.length = 240) :
    ∃ r, (List.range W).foldlM (fun buf ix => o.drawCol (f ix) ix buf) buf = .ok r ∧ r.length = 240 ∧
     ∀ x (hx : x < 240) (hr : x < r.length),
       (∀ c ix, ix < W → o.x + ix = x → f ix = .ok (some c) → r[x] = o.placeCol c (buf[x]'(by omega))) ∧
       ((∀ c ix, ix < W → o.x + ix = x → f ix ≠ .ok (some c)) → r[x] = buf[x]'(by omega)) := by
  induction W with
  | zero => refine ⟨buf, rfl, hl, fun x hx hr => ⟨fun c ix h => by omega, fun _ => rfl⟩⟩
  | succ W ih =>
    obtain ⟨r, h1, h2, h3⟩ := ih (fun ix h => hf ix (by omega))
    obtain ⟨t, ht⟩ := hf W (by omega)
    rw [List.range_succ, Fetch.foldlM_snoc _ _ _ _ _ h1]
    unfold ObjAttr.drawCol
    dsimp only
    by_cases hs : o.x + (W:Int) < 0 ∨ o.x + (W:Int) > 239
    · rw [if_pos hs]
      refine ⟨r, rfl, h2, fun x hx hr => ⟨fun c ix h hx' hc => ?_, fun hn => ?_⟩⟩
      · have : ix ≠ W := by rintro rfl; omega
        exact (h3 x hx hr).1 c ix (by omega) hx' hc
      · exact (h3 x hx hr).2 fun c ix h => hn c ix (by omega)
    · rw [if_neg hs, ht]
      cases t with
      | none =>
        refine ⟨r, rfl, h2, fun x hx hr => ⟨fun c ix h hx' hc => ?_, fun hn => ?_⟩⟩
        · have : ix ≠ W := by rintro rfl; rw [ht] at hc; cases hc
          exact (h3 x hx hr).1 c ix (by omega) hx' hc
        · exact (h3 x hx hr).2 fun c ix h => hn c ix (by omega)
      | some c =>
        refine ⟨r.modify (o.x + W).toNat (o.placeCol c), rfl, by simpa using h2, fun x hx hr => ?_⟩
        rw [List.getElem_modify]
        by_cases hxx : (o.x + (W:Int)).toNat = x
        · rw [if_pos hxx]
          have hr' : x < r.length := by omega
          have : r[x] = buf[x]'(by omega) := (h3 x hx hr').2 (fun c ix h hx' => by omega)
          rw [this]
          refine ⟨fun c' ix h hx' hc => ?_, fun hn => ?_⟩
          · have : ix = W := by omega
            subst this; rw [ht] at hc; cases hc; rfl
          · exact absurd ht (hn c W (by omega) (by omega))
        · rw [if_neg hxx]
          have hr' : x < r.length := by omega
          refine ⟨fun c' ix h hx' hc => ?_, fun hn => ?_⟩
          · have : ix ≠ W := by rintro rfl; omega
            exact (h3 x hx hr').1 c' ix (by omega) hx' hc
          · exact (h3 x hx hr').2 fun c ix h => hn c ix (by omega)

/-- What the scan of one object that is neither disabled nor prohibited does (R352). -/
theorem scanEnabled_known {s : State} (h : s.VideoKnown) {o : ObjAttr} {y : Nat} (hd : ¬ o.Disabled)
    (hp : ¬ o.Prohibited y) (buf : ObjLine) (hl : buf.length = 240) :
   ∃ r, s.scanEnabled y buf o = .ok r ∧ r.length = 240 ∧ ∀ x (hx : x < 240) (hr : x < r.length),
     (∀ c, s.Drawn o y x c → r[x] = o.placeCol c (buf[x]'(by omega))) ∧
     ((∀ c, ¬ s.Drawn o y x c) → r[x] = buf[x]'(by omega)) := by
  have hyl : o.y < 256 := field_lt _ _ _
  have hiy : (((y + 256 - o.y) % 256 : Nat) : Int) = ((y:Int) - o.y) % 256 := by omega
  unfold State.scanEnabled
  dsimp only
  have hs3 : o.shape ≠ 3 := fun hc => hp ⟨hd, .inl hc⟩
  rw [if_neg hs3]
  generalize hiyn : (y + 256 - o.y) % 256 = iy at hiy ⊢
  by_cases hv : o.box.2 ≤ iy
  · rw [if_pos hv]
    refine ⟨buf, rfl, hl, fun x hx hr => ⟨fun c hc => ?_, fun _ => rfl⟩⟩
    obtain ⟨_, ix, iy', h1, h2, h3, h4, h5⟩ := hc
    omega
  · rw [if_neg hv]
    have hm : o.mode ≠ 3 := fun hc => hp ⟨hd, .inr ⟨by rw [← hiy]; omega, hc⟩⟩
    rw [if_neg hm]
    by_cases ha : o.aff = true
    · rw [if_pos ha]
      obtain ⟨pa,pb,pc,pd,h1,h2,h3,h4,h5⟩ := objMatrix_known h o.grp (field_lt _ _ _)
      unfold State.drawAffine
      rw [h5]
      dsimp only [bind, Except.bind]
      let m : ObjMatrix := ⟨pa.toInt, pb.toInt, pc.toInt, pd.toInt⟩
      obtain ⟨r, hr1, hr2, hr3⟩ := drawCols_known o
        (fun ix =>
          let t := s.affineObjTexel o m ix iy
          if inside t.1 (objSize o.shape o.size).1 && inside t.2 (objSize o.shape o.size).2 then
            s.objTexel o t.1.toNat t.2.toNat
          else .ok none)
        o.box.1
        (fun ix _ => by dsimp only; split_ifs; exact objTexel_known h _ _ _; exact ⟨_, rfl⟩) buf hl
      refine ⟨r, hr1, hr2, fun x hx hr => ⟨fun c hc => ?_, fun hn => ?_⟩⟩
      · obtain ⟨_, ix, iy', g1, g2, g3, g4, g5⟩ := hc
        have : iy' = iy := by omega
        subst this
        rw [if_pos ha] at g5
        obtain ⟨qa,qb,qc,qd,tx,ty,k1,k2,k3,k4,k5,k6,k7,k8,k9⟩ := g5
        obtain rfl := halfAt_unique k1 h1
        obtain rfl := halfAt_unique k2 h2
        obtain rfl := halfAt_unique k3 h3
        obtain rfl := halfAt_unique k4 h4
        refine (hr3 x hx hr).1 c ix g1 g3 ?_
        have e1 : (s.affineObjTexel o ⟨qa.toInt, qb.toInt, qc.toInt, qd.toInt⟩ ix iy').1 = tx := by
          rw [k7]; rw [affineObjTexel_eq]
        have e2 : (s.affineObjTexel o ⟨qa.toInt, qb.toInt, qc.toInt, qd.toInt⟩ ix iy').2 = ty := by
          rw [k8]; rw [affineObjTexel_eq]
        change (if inside (s.affineObjTexel o _ ix iy').1 _ &&
          inside (s.affineObjTexel o _ ix iy').2 _ then _ else _) = _
        rw [e1, e2, if_pos]
        · simpa using k9
        · simp [inside]; omega
      · refine (hr3 x hx hr).2 fun c ix g1 g2 g3 => hn c ⟨hd, ix, iy, g1, by omega, g2, hiy, ?_⟩
        rw [if_pos ha]
        dsimp only at g3
        split_ifs at g3 with hin
        swap
        · cases g3
        rw [Bool.and_eq_true] at hin
        simp only [inside, decide_eq_true_eq] at hin
        refine ⟨pa,pb,pc,pd,_,_,h1,h2,h3,h4,?_,?_,?_,?_,g3⟩
        · omega
        · omega
        · rw [Int.toNat_of_nonneg hin.1.1]
          rw [affineObjTexel_eq]
        · rw [Int.toNat_of_nonneg hin.2.1]
          rw [affineObjTexel_eq]
    · rw [if_neg ha]
      unfold State.drawFlat
      obtain ⟨r, hr1, hr2, hr3⟩ := drawCols_known o
        (fun ix => s.objTexel o (s.flatTexel o ix iy).1 (s.flatTexel o ix iy).2) (objSize o.shape o.size).1
        (fun ix _ => objTexel_known h _ _ _) buf hl
      have hb : o.box.1 = (objSize o.shape o.size).1 := by
        unfold ObjAttr.box ObjAttr.doubled; simp [ha]
      refine ⟨r, hr1, hr2, fun x hx hr => ⟨fun c hc => ?_, fun hn => ?_⟩⟩
      · obtain ⟨_, ix, iy', g1, g2, g3, g4, g5⟩ := hc
        have : iy' = iy := by omega
        subst this
        rw [if_neg ha] at g5
        refine (hr3 x hx hr).1 c ix (by omega) g3 ?_
        rw [← g5]; rw [flatTexel_eq]
      · refine (hr3 x hx hr).2 fun c ix g1 g2 g3 => hn c ⟨hd, ix, iy, by omega, by omega, g2, hiy, ?_⟩
        rw [if_neg ha]
        rw [← g3]; rw [flatTexel_eq]

/-- What one entry of the object scan does (R352). -/
theorem scanObject_known {s : State} (h : s.VideoKnown) {i y : Nat} (hi : i < 128)
    {o : ObjAttr} (ho : s.objAttr i = .ok o)
    (hp : ¬ o.Prohibited y) (buf : ObjLine) (hl : buf.length = 240) :
   ∃ r, s.scanObject y buf i = .ok r ∧ r.length = 240 ∧ ∀ x (hx : x < 240) (hr : x < r.length),
     (∀ c, s.Drawn o y x c → r[x] = o.placeCol c (buf[x]'(by omega))) ∧
     ((∀ c, ¬ s.Drawn o y x c) → r[x] = buf[x]'(by omega)) := by
  obtain ⟨a0,a1,a2,h1,h2⟩ := objAttr_known h hi
  rw [h2] at ho; cases ho
  unfold State.scanObject
  rw [h1]
  dsimp only [bind, Except.bind]
  by_cases hd : objDisabled a0 = true
  · rw [if_pos hd]
    refine ⟨buf, rfl, hl, fun x hx hr => ⟨fun c hc => ?_, fun _ => rfl⟩⟩
    refine absurd ?_ hc.1
    simp only [objDisabled, Bool.and_eq_true, Bool.not_eq_true'] at hd
    exact ⟨hd.1, hd.2⟩
  · rw [if_neg hd, h2]
    refine scanEnabled_known h ?_ hp buf hl
    rintro ⟨e1, e2⟩
    apply hd
    simp only [objDisabled, Bool.and_eq_true, Bool.not_eq_true']
    exact ⟨e1, e2⟩

theorem State.Drawn.unique {s : State} {o y x c d} (h1 : s.Drawn o y x c) (h2 : s.Drawn o y x d) : c = d := by
  obtain ⟨_, ix, iy, a1, a2, a3, a4, a5⟩ := h1
  obtain ⟨_, jx, jy, b1, b2, b3, b4, b5⟩ := h2
  obtain rfl : ix = jx := by omega
  obtain rfl : iy = jy := by omega
  dsimp only at a5 b5
  by_cases ha : o.aff = true
  · rw [if_pos ha] at a5 b5
    obtain ⟨qa,qb,qc,qd,tx,ty,k1,k2,k3,k4,k5,k6,k7,k8,k9⟩ := a5
    obtain ⟨pa,pb,pc,pd,ux,uy,l1,l2,l3,l4,l5,l6,l7,l8,l9⟩ := b5
    obtain rfl := halfAt_unique k1 l1
    obtain rfl := halfAt_unique k2 l2
    obtain rfl := halfAt_unique k3 l3
    obtain rfl := halfAt_unique k4 l4
    have : tx = ux := by omega
    have : ty = uy := by omega
    subst_vars
    rw [k9] at l9; cases l9; rfl
  · rw [if_neg ha] at a5 b5
    rw [a5] at b5; cases b5; rfl

/-! ## The start of a line -/

/-- R341: what `mosaic_line_start` does. -/
theorem mosaicLineStart_started (s : State) (y : Byte) : LineStarted s (s.mosaicLineStart y.toNat) y := by
  unfold State.mosaicLineStart LineStarted
  by_cases h : s.mos.v = 0
  · rw [if_pos h, if_pos h, h]
    refine ⟨rfl, fun n => ?_, fun n => ?_, ?_, ?_⟩
    · fin_cases n <;> rfl
    · cases n <;> rfl
    · rfl
    · simp
  · rw [if_neg h, if_neg h]
    refine ⟨rfl, fun _ => rfl, fun n => ?_, rfl, rfl⟩
    cases n <;> simp [h]

end Sys2Proof.Machine
end

