-- ==== Sys2Proof/Tests/Slice0.lean ====
section
/-! SUPPORT. The model's own tests. Expected values are taken from the spec: the words of `opcode_table.json`
and R110 to R120, the examples of the rules, and the derived vectors of `95_test_vectors.md`. The last part shows,
for every statement with hypotheses, states and operands that meet them. -/

set_option Elab.async false

namespace Sys2Proof.Tests

open Sys2Proof Sys2Proof.Machine Sys2Proof.Config

/-! ## Well-formedness -/

theorem test_irqFlag_kind_bound : (Instr.irqFlag 13).wf = true ∧ (Instr.irqFlag 14).wf = false ∧
    (Instr.irqFlag 15).wf = false := by decide

theorem test_renderLine_bound : (Instr.renderLine 159).wf = true ∧ (Instr.renderLine 160).wf = false ∧
    (Instr.renderLine 255).wf = false := by decide

/-! ## Decoding: a word of every row, with every operand field nonzero -/

theorem test_decode_display :
    decode 0x0800000400000180 = .ok (.wDispcnt 1 0x80) ∧ decode 0x0000000400000100 = .ok (.rDispcnt 1) ∧
    decode 0x08000004000002FF = .ok (.wNoreg002 0 0xFF) ∧ decode 0x0000000400000300 = .ok (.rNoreg002 1) ∧
    decode 0x08000004000005A0 = .ok (.wDispstat 1 0xA0) ∧ decode 0x0000000400000400 = .ok (.rDispstat 0) ∧
    decode 0x0800000400000610 = .ok (.wVcount 0 0x10) ∧ decode 0x0000000400000600 = .ok (.rVcount 0) := by
  decide +kernel

theorem test_decode_background :
    decode 0x0800000400000F81 = .ok (.wBgcnt 3 1 0x81) ∧ decode 0x0000000400000A00 = .ok (.rBgcnt 1 0) ∧
    decode 0x08000004000013FF = .ok (.wBgofs 0 .v 1 0xFF) ∧ decode 0x0000000400001C00 = .ok (.rBgofs 3 .h 0) ∧
    decode 0x0800000400003501 = .ok (.wBgp .bg3 .pc 1 0x01) ∧ decode 0x0000000400002200 = .ok (.rBgp .bg2 .pb 0) ∧
    decode 0x0800000400003D01 = .ok (.wBgref .bg3 .y 1 0x01) ∧ decode 0x0000000400002B00 = .ok (.rBgref .bg2 .x 3) := by
  decide +kernel

theorem test_decode_window :
    decode 0x0800000400004328 = .ok (.wWinh .win1 1 0x28) ∧ decode 0x0000000400004100 = .ok (.rWinh .win0 1) ∧
    decode 0x0800000400004650 = .ok (.wWinv .win1 0 0x50) ∧ decode 0x0000000400004400 = .ok (.rWinv .win0 0) ∧
    decode 0x08000004000048FF = .ok (.wWinin 0 0xFF) ∧ decode 0x0000000400004900 = .ok (.rWinin 1) ∧
    decode 0x0800000400004B10 = .ok (.wWinout 1 0x10) ∧ decode 0x0000000400004A00 = .ok (.rWinout 0) := by
  decide +kernel

theorem test_decode_effect :
    decode 0x0800000400004C03 = .ok (.wMosaic 0 0x03) ∧ decode 0x0000000400004D00 = .ok (.rMosaic 1) ∧
    decode 0x0800000400004E01 = .ok (.wNoreg04e 0 0x01) ∧ decode 0x0000000400004F00 = .ok (.rNoreg04e 1) ∧
    decode 0x0800000400005041 = .ok (.wBldcnt 0 0x41) ∧ decode 0x0000000400005100 = .ok (.rBldcnt 1) ∧
    decode 0x0800000400005311 = .ok (.wBldalpha 1 0x11) ∧ decode 0x0000000400005200 = .ok (.rBldalpha 0) ∧
    decode 0x0800000400005410 = .ok (.wBldy 0 0x10) ∧ decode 0x0000000400005500 = .ok (.rBldy 1) ∧
    decode 0x0800000400005701 = .ok (.wNoreg056 1 0x01) ∧ decode 0x0000000400005600 = .ok (.rNoreg056 0) ∧
    decode 0x0800000400005F01 = .ok (.wNoreg058 7 0x01) ∧ decode 0x0000000400005A00 = .ok (.rNoreg058 2) := by
  decide +kernel

theorem test_decode_interrupt_bank :
    decode 0x080000040002013F = .ok (.wIe 1 0x3F) ∧ decode 0x0000000400020000 = .ok (.rIe 0) ∧
    decode 0x0800000400020201 = .ok (.wIf 0 0x01) ∧ decode 0x0000000400020300 = .ok (.rIf 1) ∧
    decode 0x0800000400020801 = .ok (.wIme 0 0x01) ∧ decode 0x0000000400020900 = .ok (.rIme 1) ∧
    decode 0x0800000400020AFF = .ok (.wNoreg20a 0 0xFF) ∧ decode 0x0000000400020B00 = .ok (.rNoreg20a 1) := by
  decide +kernel

theorem test_decode_video :
    decode 0x080000050003FF1F = .ok (.wPram 0x3FF 0x1F) ∧ decode 0x0000000500000100 = .ok (.rPram 1) ∧
    decode 0x0800000600402011 = .ok (.wVramLo 0x4020 0x11) ∧ decode 0x000000060000FF00 = .ok (.rVramLo 0x00FF) ∧
    decode 0x08000006017FFF5A = .ok (.wVramHi 0x7FFF 0x5A) ∧ decode 0x0000000601002000 = .ok (.rVramHi 0x0020) ∧
    decode 0x0800000700000102 = .ok (.wOam 1 0x02) ∧ decode 0x000000070003FF00 = .ok (.rOam 0x3FF) := by
  decide +kernel

theorem test_decode_sched :
    decode 0x1007000000000032 = .ok (.schedAdd 7 50) ∧ decode 0x1002FFFFFFFFFFFF = .ok (.schedAdd 2 (-1)) ∧
    decode 0x1100000000000000 = .ok .schedPop ∧ decode 0x1209000000000000 = .ok (.schedCancel 9) ∧
    decode 0x13000000000004D0 = .ok (.schedAdvance 1232) ∧ decode 0x1400000000000000 = .ok .schedDrain ∧
    decode 0x1500000000000000 = .ok .schedHaltskip ∧ decode 0x1600000000000000 = .ok .schedNext ∧
    decode 0x1700000000000000 = .ok .schedNow := by decide +kernel

theorem test_decode_event_irq_host_render :
    decode 0x2000000000000110 = .ok (.eventHblankStart 272) ∧ decode 0x2100000000000000 = .ok (.eventHblankEnd 0) ∧
    decode 0x3000000000000003 = .ok (.irqFlag 3) ∧ decode 0x3100000000000000 = .ok .irqLine ∧
    decode 0x3200000000000000 = .ok .irqHaltexit ∧ decode 0x4000000000000000 = .ok .hostReadframe ∧
    decode 0x4100000000000000 = .ok .hostClearready ∧ decode 0x4200000000000001 = .ok (.hostSetcc 1) ∧
    decode 0x4300000000000000 = .ok .hostReady ∧ decode 0x4400000000000000 = .ok .hostFrames ∧
    decode 0x500000000000009F = .ok (.renderLine 159) := by decide +kernel

/-- `95_test_vectors.md` 2.1: the refused words, with their reasons. -/
theorem test_decode_refused :
    decode 0x6000000000000000 = .error .reservedPort ∧ decode 0xF000000000000000 = .error .reservedPort ∧
    decode 0x1800000000000000 = .error .reservedSub ∧ decode 0x2200000000000000 = .error .reservedSub ∧
    decode 0x4500000000000000 = .error .reservedSub ∧ decode 0x5100000000000000 = .error .reservedSub ∧
    decode 0x0000000400000001 = .error .nonzeroReserved ∧ decode 0x0C00000400000000 = .error .nonzeroReserved ∧
    decode 0x1301000000000005 = .error .nonzeroReserved ∧ decode 0x4200000000000002 = .error .nonzeroReserved ∧
    decode 0x0000000400020400 = .error .unownedAddress ∧ decode 0x0000000400006000 = .error .unownedAddress ∧
    decode 0x0000000601800000 = .error .unownedAddress ∧ decode 0x300000000000000E = .error .badKind ∧
    decode 0x50000000000000A0 = .error .badLine := by decide +kernel

/-! ## One step -/

/-- The state after reset, but for empty framebuffers. -/
def bare : State := { State.reset with output := ⟨[], [], false, 0, false⟩ }

/-- `p` holds of the state that a step running the word `w` gives. -/
def after (w : OpWord) (s : State) (p : State → Bool) : Bool :=
  match step { s with ports := { s.ports with input := [w] } } with
  | .next t => p t
  | _ => false

/-- `p` holds of the state that the internal operation `i` gives. -/
def internally (i : Instr) (s : State) (p : State → Bool) : Bool :=
  match exec i { s with ports := { s.ports with issuer := .internal } } with
  | .next t => p t
  | _ => false

/-- The bytes of `l` stored in a video memory. -/
def with8 (s : State) (m : VMem) (l : List (Nat × Byte)) : State :=
  l.foldl (fun s c => s.storeByte m c.1 c.2) s

/-- The halfwords of `l` stored in a video memory. -/
def with16 (s : State) (m : VMem) (l : List (Nat × Half)) : State :=
  l.foldl (fun s c => (s.storeByte m c.1 (c.2.extractLsb' 0 8)).storeByte m (c.1 + 1) (c.2.extractLsb' 8 8)) s

/-- The step put one value on the ports. -/
def returns (s : State) (o : PortOut) : Bool := decide (s.ports.out = [o])

/-! ### Registers (`95_test_vectors.md` 2.2) -/

/-- R143, R144: bit 3 is not writable; the other lane is kept. -/
theorem test_dispcnt :
    after 0x08000004000000FF bare (fun t => t.display.dispcnt = 0x00F7) ∧
    after 0x0800000400000105 { bare with display := ⟨0x0003, 0, 0⟩ } (fun t => t.display.dispcnt = 0x0503) ∧
    after 0x0000000400000100 { bare with display := ⟨0x0503, 0, 0⟩ } (returns · (.rdata 0x05)) := by decide +kernel

/-- R147, R148: the status bits are not writable and read their values. -/
theorem test_dispstat :
    after 0x08000004000004FF { bare with display := ⟨0, 0x0001, 0⟩ } (fun t => t.display.dispstat = 0x0039) ∧
    after 0x08000004000005A0 bare (fun t => t.display.dispstat = 0xA000) ∧
    after 0x0000000400000400 { bare with display := ⟨0, 0x0506, 5⟩ } (returns · (.rdata 0x06)) := by decide +kernel

/-- R149, R150. -/
theorem test_vcount :
    after 0x0800000400000610 { bare with display := ⟨0, 0, 227⟩ } (fun t => t.display.vcount = 227) ∧
    after 0x0000000400000600 { bare with display := ⟨0, 0, 227⟩ } (returns · (.rdata 0xE3)) ∧
    after 0x0000000400000700 { bare with display := ⟨0, 0, 227⟩ } (returns · (.rdata 0)) := by decide +kernel

/-- R145, R146. -/
theorem test_noreg :
    after 0x0800000400000201 bare (fun t => t = { bare with ports := t.ports }) ∧
    after 0x0000000400005A00 bare (returns · (.rdata 0)) := by decide +kernel

/-- R151, R152: bits 5:4 are not stored. -/
theorem test_bgcnt :
    after 0x08000004000008FF bare (fun t => t.bgs.bg0.cnt = 0x00CF) ∧
    after 0x0800000400000C81 bare (fun t => t.bgs.bg2.cnt = 0x0081) ∧
    after 0x0000000400000E00 { bare with bgs := { bare.bgs with bg3 := ⟨0x12FF, 0, 0⟩ } } (returns · (.rdata 0xCF)) := by
  decide +kernel

/-- R153, R154. -/
theorem test_bgofs :
    after 0x08000004000013FF { bare with bgs := { bare.bgs with bg0 := ⟨0, 0x11, 0x22⟩ } }
      (fun t => t.bgs.bg0 = ⟨0, 0x11, 0x0122⟩) ∧
    after 0x0000000400001000 { bare with bgs := { bare.bgs with bg0 := ⟨0, 0x11, 0x22⟩ } } (returns · (.rdata 0)) := by
  decide +kernel

/-- R155, R156. -/
theorem test_bgp :
    after 0x0800000400002101 bare (fun t => t.bgs.aff2.pa = 0x0100 ∧ t.bgs.aff2.refX = 0) ∧
    after 0x0000000400002100 { bare with bgs := { bare.bgs with aff2 := { Affine.reset with pa := 0x0100 } } }
      (returns · (.rdata 0)) := by decide +kernel

/-- R157, R158: lane 3 keeps four bits, the internal reference is reloaded, the mosaic reference is not. -/
theorem test_bgref :
    after 0x0800000400002BFA { bare with bgs := { bare.bgs with aff2 := { Affine.reset with x := 0x00BCDEF1 } } }
      (fun t => t.bgs.aff2.x = 0x0ABCDEF1 ∧ t.bgs.aff2.refX = 0x0ABCDEF1 ∧ t.bgs.aff2.mosRefX = 0) ∧
    after 0x0800000400003D01 bare (fun t => t.bgs.aff3.y = 0x100 ∧ t.bgs.aff3.refY = 0x100 ∧ t.bgs.aff3.refX = 0) ∧
    after 0x0000000400002900 { bare with bgs := { bare.bgs with aff2 := { Affine.reset with x := 0x800 } } }
      (returns · (.rdata 0)) := by decide +kernel

/-- R159 to R162. -/
theorem test_window_edges :
    after 0x0800000400004128 bare (fun t => t.win.win0h = 0x2800) ∧
    after 0x0800000400004650 bare (fun t => t.win.win1v = 0x0050) ∧
    after 0x0000000400004100 { bare with win := ⟨0xFFFF, 0, 0, 0, 0, 0⟩ } (returns · (.rdata 0)) ∧
    after 0x0000000400004400 { bare with win := ⟨0, 0, 0xFFFF, 0, 0, 0⟩ } (returns · (.rdata 0)) := by decide +kernel

/-- R163 to R166. -/
theorem test_window_masks :
    after 0x08000004000049FF bare (fun t => t.win.winin = 0x3F00) ∧
    after 0x0000000400004900 { bare with win := ⟨0, 0, 0, 0, 0x1F3F, 0⟩ } (returns · (.rdata 0x1F)) ∧
    after 0x0800000400004B10 bare (fun t => t.win.winout = 0x1000) ∧
    after 0x0000000400004A00 { bare with win := ⟨0, 0, 0, 0, 0, 0x103F⟩ } (returns · (.rdata 0x3F)) := by decide +kernel

/-- R167 to R174. -/
theorem test_effects :
    after 0x0800000400004C03 bare (fun t => t.fx.mosaic = 3) ∧
    after 0x0000000400004C00 { bare with fx := ⟨3, 0, 0, 0⟩ } (returns · (.rdata 0)) ∧
    after 0x08000004000051FF bare (fun t => t.fx.bldcnt = 0x3F00) ∧
    after 0x0000000400005100 { bare with fx := ⟨0, 0x0441, 0, 0⟩ } (returns · (.rdata 4)) ∧
    after 0x08000004000052FF { bare with fx := ⟨0, 0, 0x1100, 0⟩ } (fun t => t.fx.bldalpha = 0x111F) ∧
    after 0x0000000400005200 { bare with fx := ⟨0, 0, 0x111F, 0⟩ } (returns · (.rdata 0x1F)) ∧
    after 0x08000004000054FF bare (fun t => t.fx.bldy = 0x1F) ∧ after 0x08000004000055FF bare (fun t => t.fx.bldy = 0) ∧
    after 0x0000000400005400 { bare with fx := ⟨0, 0, 0, 0x1F⟩ } (returns · (.rdata 0)) := by decide +kernel

/-- R175 to R180. -/
theorem test_interrupt_bank :
    after 0x08000004000201FF bare (fun t => t.irq.ie = 0x3F00) ∧
    after 0x0000000400020000 { bare with irq := ⟨5, 0, 0⟩ } (returns · (.rdata 5)) ∧
    after 0x08000004000203FF { bare with irq := ⟨0, 0x2001, 0⟩ } (fun t => t.irq.iflag = 0x0001) ∧
    after 0x0800000400020201 { bare with irq := ⟨0, 0x0003, 0⟩ } (fun t => t.irq.iflag = 0x0002) ∧
    after 0x0000000400020200 { bare with irq := ⟨0, 2, 0⟩ } (returns · (.rdata 2)) ∧
    after 0x08000004000208FF bare (fun t => t.irq.ime = 1) ∧
    after 0x0000000400020800 { bare with irq := ⟨0, 0, 1⟩ } (returns · (.rdata 1)) := by decide +kernel

/-- R181 to R186. -/
theorem test_video_memory :
    after 0x080000050003FF7F bare (fun t => t.video.pram = ⟨some 0, [(0x3FF, 0x7F)]⟩) ∧
    after 0x0000000500000100 (with16 bare .pram [(0, 0x7FFF)]) (returns · (.rdata 0x7F)) ∧
    after 0x0800000600400011 bare (fun t => t.video.vram = ⟨some 0, [(0x4000, 0x11)]⟩) ∧
    after 0x0000000600400000 (with8 bare .vram [(0x4000, 0x11)]) (returns · (.rdata 0x11)) ∧
    after 0x08000006017FFF5A bare (fun t => t.video.vram = ⟨some 0, [(0x17FFF, 0x5A)]⟩) ∧
    after 0x00000006017FFF00 (with8 bare .vram [(0x17FFF, 0x5A)]) (returns · (.rdata 0x5A)) ∧
    after 0x0800000700000102 bare (fun t => t.video.oam = ⟨some 0, [(1, 2)]⟩) ∧
    after 0x0000000700000100 (with16 bare .oam [(0, 0x0200)]) (returns · (.rdata 2)) := by decide +kernel

/-- Storing what an unlisted byte reads as removes the entry. -/
theorem test_memory_canonical : ((Memory.mk (some 0) [(3, 7)]).write 3 0).cells = [] := by decide

/-! ### The scheduler (`95_test_vectors.md` 1.1 and 2.3) -/

/-- A state at `ticks` with the queue `q`. -/
def at' (ticks : Int) (q : List Event) (seq : BitVec 64) : State :=
  { bare with sched := { bare.sched with ticks := ticks, queue := q, nextSeq := seq } }

/-- S1 to S4. -/
theorem test_sched_add :
    after 0x1007000000000032 (at' 100 [⟨960, 0, 0⟩] 1)
      (fun t => t.sched.queue = [⟨150, 7, 1⟩, ⟨960, 0, 0⟩] ∧ t.sched.nextSeq = 2) ∧
    after 0x100000000000000A bare (fun t => t.sched = bare.sched ∧
      t.faults = [⟨.reservedTag 0, .word 0x100000000000000A⟩]) ∧
    after 0x1002FFFFFFFFFFFF bare (fun t => t.faults = [⟨.negativeDelay 2 (-1), .word 0x1002FFFFFFFFFFFF⟩]) ∧
    after 0x10027FFFFFFFFFFF bare (fun t => t.sched.queue = [⟨960, 0, 0⟩, ⟨140737488355327, 2, 1⟩]) := by
  decide +kernel

/-- R201: equal due times keep their order; a full queue and an overflow fault. -/
theorem test_sched_add_order_and_bounds :
    after 0x10030000000003C0 bare (fun t => t.sched.queue = [⟨960, 0, 0⟩, ⟨960, 3, 1⟩]) ∧
    after 0x1003000000000001 { bare with sched := { bare.sched with capacity := some 1 } }
      (fun t => t.faults.map FaultRecord.kind = [.queueFull 3]) ∧
    after 0x1003000000000001 (at' (2 ^ 63 - 2) [⟨960, 0, 0⟩] 1)
      (fun t => t.faults.map FaultRecord.kind = [.tickOverflow (.due 3 (2 ^ 63 - 1))]) := by decide +kernel

/-- R203, S12, S13. -/
theorem test_sched_pop :
    internally .schedPop (at' 0 [⟨960, 0, 0⟩, ⟨960, 7, 3⟩] 4)
      (fun t => t.sched.queue = [⟨960, 7, 3⟩] ∧ returns t (.revent 960 0)) ∧
    after 0x1100000000000000 bare (fun t => t.sched = bare.sched ∧
      t.faults.map FaultRecord.kind = [.internalOnly 0x1100000000000000]) ∧
    internally .schedPop (at' 0 [] 1) (fun t => t.faults.map FaultRecord.kind = [.popEmpty]) := by decide +kernel

/-- S5, S6, S7. -/
theorem test_sched_cancel :
    after 0x1209000000000000 (at' 0 [⟨300, 9, 2⟩, ⟨300, 9, 3⟩, ⟨500, 9, 1⟩, ⟨960, 0, 0⟩] 4)
      (fun t => t.sched.queue = [⟨300, 9, 3⟩, ⟨500, 9, 1⟩, ⟨960, 0, 0⟩]) ∧
    after 0x1209000000000000 bare (fun t => t.sched = bare.sched ∧ t.faults = []) ∧
    after 0x1201000000000000 bare (fun t => t.faults.map FaultRecord.kind = [.reservedTag 1]) := by decide +kernel

/-- S8, and 1.2: an advance fires nothing, and a negative one faults. -/
theorem test_sched_advance :
    after 0x1300000000000014 (at' 950 [⟨960, 0, 0⟩] 1)
      (fun t => t.sched.ticks = 970 ∧ t.sched.queue = [⟨960, 0, 0⟩]) ∧
    after 0x1300FFFFFFFFFFFF bare (fun t => t.sched = bare.sched ∧
      t.faults.map FaultRecord.kind = [.timeDecrease (-1)]) := by decide +kernel

/-- S9, S10. -/
theorem test_sched_drain :
    after 0x1400000000000000 (at' 970 [⟨960, 0, 0⟩] 1) (fun t => t.sched = ⟨970, [⟨1232, 1, 1⟩], 2, false, none⟩ ∧
      t.display.dispstat = 2 ∧ t.ports.out = [.signal .dmaHblank]) ∧
    after 0x1400000000000000 (at' 12 [⟨5, 2, 1⟩, ⟨960, 0, 0⟩] 2)
      (fun t => t.ports.out = [.signal (.fire 2 7)] ∧ t.sched.queue = [⟨960, 0, 0⟩]) := by decide +kernel

/-- S20, S21: what a callback may not do. -/
theorem test_callback_faults :
    after 0x1400000000000000 { at' 0 [⟨0, 2, 1⟩] 2 with ports := { bare.ports with responses := [[0x1400000000000000]] } }
      (fun t => t.faults = [⟨.drainReentry, .word 0x1400000000000000⟩]) ∧
    after 0x1400000000000000 { at' 0 [⟨0, 2, 1⟩] 2 with ports := { bare.ports with responses := [[0x1300000000000001]] } }
      (fun t => t.faults.map FaultRecord.kind = [.callbackAdvance 1]) := by decide +kernel

/-- R202, R211: an event that a callback adds due now fires in the same drain. -/
theorem test_callback_adds :
    after 0x1400000000000000 { at' 0 [⟨0, 2, 1⟩] 2 with ports := { bare.ports with responses := [[0x1003000000000000]] } }
      (fun t => t.ports.out = [.signal (.fire 2 0), .signal (.fire 3 0)] ∧ t.sched.queue = []) := by decide +kernel

/-- S15, S18, S19. -/
theorem test_sched_haltskip :
    after 0x1500000000000000 bare (fun t => t.sched = ⟨960, [⟨1232, 1, 1⟩], 2, false, none⟩ ∧
      t.display.dispstat = 2 ∧ t.ports.out = [.signal .dmaHblank, .rbit true]) ∧
    after 0x1500000000000000 { bare with irq := ⟨2, 2, 0⟩ } (fun t => t.sched = bare.sched ∧ returns t (.rbit false)) := by
  decide +kernel

/-- S16, the second call of S17, one event fired of two overdue (D19), and the stuck case of R210. -/
theorem test_sched_haltskip_edges :
    after 0x1500000000000000 (at' 1000 [⟨960, 0, 0⟩] 1) (fun t => t.sched = ⟨1000, [⟨1232, 1, 1⟩], 2, false, none⟩) ∧
    after 0x1500000000000000 (at' 960 [⟨960, 2, 1⟩, ⟨1232, 1, 2⟩] 3) (fun t =>
      t.sched = ⟨960, [⟨1232, 1, 2⟩], 3, false, none⟩ ∧ t.ports.out = [.signal (.fire 2 0), .rbit true]) ∧
    after 0x1500000000000000 (at' 970 [⟨960, 2, 0⟩, ⟨965, 3, 1⟩] 2) (fun t =>
      t.sched = ⟨970, [⟨965, 3, 1⟩], 2, false, none⟩ ∧ t.ports.out = [.signal (.fire 2 10), .rbit true]) ∧
    (match execSchedHaltskip (at' 0 [] 1) with | .fault .haltStuck => true | _ => false) = true := by decide +kernel

/-- S14. -/
theorem test_sched_queries :
    after 0x1600000000000000 bare (returns · (.rticks 960)) ∧ after 0x1700000000000000 bare (returns · (.rticks 0)) ∧
    after 0x1600000000000000 (at' 0 [] 1) (returns · (.rticks 0x7FFFFFFFFFFFFFFF)) := by decide +kernel

/-! ### The LCD (`95_test_vectors.md` 2.4) -/

/-- E5 and E8: a lateness of 273, and scanline 160. -/
theorem test_hblank_start :
    internally (.eventHblankStart 273) (at' 1233 [] 1) (fun t => t.display.dispstat = 2 ∧
      t.ports.out = [.signal .dmaHblank] ∧ t.faults = [⟨.negativeDelay 1 (-1), .hblankStart 273⟩]) ∧
    internally (.eventHblankStart 0) { at' 198080 [] 7 with display := ⟨0, 0x0011, 160⟩ } (fun t =>
      t.display.dispstat = 0x0013 ∧ t.irq.iflag = 2 ∧ t.ports.out = [] ∧ t.sched.queue = [⟨198352, 1, 7⟩]) := by
  decide +kernel

/-- The last step of 1.4 and E11: vblank entry, and the wrap to scanline 0. -/
theorem test_hblank_end :
    internally (.eventHblankEnd 0)
      { at' 197120 [] 320 with display := ⟨0, 0xA03A, 159⟩, bgs := { bare.bgs with aff2 := { Affine.reset with x := 0x1000 } } }
      (fun t => t.display = ⟨0, 0xA03D, 160⟩ ∧ t.irq.iflag = 5 ∧ t.ports.out = [.signal .dmaVblank] ∧
        t.output.frameReady = true ∧ t.output.frameCounter = 1 ∧ t.bgs.aff2.refX = 0x1000 ∧
        t.sched.queue = [⟨198080, 0, 320⟩]) ∧
    internally (.eventHblankEnd 0) { at' 280896 [] 9 with display := ⟨0, 0x0022, 227⟩, mos := ⟨3, 225⟩ } (fun t =>
      t.display = ⟨0, 0x0024, 0⟩ ∧ t.irq.iflag = 4 ∧ t.mos = ⟨0, 225⟩) := by decide +kernel

/-- E10 and E17. -/
theorem test_lcd_edges :
    internally (.eventHblankEnd 0) { at' 279664 [] 9 with display := ⟨0, 0x0003, 226⟩ }
      (fun t => t.display = ⟨0, 0, 227⟩) ∧
    after 0x2000000000000000 bare (fun t => t.sched = bare.sched ∧
      t.faults = [⟨.internalOnly 0x2000000000000000, .word 0x2000000000000000⟩]) := by decide +kernel

/-! ### Interrupts and the host (`95_test_vectors.md` 2.5, 2.6) -/

/-- I1, I2, I5, I7. -/
theorem test_irq :
    after 0x3000000000000003 { bare with irq := ⟨0, 1, 0⟩ } (fun t => t.irq.iflag = 9) ∧
    after 0x300000000000000D bare (fun t => t.irq.iflag = 0x2000) ∧
    after 0x3100000000000000 { bare with irq := ⟨1, 1, 1⟩ } (returns · (.rbit true)) ∧
    after 0x3100000000000000 { bare with irq := ⟨2, 2, 0⟩ } (returns · (.rbit false)) ∧
    after 0x3200000000000000 { bare with irq := ⟨2, 2, 0⟩ } (returns · (.rbit true)) ∧
    after 0x3200000000000000 { bare with irq := ⟨0, 0x2000, 1⟩ } (returns · (.rbit false)) := by decide +kernel

/-- H1, H3, H6. -/
theorem test_host :
    after 0x4000000000000000 { bare with output := ⟨[[⟨1, 2, 3, 4⟩]], [], false, 0, false⟩ }
      (returns · (.rframe [[⟨1, 2, 3, 4⟩]])) ∧
    after 0x4100000000000000 { bare with output := ⟨[], [], false, 0, true⟩ } (fun t => t.output.frameReady = false) ∧
    after 0x4200000000000001 bare (fun t => t.output.colorCorrection = true) ∧
    after 0x4200000000000000 { bare with output := ⟨[], [], true, 0, false⟩ }
      (fun t => t.output.colorCorrection = false) ∧
    after 0x4300000000000000 bare (returns · (.rbit false)) ∧
    after 0x4400000000000000 { bare with output := ⟨[], [], false, 2, false⟩ } (returns · (.rcount 2)) := by
  decide +kernel

/-- R441: a stopped block. -/
theorem test_stopped :
    after 0x0800000400000180 { bare with faults := [⟨.popEmpty, .renderLine 0⟩] } (fun t => t.display.dispcnt = 0) ∧
    after 0x1700000000000000 { at' 5 [] 1 with faults := [⟨.popEmpty, .renderLine 0⟩] } (returns · (.rticks 0)) ∧
    after 0x1500000000000000 { at' 5 [] 1 with faults := [⟨.popEmpty, .renderLine 0⟩] } (returns · (.rbit false)) := by
  decide +kernel

/-! ### Rendering (`95_test_vectors.md` 1.3 to 1.6 and 2.7 to 2.10) -/

/-- A video memory that reads as `fill` outside the bytes listed. -/
def mem (fill : Byte) (cells : List Host.Cell) : Memory := ⟨some fill, cells⟩

/-- A state to render: `DISPCNT`, the registers of BG0 and BG2, and the three memories. -/
def scene (dispcnt : Half) (bg0 : Bg) (bg2 : Half) (aff2 : Affine) (vram pram oam : Memory) : State :=
  { bare with
    display := ⟨dispcnt, 0, 0⟩
    bgs := ⟨bg0, Bg.reset, ⟨bg2, 0, 0⟩, Bg.reset, aff2, Affine.reset⟩
    video := ⟨vram, pram, oam⟩ }

/-- The colour of a pixel, or that it is transparent. -/
def colour (p : Fetch (Option Px)) : Except FaultKind (Option Colour) :=
  match p with
  | .ok p => .ok (p.map Px.colour)
  | .error k => .error k

/-- The colours of setup T and of 1.5: palette entries 1 to 8, and 17. -/
def ramp : Memory := mem 0 [(2, 1), (4, 2), (6, 3), (8, 4), (10, 5), (12, 6), (14, 7), (16, 8), (34, 0xFF), (35, 0x7F)]

/-- Setup T: tile 1 has the indices 1 to 8 in row 0. -/
def textScene (entry bg0 hofs : Half) : State :=
  scene 0x0100 ⟨bg0, hofs, 0⟩ 0 Affine.reset
    (mem 0 [(0, entry.extractLsb' 0 8), (1, entry.extractLsb' 8 8), (0x4020, 0x21), (0x4021, 0x43), (0x4022, 0x65),
      (0x4023, 0x87), (0x4040, 1), (0x4041, 2), (0x4047, 8)]) ramp (mem 2 [])

/-- R3 to R7. -/
theorem test_text :
    colour ((textScene 1 4 0).textPixel 0 0 0) = .ok (some 1) ∧ colour ((textScene 1 4 0).textPixel 0 0 7) = .ok (some 8) ∧
    colour ((textScene 1 4 0).textPixel 0 0 8) = .ok none ∧ colour ((textScene 0x0401 4 0).textPixel 0 0 0) = .ok (some 8) ∧
    colour ((textScene 1 4 4).textPixel 0 0 3) = .ok (some 8) ∧ colour ((textScene 1 4 4).textPixel 0 0 4) = .ok none ∧
    colour ((textScene 0x1001 4 0).textPixel 0 0 0) = .ok (some 0x7FFF) ∧
    colour ((textScene 1 0x84 0).textPixel 0 0 7) = .ok (some 8) := by decide +kernel

/-- R11: the map fetch at 0xF800 is inside the limit, the tile fetch at 0x10000 is not. -/
theorem test_fetch_limit :
    colour ((scene 0x0100 ⟨0x1F0C, 0, 0⟩ 0 Affine.reset (mem 0 [(0xF801, 2), (0x10000, 1)]) ramp (mem 2 [])).textPixel
      0 0 0) = .ok none := by decide +kernel

/-- 1.5: sizes 3, 0 and 2 over the columns 0 to 8, whose pixels are 0 to 8. -/
theorem test_mosaic :
    (let f : Nat → Fetch (Option Px) := fun x => .ok (some ⟨BitVec.ofNat 15 x, 0, .bd, false⟩)
     let held := fun size => (holdRow size f (List.range 9) 0 none).toOption.map (·.filterMap fun p => p.map Px.colour)
     held 3 = some [0, 0, 0, 0, 4, 4, 4, 4, 8] ∧ held 0 = some [0, 1, 2, 3, 4, 5, 6, 7, 8] ∧
     held 2 = some [0, 0, 0, 3, 3, 3, 6, 6, 6]) := by decide +kernel

/-- Setup A: map entry (0, 0) is tile 1 (red), the others tile 0 (green). -/
def affineScene (bg2 : Half) (a : Affine) : State :=
  scene 0x0401 Bg.reset bg2 a
    (mem 0 [(0, 2), (7, 2), (0x40, 3), (0x47, 3), (0x4000, 1)])
    (mem 0 [(1, 0x7C), (4, 0xE0), (5, 0x03), (6, 0x1F)]) (mem 2 [])

/-- A1, A2, A3 and 1.6. -/
theorem test_affine :
    (let a := { Affine.reset with pa := 0x0100 }
     colour ((affineScene 0x0800 a).affinePixel 2 7) = .ok (some 0x1F) ∧
     colour ((affineScene 0x0800 a).affinePixel 2 8) = .ok (some 0x3E0) ∧
     colour ((affineScene 0x0800 a).affinePixel 2 128) = .ok none ∧
     colour ((affineScene 0x2800 a).affinePixel 2 128) = .ok (some 0x1F) ∧
     colour ((affineScene 0x0800 { a with pa := 0x0080 }).affinePixel 2 239) = .ok (some 0x3E0)) ∧
    colour ((affineScene 0x6800 { Affine.reset with refX := 0x10000 }).affinePixel 2 0) = .ok (some 0x1F) ∧
    colour ((affineScene 0x4800 { Affine.reset with refX := 0x10000 }).affinePixel 2 0) = .ok none ∧
    colour ((affineScene 0x6800 { Affine.reset with refX := 0xFFFFF00, pa := 0x0100 }).affinePixel 2 1) =
      .ok (some 0x1F) := by decide +kernel

/-- B2 to B5. -/
theorem test_bitmap :
    (let a := { Affine.reset with pa := 0x0100, refY := 0x0100 }
     let s := scene 0x0403 Bg.reset 0 a (mem 0 [(490, 0xE0), (491, 3)]) ramp (mem 2 [])
     colour (s.layerPixel .bitmap3 2 0 5) = .ok (some 0x3E0) ∧ colour (s.layerPixel .bitmap3 2 0 0) = .ok (some 0)) ∧
    (let a := { Affine.reset with pa := 0x0100 }
     let v := mem 0 [(0, 2), (318, 0x1F), (0xA000, 1)]
     colour ((scene 0x0414 Bg.reset 0 a v ramp (mem 2 [])).layerPixel .bitmap4 2 0 0) = .ok (some 1) ∧
     colour ((scene 0x0414 Bg.reset 0 a v ramp (mem 2 [])).layerPixel .bitmap4 2 0 1) = .ok none ∧
     colour ((scene 0x0404 Bg.reset 0 a v ramp (mem 2 [])).layerPixel .bitmap4 2 0 0) = .ok (some 2) ∧
     colour ((scene 0x0405 Bg.reset 0 a v ramp (mem 2 [])).layerPixel .bitmap5 2 0 159) = .ok (some 0x1F) ∧
     colour ((scene 0x0405 Bg.reset 0 a v ramp (mem 2 [])).layerPixel .bitmap5 2 0 160) = .ok none) := by decide +kernel

/-- Setup O: OAM entry 0 is given, every other entry is disabled (an unlisted byte reads as 2). -/
def objectScene (dispcnt a0 a1 a2 : Half) (vram : List Host.Cell) : State :=
  scene dispcnt Bg.reset 0 Affine.reset (mem 0 vram) (mem 0 [(0x202, 0xE0), (0x203, 3), (0x205, 0x7C), (0x206, 0x1F)])
    (mem 2 [(0, a0.extractLsb' 0 8), (1, a0.extractLsb' 8 8), (2, a1.extractLsb' 0 8), (3, a1.extractLsb' 8 8),
      (4, a2.extractLsb' 0 8), (5, a2.extractLsb' 8 8), (6, 0), (7, 1), (14, 0), (15, 0), (22, 0), (23, 0), (30, 0), (31, 1)])

/-- The object pixels of scanline `y` at columns `xs`, as entry 0 leaves them in an empty line. -/
def object0 (s : State) (y : Nat) (xs : List Nat) : Except FaultKind (List (Option Px)) :=
  match s.scanObject y emptyObjLine 0 with
  | .ok l => .ok (xs.map fun x => (l.getD x ⟨none, false⟩).px)
  | .error k => .error k

/-- O1, O2, O3. -/
theorem test_object :
    object0 (objectScene 0x1040 0x0010 0x0020 0x0401 [(0x10020, 0x21)]) 16 [31, 32, 33, 34] =
      .ok [none, some ⟨0x03E0, 1, .obj, false⟩, some ⟨0x7C00, 1, .obj, false⟩, none] ∧
    object0 (objectScene 0x1040 0x0010 0x0020 0x0401 [(0x10020, 0x21)]) 15 [32] = .ok [none] ∧
    object0 (objectScene 0x1040 0x0010 0x1020 0x0401 [(0x10020, 0x21)]) 16 [37, 38, 39] =
      .ok [none, some ⟨0x7C00, 1, .obj, false⟩, some ⟨0x03E0, 1, .obj, false⟩] := by decide +kernel

/-- O8 and O9: clipping at the left edge, and vertical wraparound. -/
theorem test_object_edges :
    object0 (objectScene 0x1040 0x0010 0x01FC 0x0401 [(0x10022, 0x12), (0x10023, 0x03)]) 16 [0, 1, 2, 3, 4] =
      .ok [some ⟨0x7C00, 1, .obj, false⟩, some ⟨0x03E0, 1, .obj, false⟩, some ⟨0x001F, 1, .obj, false⟩, none, none] ∧
    object0 (objectScene 0x1040 0x00FA 0x4020 0x0401 [(0x1006C, 1)]) 5 [32, 33] =
      .ok [some ⟨0x03E0, 1, .obj, false⟩, none] ∧
    object0 (objectScene 0x1040 0x00FA 0x4020 0x0401 [(0x1006C, 1)]) 6 [32] = .ok [none] := by decide +kernel

/-- O10: an affine object of double size under the identity matrix. -/
theorem test_object_affine :
    (let s := objectScene 0x1040 0x0310 0x0020 0x0401 [(0x10020, 0x11), (0x10023, 0x11), (0x10030, 0x11), (0x10033, 0x11)]
     object0 s 16 [36] = .ok [none] ∧
     object0 s 20 [35, 36, 43, 44] =
       .ok [none, some ⟨0x03E0, 1, .obj, false⟩, some ⟨0x03E0, 1, .obj, false⟩, none] ∧
     object0 s 24 [36] = .ok [some ⟨0x03E0, 1, .obj, false⟩]) := by decide +kernel

/-- O11, O12, O13. -/
theorem test_object_faults :
    object0 (objectScene 0x1040 0xC000 0 0 []) 16 [] = .error (.prohibitedObject 0 0xC000) ∧
    object0 (objectScene 0x1040 0xC200 0 0 []) 16 [] = .ok [] ∧
    object0 (objectScene 0x1040 0x0C50 0 0 []) 16 [] = .ok [] ∧
    object0 (objectScene 0x1040 0x0C50 0 0 []) 80 [] = .error (.prohibitedObject 0 0x0C50) := by decide +kernel

/-- O5, O6, and W5: two objects at one column. -/
theorem test_object_priority :
    (let o := fun (a0 a2 : Half) => (⟨0, a0, 0, a2⟩ : ObjAttr)
     ((o 0 0).placeCol 7 ((o 0 0x0400).placeCol 5 ⟨none, false⟩)).px = some ⟨7, 0, .obj, false⟩ ∧
     ((o 0 0x0400).placeCol 7 ((o 0x0400 0x0400).placeCol 5 ⟨none, false⟩)).px = some ⟨5, 1, .obj, true⟩ ∧
     (o 0x0800 0).placeCol 7 ⟨none, false⟩ = ⟨none, true⟩) := by decide +kernel

/-- W1 to W4: the mask of a column. -/
theorem test_window_mask :
    (let s := fun (dispcnt : Half) (w : Windows) => { bare with display := ⟨dispcnt, 0, 0⟩, win := w }
     (s 0 ⟨0, 0, 0, 0, 0, 0⟩).windowMask 0 0 false = 0x3F ∧
     (s 0x2000 ⟨0xC828, 0, 0x00A0, 0, 1, 2⟩).windowMask 39 0 false = 1 ∧
     (s 0x2000 ⟨0xC828, 0, 0x00A0, 0, 1, 2⟩).windowMask 40 0 false = 2 ∧
     (s 0x2000 ⟨0xC828, 0, 0x00A0, 0, 1, 2⟩).windowMask 200 0 false = 1 ∧
     (s 0x2000 ⟨0x5050, 0, 0x00A0, 0, 1, 2⟩).windowMask 0x50 0 false = 2 ∧
     (s 0x2000 ⟨0x00F0, 0, 0x0A14, 0, 1, 2⟩).windowMask 0 10 false = 1 ∧
     (s 0x2000 ⟨0x00F0, 0, 0x0A14, 0, 1, 2⟩).windowMask 0 20 false = 2 ∧
     (s 0x6000 ⟨0x000A, 0x0014, 0x00A0, 0x00A0, 0x0102, 4⟩).windowMask 9 0 false = 2 ∧
     (s 0x6000 ⟨0x000A, 0x0014, 0x00A0, 0x00A0, 0x0102, 4⟩).windowMask 19 0 false = 1 ∧
     (s 0x8000 ⟨0, 0, 0, 0, 0, 0x0804⟩).windowMask 0 0 true = 8) := by decide +kernel

/-- R396, O4: an object of equal priority stands in front; a worse one may take the lower place. -/
theorem test_merge_object :
    (let b := (⟨1, 1, .bg 0, false⟩ : Px)
     let o := fun p => (⟨2, p, .obj, false⟩ : Px)
     let c := fun p => (⟨0x3F, some (o p), b, backdropPx 3⟩ : Col).mergeObject
     (c 1).high = o 1 ∧ (c 1).low = b ∧ (c 2).high = b ∧ (c 2).low = o 2 ∧
     (⟨0x2F, some (o 0), b, nonePx⟩ : Col).mergeObject.high = b) := by decide +kernel

/-- X1 to X15: the effect of a column with `top` over `bot`. -/
theorem test_effects_of_columns :
    (let e := fun (cnt alpha y : Half) (mask : BitVec 6) (top bot : Px) =>
       ({ bare with fx := ⟨0, cnt, alpha, y⟩ } : State).colourEffect ⟨mask, none, top, bot⟩
     let bg := fun c => (⟨c, 0, .bg 0, false⟩ : Px)
     e 0x2041 0x0808 0 0x3F (bg 0x001F) (backdropPx 0x7C00) = 0x3C0F ∧
     e 0x0041 0x0808 0 0x3F (bg 0x001F) (backdropPx 0x7C00) = 0x001F ∧
     e 0x2041 0x1F1F 0 0x3F (bg 0x7FFF) (backdropPx 0x7FFF) = 0x7FFF ∧
     e 0x2041 0x0C04 0 0x3F (bg 0x001F) (backdropPx 0x7C00) = 0x5C07 ∧
     e 0x0081 0 8 0x3F (bg 0) (backdropPx 0) = 0x3DEF ∧ e 0x00C1 0 8 0x3F (bg 0x7FFF) (backdropPx 0) = 0x4210 ∧
     e 0x00C1 0 31 0x3F (bg 0x7FFF) (backdropPx 0) = 0 ∧ e 0x0082 0 8 0x3F (bg 0) (backdropPx 0) = 0 ∧
     e 0x0081 0 16 0x1F (bg 0) (backdropPx 0) = 0 ∧ e 0x2060 0x0808 0 0x3F (backdropPx 0x1F) nonePx = 0x1F ∧
     e 0x0100 0x0808 0 0x3F ⟨0x1F, 0, .obj, true⟩ (bg 0x7C00) = 0x3C0F ∧
     e 0 0x0808 0 0x3F ⟨0x1F, 0, .obj, true⟩ (bg 0x7C00) = 0x1F) := by decide +kernel

/-- R422. -/
theorem test_palette :
    bare.toRgba 0x7FFF = ⟨255, 255, 255, 255⟩ ∧ bare.toRgba 0x03E0 = ⟨0, 255, 0, 255⟩ ∧
    bare.toRgba 29 = ⟨238, 0, 0, 255⟩ := by decide +kernel

/-- R9, R10, and the example of R302: modes, and the order of two layers of equal priority. -/
theorem test_modes :
    ((scene 6 Bg.reset 0 Affine.reset (mem 0 []) (mem 0 []) (mem 2 [])).lineRow 0) =
      .error (.unimplementedPath 6) ∧
    ((scene 0x86 Bg.reset 0 Affine.reset (mem 0 []) (mem 0 []) (mem 2 [])).lineRow 0) =
      .ok (List.replicate 240 ⟨255, 255, 255, 255⟩) ∧
    (scene 0x0300 ⟨0, 0, 0⟩ 0 Affine.reset (mem 0 []) (mem 0 []) (mem 2 [])).layerOrder = [1, 0] ∧
    (scene 0x0F01 ⟨1, 0, 0⟩ 0 Affine.reset (mem 0 []) (mem 0 []) (mem 2 [])).layerOrder = [0, 2, 1] := by decide +kernel

/-- R1: the backdrop of a line. -/
theorem test_backdrop :
    ((scene 0 Bg.reset 0 Affine.reset (mem 0 []) (mem 0 [(0, 0x1F), (1, 0x80)]) (mem 2 [])).lineRow 0) =
      .ok (List.replicate 240 ⟨255, 0, 0, 255⟩) := by decide +kernel

/-- R303, E16, R341: the updates of a rendered line. -/
theorem test_render_line :
    internally (.renderLine 5) { scene 0x0080 Bg.reset 0 { Affine.reset with pd := 0xFF00, refX := 7 }
        (mem 0 []) (mem 0 []) (mem 2 []) with mos := ⟨0, 2⟩, fx := ⟨0x0010, 0, 0, 0⟩ }
      (fun t => t.bgs.aff2.refY = 0x0FFFFF00 ∧ t.bgs.aff2.mosRefX = 7 ∧ t.mos = ⟨1, 5⟩) ∧
    internally (.renderLine 1) { bare with
        display := ⟨0x0080, 0, 0⟩, mos := ⟨1, 5⟩, fx := ⟨0x0010, 0, 0, 0⟩, output := ⟨[], [[], [], []], false, 0, false⟩ }
      (fun t => t.mos = ⟨0, 5⟩ ∧ t.output.back = [[], List.replicate 240 ⟨255, 255, 255, 255⟩, []]) := by decide +kernel

/-- R363: a disabled entry whose `attr1` and `attr2` have unknown contents raises nothing (assumption 29); an
entry that is not disabled is read whole (R352). -/
theorem test_disabled_object_is_not_decoded :
    (let s := fun hi : Byte => scene 0x1040 Bg.reset 0 Affine.reset (mem 0 []) (mem 0 []) ⟨none, [(0, 0), (1, hi)]⟩
     (s 2).scanObject 16 emptyObjLine 0 = .ok emptyObjLine ∧
     (s 0).scanObject 16 emptyObjLine 0 = .error (.uninitRead .oam 2)) := by decide +kernel

/-! ## The statements' hypotheses can be met

One theorem for each statement with hypotheses, at the values where its clauses meet. -/

/-- The state that a running block inside a drain or event has: the issuer is the block itself. -/
def inner (s : State) : State := { s with ports := { s.ports with issuer := .internal } }

/-- A stopped block. -/
def halted : State := { bare with faults := [⟨.popEmpty, .renderLine 0⟩] }

/-- `s` with the word `w` offered next. -/
def offering (s : State) (w : OpWord) : State := { s with ports := { s.ports with input := [w] } }

theorem witness_DecodeOfEncode : (Instr.irqFlag 13).wf = true ∧ (Instr.renderLine 159).wf = true ∧
    (Instr.wVramHi 0x7FFF 0xFF).wf = true := by decide

theorem witness_EncodeOfDecode : decode 0x300000000000000D = .ok (.irqFlag 13) := by decide +kernel

theorem witness_RefusedWords :
    (RefusalHolds 0x6000000000000000 .reservedPort ∧ decode 0x6000000000000000 = .error .reservedPort) ∧
    (RefusalHolds 0x1800000000000000 .reservedSub ∧ decode 0x1800000000000000 = .error .reservedSub) ∧
    (RefusalHolds 0x0C00000400000000 .nonzeroReserved ∧ decode 0x0C00000400000000 = .error .nonzeroReserved) ∧
    (RefusalHolds 0x4200000000000002 .nonzeroReserved ∧ decode 0x4200000000000002 = .error .nonzeroReserved) ∧
    (RefusalHolds 0x0000000400006000 .unownedAddress ∧ decode 0x0000000400006000 = .error .unownedAddress) ∧
    (RefusalHolds 0x300000000000000E .badKind ∧ decode 0x300000000000000E = .error .badKind) ∧
    (RefusalHolds 0x50000000000000A0 .badLine ∧ decode 0x50000000000000A0 = .error .badLine) := by
  refine ⟨⟨?_, by decide +kernel⟩, ⟨?_, by decide +kernel⟩, ⟨?_, by decide +kernel⟩, ⟨?_, by decide +kernel⟩,
    ⟨?_, by decide +kernel⟩, ⟨?_, by decide +kernel⟩, ⟨?_, by decide +kernel⟩⟩ <;>
    simp [RefusalHolds, CommandNonzero, OwnedAddress, subCount]

theorem witness_StepRunsTheWord : (offering bare 0x1700000000000000).ports.input = [0x1700000000000000] ∧
    decode 0x1700000000000000 = .ok .schedNow ∧ bare.ports.input = [] ∧
    decode (BitVec.ofNat 64 (0x1700000000000000 % 2 ^ 64)) = .ok .schedNow := by decide +kernel

theorem witness_ResetMeetsInvariants : Video.wf ⟨⟨none, [(5, 1)]⟩, ⟨some 0, []⟩, ⟨some 2, [(7, 0)]⟩⟩ := by decide

theorem witness_LcdRegisterWrites : State.reset.Running := rfl

theorem witness_BackgroundWrites : State.reset.Running := rfl

theorem witness_WindowAndEffectWrites : State.reset.Running := rfl

theorem witness_InterruptBankWrites : State.reset.Running := rfl

theorem witness_WritesWithoutEffect : State.reset.Running := rfl

theorem witness_RegisterReads : State.reset.Running := rfl

theorem witness_ReadsOfNothing : State.reset.Running := rfl

theorem witness_VideoMemoryAccess : State.reset.Running := rfl

theorem witness_InterruptOperations : State.reset.Running ∧ (13#4).toNat < 14 := by decide

theorem witness_HostOperations : State.reset.Running := rfl

/-- The flag of kind 13 is cleared by a write of its bit in lane 1 of `IF`. -/
theorem witness_PendingFlagsAreLatches :
    after 0x0800000400020320 { bare with irq := ⟨0, 0x2000, 0⟩ } (fun t => t.irq.iflag.getLsbD 13 = false) ∧
    (13 < 14 ∧ (0x2000#16).getLsbD 13 = true) := by decide +kernel

/-- An event due at the last admitted tick, and the capacity just not reached. -/
theorem witness_Schedule : ¬ (0 : Int) < 0 ∧ ¬ 2 ^ 63 - 1 ≤ (at' (2 ^ 63 - 3) [] 1).sched.ticks + 1 ∧
    ({ bare.sched with capacity := some 2 } : Sched).capacity ≠ some bare.sched.queue.length := by decide

/-- The four branches of the checks, at their bounds. -/
theorem witness_SchedAdd : bare.Running ∧
    (isLcdTag 0 = true ∧ isLcdTag 1 = true ∧ isLcdTag 2 = false) ∧
    ((-1 : BitVec 48).toInt < 0 ∧ (0 : BitVec 48).toInt = 0) ∧
    ((at' (2 ^ 63 - 2) [] 1).sched.ticks + (1 : BitVec 48).toInt = 2 ^ 63 - 1) ∧
    ({ bare.sched with capacity := some 1 } : Sched).capacity = some bare.sched.queue.length := by decide

theorem witness_SchedPop : (inner (at' 0 [] 1)).Running ∧ (inner (at' 0 [] 1)).ports.issuer = .internal ∧
    (inner (at' 0 [⟨960, 0, 0⟩, ⟨960, 7, 3⟩] 4)).sched.Sorted := by decide

theorem witness_SchedCancel : (∀ e ∈ (at' 0 [⟨960, 0, 0⟩] 1).sched.queue, e.tag ≠ 2) ∧
    (∃ e ∈ (at' 0 [⟨300, 2, 3⟩, ⟨500, 2, 1⟩] 4).sched.queue, e.tag = 2) ∧
    (at' 0 [⟨300, 2, 3⟩, ⟨500, 2, 1⟩] 4).sched.Sorted ∧ bare.Running := by decide

theorem witness_SchedAdvance : bare.Running ∧ bare.sched.draining = false ∧ (-1 : BitVec 48).toInt < 0 ∧
    (at' (2 ^ 63 - 2) [] 1).sched.ticks + (1 : BitVec 48).toInt = 2 ^ 63 - 1 := by decide

theorem witness_SchedQueries : (at' 0 [] 1).sched.queue = [] ∧ bare.sched.queue ≠ [] ∧ bare.sched.Sorted ∧
    bare.Running := by decide

theorem witness_SchedDrain : (at' 960 [⟨960, 2, 0⟩] 1).Running ∧ (at' 960 [⟨960, 2, 0⟩] 1).sched.draining = false := by
  decide

theorem witness_DrainToQuiescence : (at' 960 [⟨960, 2, 0⟩, ⟨961, 3, 1⟩] 2).sched.Sorted ∧
    after 0x1400000000000000 (at' 960 [⟨960, 2, 0⟩, ⟨961, 3, 1⟩] 2)
      (fun t => t.faults = [] ∧ t.sched.queue = [⟨961, 3, 1⟩]) := by decide +kernel

theorem witness_DrainReentry : (bare.setDraining true).Running ∧ (bare.setDraining true).sched.draining = true := by
  decide

/-- Awake; asleep with nothing pending; with an event due now; and with one due a tick later. -/
theorem witness_HaltSkip :
    (IrqBank.Awake ⟨0x2000, 0x2000, 0⟩ ∧ ¬ IrqBank.Awake ⟨0x1000, 0x2000, 1⟩) ∧
    (bare.Running ∧ bare.sched.draining = false) ∧ (at' 0 [] 1).sched.queue = [] ∧
    (∃ e rest, (at' 960 [⟨960, 2, 0⟩] 1).sched.queue = e :: rest ∧ e.due ≤ (at' 960 [⟨960, 2, 0⟩] 1).sched.ticks) ∧
    (∃ e rest, (at' 959 [⟨960, 2, 0⟩] 1).sched.queue = e :: rest ∧ (at' 959 [⟨960, 2, 0⟩] 1).sched.ticks < e.due) := by
  refine ⟨⟨⟨13, by decide, by decide, by decide⟩, ?_⟩, by decide, rfl, ⟨_, _, rfl, by decide⟩, ⟨_, _, rfl, by decide⟩⟩
  rintro ⟨k, hk, h⟩
  interval_cases k <;> revert h <;> decide

theorem witness_ResponsesRunInFull :
    ({ bare.ports with responses := [[0x3000000000000003]] } : Ports).responses = [0x3000000000000003] :: [] ∧
    bare.ports.responses = [] ∧ decode 0x3000000000000003 = .ok (.irqFlag 3) ∧
    (bare.setDraining true).ports.issuer = .environment ∧ (bare.setDraining true).sched.draining = true := by
  decide +kernel

theorem witness_ClockMoves : after 0x1300000000000014 bare (fun t => t.sched.ticks = 20) := by decide +kernel

/-- The last lateness that schedules a successor and the first that does not (R250), and the last tick and the
full queue of R201. -/
theorem witness_HblankStartInVblank :
    (let s := inner { at' 198352 [] 7 with display := ⟨0, 0x0011, 160⟩ }
     s.Running ∧ s.ports.issuer = .internal ∧ 160 ≤ s.display.vcount.toNat ∧ ¬ (272 : Int) < 272 ∧ (272 : Int) < 273 ∧
     ¬ 2 ^ 63 - 1 ≤ s.sched.ticks + (272 - 272) ∧ s.sched.capacity ≠ some s.sched.queue.length) ∧
    (2 ^ 63 - 1 ≤ (at' (2 ^ 63 - 3) [] 7).sched.ticks + (272 - (270 : Int))) ∧
    ({ bare.sched with capacity := some 1 } : Sched).capacity = some bare.sched.queue.length := by decide

/-- A line that renders, one in a mode that does not, and a DMA response that faults. -/
theorem witness_HblankStartOrder :
    (let s := inner { bare with display := ⟨0x0080, 0, 159⟩ }
     s.display.vcount.toNat < 160 ∧ s.ports.issuer = .internal ∧ (s.renderLine 159).Running ∧
     ((s.renderLine 159).emit .dmaHblank).Running) ∧
    ¬ ((inner { bare with display := ⟨6, 0, 159⟩ }).renderLine 159).Running ∧
    ¬ ((inner { bare with ports := { bare.ports with responses := [[0x1300000000000001]] } }).emit .dmaHblank).Running := by
  decide +kernel

/-- The scanline changes to 1, 160, 227 and 0, and a vblank entry whose DMA response faults. -/
theorem witness_HblankEnd :
    ((1#8).toNat = ((0#8).toNat + 1) % 228 ∧ (160#8).toNat = ((159#8).toNat + 1) % 228 ∧
      (227#8).toNat = ((226#8).toNat + 1) % 228 ∧ (0#8).toNat = ((227#8).toNat + 1) % 228) ∧
    (inner bare).Running ∧ (inner bare).ports.issuer = .internal ∧ (inner bare).vblankEntry.Running ∧
    ¬ (inner { bare with ports := { bare.ports with responses := [[0x1300000000000001]] } }).vblankEntry.Running := by
  decide +kernel

theorem witness_VblankEntry : bare.Running ∧ (bare.emit .dmaVblank).Running ∧
    ¬ ({ bare with ports := { bare.ports with responses := [[0x1400000000000000]] } }.emit .dmaVblank).Running := by
  decide +kernel

theorem witness_InternalOnly : bare.Running ∧ bare.ports.issuer = .environment := by decide

theorem witness_LcdStateIsTheLcds : (offering bare 0x1300000000000014).ports.input = [0x1300000000000014] ∧
    decode 0x1300000000000014 = .ok (.schedAdvance 20) ∧ ¬ (Instr.schedAdvance 20).FiresLcd ∧
    after 0x1300000000000014 bare (fun _ => true) := by
  refine ⟨rfl, by decide +kernel, fun h => h, by decide +kernel⟩

/-- The state after reset stands at scanline 0 of frame 0. -/
theorem lcdAt_bare : bare.LcdAt 0 := by
  unfold State.LcdAt
  decide +kernel

theorem witness_LcdRunsOnTime : bare.ports.issuer = .environment ∧ bare.LcdOnTime ∧
    after 0x1500000000000000 bare (fun _ => true) := ⟨rfl, fun _ => ⟨0, lcdAt_bare⟩, by decide +kernel⟩

/-- Scanlines 0, 160, 226 and 227, drawing and blanking. -/
theorem witness_CyclePosition : (bare.LcdAt 0 ∧ ∀ e ∈ bare.sched.queue, bare.sched.ticks < e.due) ∧
    (let s := { at' 280895 [⟨280896, 1, 455⟩] 456 with
        display := ⟨0, 0x0002, 227⟩, output := ⟨[], [], false, 1, true⟩ }
     s.LcdAt 0 ∧ ∀ e ∈ s.sched.queue, s.sched.ticks < e.due) ∧
    (let s := { at' 278432 [⟨279392, 0, 452⟩] 453 with
        display := ⟨0, 0x0001, 226⟩, output := ⟨[], [], false, 1, true⟩ }
     s.LcdAt 0 ∧ ∀ e ∈ s.sched.queue, s.sched.ticks < e.due) := by
  refine ⟨⟨lcdAt_bare, by decide⟩, ⟨?_, by decide⟩, ⟨?_, by decide⟩⟩ <;> unfold State.LcdAt <;> decide +kernel

theorem witness_StepKeepsMemories : bare.video.wf ∧ after 0x080000050003FF7F bare (fun _ => true) := by decide +kernel

theorem witness_StepKeepsQueue : bare.sched.Sorted ∧ bare.sched.InRange ∧
    after 0x1007000000000032 bare (fun _ => true) := by decide +kernel

theorem witness_StepKeepsRegisters : bare.RegsLegal ∧ after 0x08000004000000FF bare (fun _ => true) := by decide +kernel

theorem witness_StepKeepsFrames : State.reset.output.Shaped ∧ after 0x4100000000000000 State.reset (fun _ => true) := by
  decide +kernel

theorem witness_StoppedBlock : ¬ halted.Running := by decide

theorem witness_AtMostOneFault : after 0x1300FFFFFFFFFFFF bare (fun t => t.faults.length = 1) ∧
    after 0x1300FFFFFFFFFFFF halted (fun t => t.faults.length = 1) := by decide +kernel

theorem witness_BlankAndBackdropLines :
    (inner bare).Running ∧ (inner bare).ports.issuer = .internal ∧ (0x0080#16).getLsbD 7 = true ∧
    (let s := { inner bare with video := ⟨mem 0 [], ⟨none, [(0, 0x1F), (1, 0x80)]⟩, mem 0 []⟩ }
     s.display.dispcnt = 0 ∧ s.byte? .pram 0 = some 0x1F ∧ s.byte? .pram 1 = some 0x80 ∧
     s.fx.bldcnt.getLsbD 5 = false ∧ s.output.colorCorrection = false) := by decide +kernel

/-- Every byte of memories that list nothing and read as a byte is known. -/
theorem known (s : State) (a b c : Byte) (h : s.video = ⟨mem a [], mem b [], mem c []⟩) : s.VideoKnown := by
  intro m o _
  cases m <;> simp [State.byte?, Video.mem, Memory.read?, lookupCell, mem, h]

/-- Scanline 159 in mode 5 with objects on, every OAM halfword 0x0202: all objects are disabled. -/
theorem witness_RenderCompletes :
    (let s := { inner bare with display := ⟨0x1005, 0, 0⟩, video := ⟨mem 0 [], mem 0 [], mem 2 []⟩ }
     s.Running ∧ s.ports.issuer = .internal ∧ (159#8).toNat < 160 ∧ s.display.dispcnt.toNat % 8 ≤ 5 ∧ s.VideoKnown ∧
     s.display.dispcnt.getLsbD 12 = true ∧ ∀ i o, i < 128 → s.objAttr i = .ok o → ¬ o.Prohibited 159) := by
  refine ⟨rfl, rfl, by decide, by decide, known _ 0 0 2 rfl, by decide, ?_⟩
  intro i o _ h hp
  have : o = ⟨i, 0x0202, 0x0202, 0x0202⟩ := by
    simp [State.objAttr, State.fetch16, State.fetch8, State.byte?, Video.mem, Memory.read?, lookupCell, mem, halfOf, bind,
      Except.bind, pure, Except.pure] at h
    exact h.symm
  subst this
  refine hp.1 ⟨?_, ?_⟩
  · show (0x0202#16).getLsbD 8 = false
    decide
  · show (0x0202#16).getLsbD 9 = true
    decide

/-- Modes 6 and 5; entry 0 of shape 3 (every OAM halfword 0xC0C0); a backdrop of unknown contents. -/
theorem witness_RenderFaults :
    (let s := { inner bare with display := ⟨0x1005, 0, 0⟩, video := ⟨mem 0 [], mem 0 [], mem 0xC0 []⟩ }
     s.Running ∧ s.ports.issuer = .internal ∧ s.display.dispcnt.getLsbD 7 = false ∧ 6 ≤ (6#16).toNat % 8 ∧
     s.display.dispcnt.toNat % 8 ≤ 5 ∧ s.display.dispcnt.getLsbD 12 = true ∧ s.VideoKnown ∧
     s.objAttr 0 = .ok ⟨0, 0xC0C0, 0xC0C0, 0xC0C0⟩ ∧ (⟨0, 0xC0C0, 0xC0C0, 0xC0C0⟩ : ObjAttr).Prohibited 159) ∧
    (let s := { inner bare with video := ⟨mem 0 [], ⟨none, []⟩, mem 0 []⟩ }
     s.display.dispcnt.toNat % 8 ≤ 5 ∧ s.display.dispcnt.getLsbD 12 = false ∧ s.byte? .pram 0 = none) := by
  refine ⟨⟨rfl, rfl, by decide, by decide, by decide, by decide, known _ 0 0 0xC0 rfl, rfl, ?_, .inl (by decide)⟩,
    by decide⟩
  rintro ⟨_, h⟩
  exact absurd h (by decide)

/-- Two states that differ outside the picture's inputs. -/
theorem witness_PictureDependsOnlyOnItsInputs :
    (inner bare).Running ∧ (inner bare).ports.issuer = .internal ∧
    State.SamePicture (inner bare) { inner bare with irq := ⟨1, 1, 1⟩, sched := ⟨5, [], 9, true, none⟩ } :=
  ⟨rfl, rfl, rfl, rfl, rfl, rfl, rfl, fun _ _ => rfl, rfl⟩

theorem witness_HorizontalMosaic : layerKind (dispMode (scene 0x0100 ⟨0x0044, 0, 0⟩ 0 Affine.reset ramp ramp ramp).display.dispcnt) 0 =
    some .text := by decide

/-- A wrapping layer, and a clipped one that leaves its square on each side by one texel; the last texel of each,
with its map entry and its tile texel on both sides of the fetch limit. -/
theorem witness_AffineWrapsOrClips :
    (2 : Fin 4).val = (if AffineBg.bg2 = .bg2 then 2 else 3) ∧ (3 : Fin 4).val = (if AffineBg.bg3 = .bg2 then 2 else 3) ∧
    ((0x2800#16).getLsbD 13 = true ∧ (0xC800#16).getLsbD 13 = false) ∧
    ((0xFFFFFFF#28).toInt + (0 : Half).toInt * 0 < 0 ∧
      256 * (128 * 2 ^ ((0xC800#16).toNat / 2 ^ 14) : Int) ≤ (0x40000#28).toInt + (0 : Half).toInt * 0) ∧
    ((127 : Nat) : Int) = (0xFFFFFFF#28).toInt / 256 % 128 ∧ ((1023 : Nat) : Int) = (0x3FFFF#28).toInt / 256 ∧
    ((0xDF00#16).toNat / 256 % 32 * 0x800 + 7 / 8 * (1024 / 8) + 1023 / 8 < 0x10000 ∧
      0x10000 ≤ (0xDF00#16).toNat / 256 % 32 * 0x800 + 128 / 8 * (1024 / 8) + 0 / 8) ∧
    ((0x000C#16).toNat / 4 % 4 * 0x4000 + (255#8).toNat * 64 + 7 % 8 * 8 + 7 % 8 < 0x10000) := by decide

/-- Two memories that differ at offset 0x10000. -/
theorem witness_BackgroundFetchLimit :
    (2#16).toNat % 8 ≤ 2 ∧ (mem 0 [(0x10000, 1)]).read? 0x10000 ≠ (mem 0 []).read? 0x10000 ∧
    ∀ a, a < 0x10000 → (mem 0 [(0x10000, 1)]).read? a = (mem 0 []).read? a := by
  refine ⟨by decide, by decide, fun a h => ?_⟩
  have : (0x10000 : Nat) ≠ a := by omega
  simp [mem, Memory.read?, lookupCell, this]

/-- Two objects at one column; and a scanline with objects on, over known memories, whose objects are all disabled
(every OAM halfword 0x0202). -/
theorem witness_ObjectPriority :
    ([(⟨0, 0, 0, 0x0400⟩, 5), (⟨1, 0, 0, 0⟩, 7)] : List (ObjAttr × Colour)).foldl
      (fun col p => p.1.placeCol p.2 col) ⟨none, false⟩ = ⟨some ⟨7, 0, .obj, false⟩, false⟩ ∧
    bare.display.dispcnt.getLsbD 12 = false ∧
    (let s := { inner bare with display := ⟨0x1005, 0, 0⟩, video := ⟨mem 0 [], mem 0 [], mem 2 []⟩ }
     s.display.dispcnt.getLsbD 12 = true ∧ s.VideoKnown ∧
     ∀ i o, i < 128 → s.objAttr i = .ok o → ¬ o.Prohibited 159) :=
  ⟨by decide, by decide, by decide, known _ 0 0 2 rfl, witness_RenderCompletes.2.2.2.2.2.2⟩

/-- A text map entry and a tile byte on both sides of the fetch limit; bitmap texels inside and outside. -/
theorem witness_LayerPixels :
    ((0x1F00#16).toNat / 256 % 32 * 0x800 + 0 * 0x800 + 255 / 8 * 64 + 255 / 8 * 2 < 0x10000 ∧
      0x10000 ≤ (0x5F00#16).toNat / 256 % 32 * 0x800 + [0, 256 / 256, 0, 1].getD ((0x5F00#16).toNat / 2 ^ 14) 0 * 0x800) ∧
    ((0x000C#16).toNat / 4 % 4 * 0x4000 + (511 * 32 + 7 * 4 + 7 / 2) < 0x10000 ∧
      0x10000 ≤ (0x000C#16).toNat / 4 % 4 * 0x4000 + (512 * 32 + 0 * 4 + 0 / 2)) ∧
    (let s := scene 0x0403 Bg.reset 0 { Affine.reset with pa := 0x100 } (mem 0xFF []) (mem 0 []) (mem 0 [])
     ((239 : Nat) : Int) = (s.affinePoint .bg2 s.bgs.bg2.cnt 239).1 / 256 ∧ s.HalfAt .vram (2 * 239) 0xFFFF ∧
     (240 : Int) ≤ (s.affinePoint .bg2 s.bgs.bg2.cnt 240).1 / 256) := by
  refine ⟨by decide, by decide, by decide, ⟨0xFF, 0xFF, by decide, by decide, by decide⟩, by decide⟩

/-- OAM entry 127; and an object in a bitmap mode whose tile lies on both sides of the frames' end. -/
theorem witness_ObjectTexels :
    (let s := scene 0x1003 Bg.reset 0 Affine.reset (mem 1 []) ramp (mem 2 [])
     s.HalfAt .oam (8 * 127) 0x0202 ∧ s.HalfAt .oam (8 * 127 + 2) 0x0202 ∧ s.HalfAt .oam (8 * 127 + 4) 0x0202) ∧
    (511 * 32 % 0x8000 < 0x4000 ∧ ¬ 512 * 32 % 0x8000 < 0x4000) ∧
    (let o : ObjAttr := ⟨0, 0, 0, 512⟩
     o.c8 = false ∧ o.tile + 0 / 8 * 32 + 0 / 8 = 512) :=
  ⟨⟨⟨2, 2, by decide, by decide, by decide⟩, ⟨2, 2, by decide, by decide, by decide⟩,
    ⟨2, 2, by decide, by decide, by decide⟩⟩, by decide, by decide⟩

/-- A column in no window, in each window, and outside them. -/
theorem witness_WindowMask :
    (239 < 256 ∧ 159 < 256) ∧
    (let s := { bare with display := ⟨0xE000, 0, 0⟩, win := ⟨0x0001, 0x00F0, 0x00A0, 0x009F, 0, 0⟩ }
     (s.InsideWindow .win0 0 159 ∧ ¬ s.InsideWindow .win0 1 159) ∧
     (s.InsideWindow .win1 239 158 ∧ ¬ s.InsideWindow .win1 239 159) ∧
     s.display.dispcnt.getLsbD 13 = true ∧ s.display.dispcnt.getLsbD 14 = true ∧ s.display.dispcnt.getLsbD 15 = true) ∧
    (bare.display.dispcnt.getLsbD 13 = false ∧ bare.display.dispcnt.getLsbD 14 = false ∧
      bare.display.dispcnt.getLsbD 15 = false) := by
  unfold State.InsideWindow InWrapped
  decide +kernel

theorem witness_LayerStack :
    (let c : Col := ⟨0x3F, some ⟨2, 1, .obj, false⟩, ⟨1, 1, .bg 0, false⟩, ⟨3, 4, .bd, false⟩⟩
     c.obj = some ⟨2, 1, .obj, false⟩ ∧ c.mask.getLsbD 4 = true ∧ 1 ≤ c.high.prio ∧ c.high.prio < 2 ∧ 4 ≤ c.low.prio) ∧
    (0x2F#6).getLsbD 4 = false := by decide

theorem witness_EffectChannels : 2 < 3 := by decide

/-- A semi-transparent object over a second target, and a first target with and without a second target below. -/
theorem witness_ColourEffect :
    (0x3F#6).getLsbD 5 = true ∧ (0x1F#6).getLsbD 5 = false ∧
    ((Src.bg 3).InSet ((0x0848#16).extractLsb' 0 6) ∧ (Src.bg 3).InSet ((0x0848#16).extractLsb' 8 6)) ∧
    ¬ (Src.bg 0).InSet ((0x0848#16).extractLsb' 0 6) ∧ ¬ Src.empty.InSet ((0x0848#16).extractLsb' 8 6) ∧
    (0x0848#16).toNat / 64 % 4 = 1 ∧ (0x00C8#16).toNat / 64 % 4 = 3 := by
  unfold Src.InSet
  decide

theorem witness_PaletteConversion : bare.output.colorCorrection = false ∧
    ({ bare.output with colorCorrection := true } : Output).colorCorrection = true := by decide

end Sys2Proof.Tests
end

/-! The invariants of `10_state.md` that hold of the state as data: the video memories' canonical form (R50), the
registers' layouts (R21 to R41) and the framebuffers' shape (R42). Each is kept by every part of every operation
and event, so every step keeps it, whoever issues the operation. -/

namespace Sys2Proof.Machine

open Sys2Proof.Config

/-- What every part keeps, every step keeps. -/
theorem KeptByParts.step {P : State → Prop} (h : KeptByParts P) {s t : State} (hs : P s)
    (ht : step s = .next t) : P t :=
  h.kept.step (.inr h) hs ht

/-! ## The video memories -/

/-- Only a bus store touches the video memories, and its offset lies inside its memory. -/
theorem video_wf_kept : KeptByParts fun s => s.video.wf := by
  constructor
  constructor
  case store => exact fun m _ b ha h => Video.store_wf h m ha b
  case schedule | lcdSchedule => intros; rwa [State.schedule_video]
  case advance => intros; rwa [State.advance_video]
  case lineStart => intros; rwa [State.mosaicLineStart_video]
  all_goals intros; assumption

/-- Settles O38: every part keeps the canonical form (`video_wf_kept`), so every step does. -/
theorem stepKeepsMemories : Obligations.StepKeepsMemories :=
  fun _ _ hs ht => video_wf_kept.step hs ht

/-! ## The registers -/

theorem nextLine_lt_totalLines (y : Byte) : (nextLine y).toNat < totalLines := by
  have h : (y.toNat + 1) % totalLines < totalLines := Nat.mod_lt _ (by decide)
  exact (Nat.mod_le _ _).trans_lt h

theorem mosBgV_le (m : Half) : mosBgV m ≤ 15 :=
  Nat.le_of_lt_succ (m.extractLsb' 4 4).isLt

/-- The mosaic counter goes back to 0 before it passes the vertical size. -/
theorem nextMosV_le (v : Fin 17) (bgV : Nat) : (nextMosV v bgV).val ≤ bgV := by
  unfold nextMosV
  split_ifs with h
  · exact Nat.zero_le _
  · exact (Nat.mod_le _ _).trans (Nat.le_of_not_lt h)

/-- The flags of IF that an interrupt kind can set lie in bits 13:0. -/
theorem kindBit_legal {k : Nat} (hk : k < 14) : (1#16 <<< k) &&& 0xC000 = 0 := by
  have h : ∀ k < 14, (1#16 <<< k) &&& 0xC000 = 0 := by decide
  exact h k hk

/-- A status bit of DISPSTAT is none of the bits 7:6, which nothing stores. -/
theorem setStat_legal {d : Display} (h : d.Legal) {i : Nat} (hi : (1#16 <<< i) &&& 0x00C0 = 0) (b : Bool) :
    ({ d with dispstat := setBit d.dispstat i b } : Display).Legal :=
  have ⟨hc, hs, hv⟩ := h
  ⟨hc, setBit_legal i b hi hs, hv⟩

theorem setOfs_legal {r : Bg} (h : r.Legal) (a : Scroll) (l : Nat) (d : Byte) :
    (r.setOfs a (writeLane (r.ofs a) 0x01FF l d)).Legal := by
  obtain ⟨hc, hh, hv⟩ := h
  cases a
  · exact ⟨hc, writeLane_legal l d hh (by decide), hv⟩
  · exact ⟨hc, hh, writeLane_legal l d hv (by decide)⟩

theorem setParam_legal {a : Affine} (h : a.Legal) (q : AffineParam) (v : Half) : (a.setParam q v).Legal := by
  cases q <;> exact h

theorem setLatch_legal {a : Affine} (h : a.Legal) (ax : Axis) (l : Nat) (d : Byte) :
    (a.setLatch ax (writeLane (a.latch ax) 0x0FFFFFFF l d)).Legal := by
  obtain ⟨hx, hy⟩ := h
  cases ax
  · exact ⟨writeLane_legal l d hx (by decide), hy⟩
  · exact ⟨hx, writeLane_legal l d hy (by decide)⟩

theorem setH_legal {w : Windows} (h : w.Legal) (n : WindowId) (v : Half) : (w.setH n v).Legal := by
  cases n <;> exact h

theorem setV_legal {w : Windows} (h : w.Legal) (n : WindowId) (v : Half) : (w.setV n v).Legal := by
  cases n <;> exact h

/-- A bus write stores only bits of its mask, which the layout admits (`writeLane_legal`); the other parts that
touch a register write a status bit of DISPSTAT, a flag of IF, the next scanline or the next mosaic counter. -/
theorem regsLegal_kept : KeptByParts State.RegsLegal := by
  constructor
  constructor
  case dispcnt =>
    intro s l d ⟨⟨hc, hs, hv⟩, hr⟩
    exact ⟨⟨writeLane_legal _ d hc (by decide), hs, hv⟩, hr⟩
  case dispstat =>
    intro s l d ⟨⟨hc, hs, hv⟩, hr⟩
    exact ⟨⟨hc, writeLane_legal _ d hs (by decide), hv⟩, hr⟩
  case setHblank | setVblank | setMatch => exact fun b ⟨hd, hr⟩ => ⟨setStat_legal hd (by decide) b, hr⟩
  case vcount => exact fun ⟨⟨hc, hs, _⟩, hr⟩ => ⟨⟨hc, hs, nextLine_lt_totalLines _⟩, hr⟩
  case bgcnt =>
    intro s n l d ⟨hd, hb, hr⟩
    exact ⟨hd, setBg_legal hb n fun ⟨hc, ho⟩ => ⟨writeLane_legal _ d hc (by decide), ho⟩, hr⟩
  case bgofs => exact fun n a l d ⟨hd, hb, hr⟩ => ⟨hd, setBg_legal hb n fun h => setOfs_legal h a _ d, hr⟩
  case bgp => exact fun n q l d ⟨hd, hb, hr⟩ => ⟨hd, setAff_legal hb n fun h => setParam_legal h q _, hr⟩
  case bgref => exact fun n a l d ⟨hd, hb, hr⟩ => ⟨hd, setAff_legal hb n fun h => setLatch_legal h a _ d, hr⟩
  case reload | accumulate => exact fun ⟨hd, hb, hr⟩ => ⟨hd, mapAff_legal hb fun _ h => h, hr⟩
  case lineStart =>
    intro s y _ ⟨hd, hb, hr⟩
    unfold State.mosaicLineStart
    split_ifs
    · exact ⟨hd, mapAff_legal hb fun _ h => h, hr⟩
    · exact ⟨hd, hb, hr⟩
  case winin =>
    intro s l d ⟨hd, hb, ⟨hi, ho⟩, hr⟩
    exact ⟨hd, hb, ⟨writeLane_legal _ d hi (by decide), ho⟩, hr⟩
  case winout =>
    intro s l d ⟨hd, hb, ⟨hi, ho⟩, hr⟩
    exact ⟨hd, hb, ⟨hi, writeLane_legal _ d ho (by decide)⟩, hr⟩
  case winh => exact fun n _ _ ⟨hd, hb, hw, hr⟩ => ⟨hd, hb, setH_legal hw n _, hr⟩
  case winv => exact fun n _ _ ⟨hd, hb, hw, hr⟩ => ⟨hd, hb, setV_legal hw n _, hr⟩
  case bldcnt =>
    intro s l d ⟨hd, hb, hw, ⟨hc, ha, hy⟩, hr⟩
    exact ⟨hd, hb, hw, ⟨writeLane_legal _ d hc (by decide), ha, hy⟩, hr⟩
  case bldalpha =>
    intro s l d ⟨hd, hb, hw, ⟨hc, ha, hy⟩, hr⟩
    exact ⟨hd, hb, hw, ⟨hc, writeLane_legal _ d ha (by decide), hy⟩, hr⟩
  case bldy =>
    intro s l d ⟨hd, hb, hw, ⟨hc, ha, hy⟩, hr⟩
    exact ⟨hd, hb, hw, ⟨hc, ha, writeLane_legal _ d hy (by decide)⟩, hr⟩
  case ie =>
    intro s l d ⟨hd, hb, hw, hf, ⟨he, hi, hm⟩, hv⟩
    exact ⟨hd, hb, hw, hf, ⟨writeLane_legal _ d he (by decide), hi, hm⟩, hv⟩
  case iflag =>
    intro s l d ⟨hd, hb, hw, hf, ⟨he, hi, hm⟩, hv⟩
    exact ⟨hd, hb, hw, hf, ⟨he, and_and_zero _ hi, hm⟩, hv⟩
  case flag =>
    intro s k hk ⟨hd, hb, hw, hf, ⟨he, hi, hm⟩, hv⟩
    exact ⟨hd, hb, hw, hf, ⟨he, and_or_zero hi (kindBit_legal hk), hm⟩, hv⟩
  case ime =>
    intro s l d ⟨hd, hb, hw, hf, ⟨he, hi, hm⟩, hv⟩
    exact ⟨hd, hb, hw, hf, ⟨he, hi, writeLane_legal _ d hm (by decide)⟩, hv⟩
  case lineEnd =>
    intro s ⟨hd, hb, hw, hf, hi, _⟩
    exact ⟨hd, hb, hw, hf, hi, (nextMosV_le _ _).trans (mosBgV_le _)⟩
  case frameStart => exact fun ⟨hd, hb, hw, hf, hi, _⟩ => ⟨hd, hb, hw, hf, hi, Nat.zero_le _⟩
  case schedule | lcdSchedule | advance => intros; simpa [State.RegsLegal]
  all_goals intros; assumption

/-- Settles O40: every part keeps the layouts (`regsLegal_kept`), so every step does. -/
theorem stepKeepsRegisters : Obligations.StepKeepsRegisters :=
  fun _ _ hs ht => regsLegal_kept.step hs ht

/-! ## The framebuffers -/

theorem Frame.set_shaped {f : Frame} (h : f.Shaped) (y : Nat) {r : Row} (hr : r.length = screenW) :
    Frame.Shaped (f.set y r) := by
  obtain ⟨hl, hrows⟩ := h
  refine ⟨by simpa using hl, fun q hq => ?_⟩
  rcases List.mem_or_eq_of_mem_set hq with hq | rfl
  · exact hrows q hq
  · exact hr

/-- A rendered row has 240 pixels, and the end of a frame swaps two framebuffers that both have their shape. -/
theorem frames_shaped_kept : KeptByParts fun s => s.output.Shaped := by
  constructor
  constructor
  case row => exact fun y _ hr ⟨hf, hb⟩ => ⟨hf, Frame.set_shaped hb y hr⟩
  case complete => exact fun ⟨hf, hb⟩ => ⟨hb, hf⟩
  case schedule | lcdSchedule => intros; rwa [State.schedule_output]
  case advance => intros; rwa [State.advance_output]
  case lineStart => intros; rwa [State.mosaicLineStart_output]
  all_goals intros; assumption

/-- Settles O41: every part keeps the shape (`frames_shaped_kept`), so every step does. -/
theorem stepKeepsFrames : Obligations.StepKeepsFrames :=
  fun _ _ hs ht => frames_shaped_kept.step hs ht

end Sys2Proof.Machine

/-! Steps and words (R91, R110), and what a scanline depends on (R92, R300). -/

namespace Sys2Proof.Machine

open Sys2Proof.Config

/-! ## The word a step runs -/

theorem step_of_decode_ok {s : State} {w : OpWord} {rest : List OpWord} {i : Instr} (hin : s.ports.input = w :: rest)
    (hd : decode w = .ok i) : step s = exec i (s.begin rest) := by
  simp only [step, hin, hd]

theorem step_of_input_nil {s : State} (hin : s.ports.input = []) : step s = .next (s.begin []) := by
  simp only [step, hin]

/-- The offered word leaves the input at once, and what the environment offered before stands there again. -/
theorem step_withFetchWord {s : State} {n w : Nat} {i : Instr} (hd : decode (wordOf n w) = .ok i) :
    step (s.withFetchWord n w) = exec i (s.begin s.ports.input) :=
  step_of_decode_ok (s := s.withFetchWord n w) rfl hd

/-- Settles O5: by the branches of `step`; where no word is offered the input it leaves is the empty one. -/
theorem stepRunsTheWord : Obligations.StepRunsTheWord := by
  refine ⟨fun _ _ _ _ hin hd => step_of_decode_ok hin hd, fun s hin => ?_, fun _ _ _ _ hd => step_withFetchWord hd⟩
  rw [step_of_input_nil hin, State.begin, ← hin]

/-! ## States of the same picture

Each function of the renderer, from the reads up to the row, is the same function of two states that agree on the
picture's inputs. A function of registers alone follows from the registers it names; one that reads video memory
follows from `fetch8` and the functions it calls. -/

namespace State.SamePicture

section
variable {s t : State} (h : State.SamePicture s t)
include h

theorem display : s.display = t.display := let ⟨hd, _⟩ := h; hd
theorem bgs : s.bgs = t.bgs := let ⟨_, hb, _⟩ := h; hb
theorem win : s.win = t.win := let ⟨_, _, hw, _⟩ := h; hw
theorem fx : s.fx = t.fx := let ⟨_, _, _, hf, _⟩ := h; hf
theorem mos : s.mos = t.mos := let ⟨_, _, _, _, hm, _⟩ := h; hm
theorem byte? : s.byte? = t.byte? := let ⟨_, _, _, _, _, hv, _⟩ := h; funext₂ hv
theorem colorCorrection : s.output.colorCorrection = t.output.colorCorrection :=
  let ⟨_, _, _, _, _, _, hc⟩ := h; hc

/-! ### Reads -/

theorem fetch8 : s.fetch8 = t.fetch8 := by
  funext m a; simp only [State.fetch8, h.byte?]

theorem fetch16 : s.fetch16 = t.fetch16 := by
  funext m a; simp only [State.fetch16, h.fetch8]

theorem paletteColour : s.paletteColour = t.paletteColour := by
  funext a; simp only [State.paletteColour, h.fetch16]

/-! ### Background layers -/

theorem layerOrder : s.layerOrder = t.layerOrder := by
  simp only [State.layerOrder, State.layerShown, h.display, h.bgs]

theorem bgPx : s.bgPx = t.bgPx := by
  funext n c; simp only [State.bgPx, h.bgs]

theorem tilePixel : s.tilePixel = t.tilePixel := by
  funext n e px py; simp only [State.tilePixel, h.bgs, h.fetch8, h.paletteColour, h.bgPx]

theorem textPixel : s.textPixel = t.textPixel := by
  funext n y x; simp only [State.textPixel, h.bgs, h.mos, h.fetch16, h.tilePixel]

theorem affineTexel : s.affineTexel = t.affineTexel := by
  funext n x; simp only [State.affineTexel, h.bgs]

theorem affineTile : s.affineTile = t.affineTile := by
  funext n tx ty; simp only [State.affineTile, h.bgs, h.fetch8, h.paletteColour, h.bgPx]

theorem affinePixel : s.affinePixel = t.affinePixel := by
  funext n x; simp only [State.affinePixel, h.bgs, h.affineTexel, h.affineTile]

theorem bitmapPixel : s.bitmapPixel = t.bitmapPixel := by
  funext n w k texel x; simp only [State.bitmapPixel, h.affineTexel]

theorem frameBase : s.frameBase = t.frameBase := by
  simp only [State.frameBase, h.display]

theorem direct16 : s.direct16 = t.direct16 := by
  funext n a; simp only [State.direct16, h.fetch16, h.bgPx]

theorem bitmap3Texel : s.bitmap3Texel = t.bitmap3Texel := by
  funext n tx ty; simp only [State.bitmap3Texel, h.direct16]

theorem bitmap4Texel : s.bitmap4Texel = t.bitmap4Texel := by
  funext n tx ty; simp only [State.bitmap4Texel, h.frameBase, h.fetch8, h.paletteColour, h.bgPx]

theorem bitmap5Texel : s.bitmap5Texel = t.bitmap5Texel := by
  funext n tx ty; simp only [State.bitmap5Texel, h.frameBase, h.direct16]

theorem layerPixel : s.layerPixel = t.layerPixel := by
  funext kind n y x
  cases kind with
  | text => exact congrFun₃ h.textPixel n y x
  | affine => exact congrFun₂ h.affinePixel n x
  | bitmap3 => simp only [State.layerPixel, h.bitmapPixel, h.bitmap3Texel]
  | bitmap4 => simp only [State.layerPixel, h.bitmapPixel, h.bitmap4Texel]
  | bitmap5 => simp only [State.layerPixel, h.bitmapPixel, h.bitmap5Texel]

theorem bgRow : s.bgRow = t.bgRow := by
  funext n y; simp only [State.bgRow, h.display, h.bgs, h.fx, h.layerPixel]

/-! ### Objects -/

theorem objAttr : s.objAttr = t.objAttr := by
  funext i; simp only [State.objAttr, h.fetch16]

theorem objMatrix : s.objMatrix = t.objMatrix := by
  funext g; simp only [State.objMatrix, h.fetch16]

theorem objTileUnit : s.objTileUnit = t.objTileUnit := by
  funext o tx ty; simp only [State.objTileUnit, h.display]

theorem objTexel : s.objTexel = t.objTexel := by
  funext o tx ty
  simp only [State.objTexel, State.objTexelOffset, h.display, h.objTileUnit, h.fetch8, h.paletteColour]

theorem objSample : s.objSample = t.objSample := by
  funext o ix iy; simp only [State.objSample, h.fx]

theorem affineObjTexel : s.affineObjTexel = t.affineObjTexel := by
  funext o m ix iy; simp only [State.affineObjTexel, h.objSample]

theorem drawFlat : s.drawFlat = t.drawFlat := by
  funext o iy line; simp only [State.drawFlat, State.flatTexel, h.objSample, h.objTexel]

theorem drawAffine : s.drawAffine = t.drawAffine := by
  funext o iy line; simp only [State.drawAffine, h.objMatrix, h.affineObjTexel, h.objTexel]

theorem scanObject : s.scanObject = t.scanObject := by
  funext y line i
  simp only [State.scanObject, State.scanEnabled, h.fetch16, h.objAttr, h.drawAffine, h.drawFlat]

theorem objectLine : s.objectLine = t.objectLine := by
  funext y; simp only [State.objectLine, h.display, h.scanObject]

/-! ### The row -/

theorem inWindow : s.inWindow = t.inWindow := by
  funext n x y; simp only [State.inWindow, h.win]

theorem windowMask : s.windowMask = t.windowMask := by
  funext x y objwin; simp only [State.windowMask, h.inWindow, h.display, h.win]

theorem colourEffect : s.colourEffect = t.colourEffect := by
  funext c; simp only [State.colourEffect, h.fx]

theorem toRgba : s.toRgba = t.toRgba := by
  funext c; simp only [State.toRgba, h.colorCorrection]

theorem pushLayer : s.pushLayer = t.pushLayer := by
  funext y cols n; simp only [State.pushLayer, h.bgRow]

theorem lineColours : s.lineColours = t.lineColours := by
  funext y
  simp only [State.lineColours, State.initCols, h.display, h.objectLine, h.paletteColour, h.layerOrder, h.windowMask,
    h.pushLayer, h.colourEffect]

/-- R92: the row of a scanline, or the fault its rendering meets first, is the same. -/
theorem lineRow : s.lineRow = t.lineRow := by
  funext y; simp only [State.lineRow, h.display, h.lineColours, h.toRgba]

/-- The start of a line latches from the picture's inputs alone (R341). -/
theorem mosaicLineStart (y : Nat) : State.SamePicture (s.mosaicLineStart y) (t.mosaicLineStart y) := by
  obtain ⟨hd, hb, hw, hf, hm, hv, hc⟩ := h
  unfold State.mosaicLineStart
  rw [hm, hb]
  split_ifs
  · exact ⟨hd, rfl, hw, hf, rfl, hv, hc⟩
  · exact ⟨hd, hb, hw, hf, hm, hv, hc⟩

end

end State.SamePicture

/-! ## What rendering a line leaves -/

/-- R341 in the arithmetic of R10: the counter is at most 16, so that it never wraps. -/
theorem nextMosV_val (v : Fin 17) (m : Half) :
    (nextMosV v (mosBgV m)).val = if m.toNat / 16 % 16 < v.val + 1 then 0 else v.val + 1 := by
  have hb : mosBgV m = m.toNat / 16 % 16 := field_eq m 4 4
  rw [nextMosV, hb]
  split_ifs with hw
  · rfl
  · show (v.val + 1) % 17 = v.val + 1
    omega

theorem aff_mapAff (b : Backgrounds) (f : Affine → Affine) (n : AffineBg) : (b.mapAff f).aff n = f (b.aff n) := by
  cases n <;> rfl

/-- The end of a line after its start: the row stored, the references accumulated, the mosaic counter moved on. -/
theorem LineStarted.lineRendered {s p : State} {y : Byte} (h : LineStarted s p y) (row : Row) :
    LineRendered s ((p.setBackRow y.toNat row).affineAccumulate.mosaicLineEnd) y row := by
  obtain ⟨hp, hbg, haff, hv, hline⟩ := h
  have hfx : p.fx = s.fx := by rw [hp]
  refine ⟨?_, hbg, fun n => ?_, hline, ?_⟩
  · rw [hp]; rfl
  · show (p.bgs.mapAff Affine.accumulate).aff n = _
    rw [aff_mapAff, haff]; rfl
  · show (nextMosV p.mos.v (mosBgV p.fx.mosaic)).val = _
    rw [hfx, hv, nextMosV_val]

theorem renderLine_of_lineRow_ok {s : State} {y : Byte} {row : Row}
    (h : (s.mosaicLineStart y.toNat).lineRow y.toNat = .ok row) : LineRendered s (s.renderLine y.toNat) y row := by
  have hr := (mosaicLineStart_started s y).lineRendered row
  simpa only [State.renderLine, h] using hr

theorem renderLine_of_lineRow_error {s : State} {y : Nat} {k : FaultKind}
    (h : (s.mosaicLineStart y).lineRow y = .error k) :
    s.renderLine y = (s.mosaicLineStart y).raise k (.renderLine y) := by
  simp only [State.renderLine, h]

/-- A fault ends the render before a pixel is written (R440). -/
theorem renderLine_faults_of_lineRow_error {s : State} {y : Nat} {k : FaultKind} (hs : s.Running)
    (h : (s.mosaicLineStart y).lineRow y = .error k) :
    (s.renderLine y).faults = [⟨k, .renderLine y⟩] ∧ (s.renderLine y).output = s.output := by
  simp [renderLine_of_lineRow_error h, State.raise, hs]

/-- `RENDER.LINE` as the block issues it is the render itself (R300). -/
theorem exec_renderLine_internal {s : State} (hs : s.Running) (hi : s.ports.issuer = .internal) (y : Byte) :
    exec (.renderLine y) s = .next (s.renderLine y.toNat) := by
  show execRenderLine y s = _
  simp only [execRenderLine, act_running hs, hi]

/-- Settles O48: after the start of the line the two states still agree on the picture's inputs, so the renderer
gives both one row, or one fault. -/
theorem pictureDependsOnlyOnItsInputs : Obligations.PictureDependsOnlyOnItsInputs := by
  refine ⟨fun s y hs hi => exec_renderLine_internal hs hi y, fun s t y hs ht h => ?_⟩
  have hrow := congrFun (h.mosaicLineStart y.toNat).lineRow y.toNat
  cases hres : (t.mosaicLineStart y.toNat).lineRow y.toNat with
  | ok row => exact .inl ⟨row, renderLine_of_lineRow_ok (hrow.trans hres), renderLine_of_lineRow_ok hres⟩
  | error k =>
    obtain ⟨hsf, hso⟩ := renderLine_faults_of_lineRow_error hs (hrow.trans hres)
    obtain ⟨htf, hto⟩ := renderLine_faults_of_lineRow_error ht hres
    exact .inr ⟨⟨k, .renderLine y.toNat⟩, hsf, htf, hso, hto⟩

end Sys2Proof.Machine

/-! Operation words (R110 to R118): each word by its fields, the address map and its inverse, and what the decoder
answers to any word. -/

namespace Sys2Proof

open Machine

/-! ## Fields of a vector -/

theorem toNat_append_eq {n m : Nat} (x : BitVec n) (y : BitVec m) : (x ++ y).toNat = x.toNat * 2 ^ m + y.toNat := by
  rw [BitVec.toNat_append, ← Nat.shiftLeft_add_eq_or_of_lt y.isLt, Nat.shiftLeft_eq]

theorem toNat_extractLsb' {w : Nat} (v : BitVec w) (lo n : Nat) :
    (v.extractLsb' lo n).toNat = v.toNat / 2 ^ lo % 2 ^ n := by
  rw [BitVec.extractLsb'_toNat, Nat.shiftRight_eq_div_pow]

theorem extractLsb'_eq_of_toNat {w lo n : Nat} {v : BitVec w} {x : BitVec n} (h : v.toNat / 2 ^ lo % 2 ^ n = x.toNat) :
    v.extractLsb' lo n = x :=
  BitVec.eq_of_toNat_eq ((toNat_extractLsb' v lo n).trans h)

/-- The bits above the low `m` are 0 exactly when the vector is one of `m` bits. -/
theorem extractLsb'_high_eq_zero_iff {n m : Nat} (x : BitVec (n + m)) : x.extractLsb' m n = 0 ↔ x.toNat < 2 ^ m := by
  have hx : x.toNat / 2 ^ m < 2 ^ n := Nat.div_lt_of_lt_mul (by simpa only [pow_add, Nat.mul_comm] using x.isLt)
  rw [← BitVec.toNat_inj, toNat_extractLsb', Nat.mod_eq_of_lt hx]
  exact Nat.div_eq_zero_iff_lt (Nat.two_pow_pos m)

theorem zero_append_extractLsb' {n m : Nat} {x : BitVec (n + m)} (h : x.toNat < 2 ^ m) :
    0#n ++ x.extractLsb' 0 m = x := by
  apply BitVec.eq_of_toNat_eq
  rw [toNat_append_eq, toNat_extractLsb', pow_zero, Nat.div_one, Nat.mod_eq_of_lt h, BitVec.toNat_ofNat, Nat.zero_mod,
    Nat.zero_mul, Nat.zero_add]

theorem toNat_zero_append {n m : Nat} (x : BitVec m) : (0#n ++ x).toNat = x.toNat := by
  simp

theorem extractLsb'_zero_append {n m : Nat} (x : BitVec m) : (0#n ++ x).extractLsb' 0 m = x := by
  apply extractLsb'_eq_of_toNat
  rw [toNat_zero_append, pow_zero, Nat.div_one, Nat.mod_eq_of_lt x.isLt]

/-! ## The address map (R117) -/

@[simp] theorem toNat_laneOf (a : Nat) : (laneOf a).toNat = a % 2 := BitVec.toNat_ofNat a 1

@[simp] theorem affineBgOf_code (a : Nat) : (affineBgOf a).code = a / 16 % 2 := by
  unfold affineBgOf
  split_ifs with h
  · exact h.symm
  · exact (Nat.mod_two_ne_zero.mp h).symm

@[simp] theorem windowOf_code (a : Nat) : (windowOf a).code = a / 2 % 2 := by
  unfold windowOf
  split_ifs with h
  · exact h.symm
  · exact (Nat.mod_two_ne_zero.mp h).symm

@[simp] theorem scroll_code (a : Nat) : (if a / 2 % 2 = 0 then Scroll.h else Scroll.v).code = a / 2 % 2 := by
  split_ifs with h
  · exact h.symm
  · exact (Nat.mod_two_ne_zero.mp h).symm

@[simp] theorem axis_code (a : Nat) : (if a / 4 % 2 = 0 then Axis.x else Axis.y).code = a / 4 % 2 := by
  split_ifs with h
  · exact h.symm
  · exact (Nat.mod_two_ne_zero.mp h).symm

@[simp] theorem affineParamOf_code (a : Nat) : (affineParamOf a).code = a / 2 % 4 := by
  unfold affineParamOf
  have hk : a / 2 % 4 < 4 := Nat.mod_lt _ (by decide)
  generalize a / 2 % 4 = k at hk
  match k, hk with
  | 0, _ | 1, _ | 2, _ | 3, _ => rfl

/-- What the address map may answer for `a`: the target whose address is `a` where R81 has one, and none elsewhere. -/
def MapsAddress (a : Nat) : Option BusTarget → Prop
  | none => ¬ OwnedAddress a
  | some t => OwnedAddress a ∧ t.addr = a

/-- Range by range of the map; inside a range the sub-fields of the target are those of the address. -/
theorem busTarget_mapsAddress (a : Nat) : MapsAddress a (busTarget a) := by
  unfold busTarget
  repeat' refine iteInduction (motive := MapsAddress a) (fun _ => ?_) fun _ => ?_
  all_goals
    simp only [MapsAddress, OwnedAddress, BusTarget.addr, toNat_laneOf, affineBgOf_code, windowOf_code, scroll_code,
      axis_code, affineParamOf_code, BitVec.toNat_ofNat, Fin.val_ofNat]
    omega

theorem ofNat_add_toNat {n b : Nat} (h : b % 2 ^ n = 0) (x : BitVec n) : BitVec.ofNat n (b + x.toNat) = x := by
  apply BitVec.eq_of_toNat_eq
  rw [BitVec.toNat_ofNat, Nat.add_mod, h, Nat.zero_add, Nat.mod_mod, Nat.mod_eq_of_lt x.isLt]

/-- The map is inverse to `BusTarget.addr`. The I/O registers are few, and are checked one by one; a video memory is
a range whose base its offsets do not reach. -/
theorem busTarget_addr (t : BusTarget) : busTarget t.addr = some t := by
  cases t with
  | pram o | vramLo o | vramHi o | oam o =>
    simp only [BusTarget.addr]
    unfold busTarget
    repeat rw [if_neg (by omega)]
    rw [if_pos (by omega), ofNat_add_toNat (by decide)]
  | bgcnt n l => revert n l; decide
  | bgofs n ax l => cases ax <;> revert n l <;> decide
  | bgp n p l => cases n <;> cases p <;> revert l <;> decide
  | bgref n ax l => cases n <;> cases ax <;> revert l <;> decide
  | winh n l | winv n l => cases n <;> revert l <;> decide
  | noreg058 o => revert o; decide
  | dispcnt l | noreg002 l | dispstat l | vcount l | winin l | winout l | mosaic l | noreg04e l | bldcnt l | bldalpha l
  | bldy l | noreg056 l | ie l | iflag l | ime l | noreg20a l => revert l; decide

theorem ownedAddress_addr (t : BusTarget) : OwnedAddress t.addr := by
  have h := busTarget_mapsAddress t.addr
  rw [busTarget_addr] at h
  exact h.1

theorem toNat_ofNat_addr (t : BusTarget) : (BitVec.ofNat 32 t.addr).toNat = t.addr := by
  have h := ownedAddress_addr t
  unfold OwnedAddress at h
  rw [BitVec.toNat_ofNat, Nat.mod_eq_of_lt (by omega)]

/-! ## A word and its fields (R110 to R112) -/

/-- The word of port `BUS` with these fields, the must-be-0 bits 58:40 (`z`) among them (R111). -/
def busFields (wr : BitVec 1) (z : BitVec 19) (addr : BitVec 32) (data : Byte) : OpWord :=
  0#4 ++ wr ++ z ++ addr ++ data

theorem busWord_eq_busFields (wr : BitVec 1) (t : BusTarget) (data : Byte) :
    busWord wr t data = busFields wr 0 (BitVec.ofNat 32 t.addr) data := rfl

section
variable (wr : BitVec 1) (z : BitVec 19) (addr : BitVec 32) (data : Byte)

theorem toNat_busFields : (busFields wr z addr data).toNat =
    wr.toNat * 2 ^ 59 + z.toNat * 2 ^ 40 + addr.toNat * 2 ^ 8 + data.toNat := by
  simp only [busFields, toNat_append_eq, BitVec.toNat_ofNat]
  omega

theorem busFields_port : (busFields wr z addr data).toNat / 2 ^ 60 = 0 := by rw [toNat_busFields]; omega
theorem busFields_wr : (busFields wr z addr data).toNat / 2 ^ 59 % 2 = wr.toNat := by rw [toNat_busFields]; omega
theorem busFields_zeros : (busFields wr z addr data).toNat / 2 ^ 40 % 2 ^ 19 = z.toNat := by
  rw [toNat_busFields]; omega
theorem busFields_addr : (busFields wr z addr data).toNat / 2 ^ 8 % 2 ^ 32 = addr.toNat := by
  rw [toNat_busFields]; omega
theorem busFields_data : (busFields wr z addr data).toNat % 256 = data.toNat := by rw [toNat_busFields]; omega

end

section
variable (p s : BitVec 4) (t : Byte) (a : BitVec 48)

theorem toNat_cmdWord : (cmdWord p s t a).toNat =
    p.toNat * 2 ^ 60 + s.toNat * 2 ^ 56 + t.toNat * 2 ^ 48 + a.toNat := by
  simp only [cmdWord, toNat_append_eq]
  omega

theorem cmdWord_port : (cmdWord p s t a).toNat / 2 ^ 60 = p.toNat := by rw [toNat_cmdWord]; omega
theorem cmdWord_sub : (cmdWord p s t a).toNat / 2 ^ 56 % 16 = s.toNat := by rw [toNat_cmdWord]; omega
theorem cmdWord_tag : (cmdWord p s t a).toNat / 2 ^ 48 % 256 = t.toNat := by rw [toNat_cmdWord]; omega
theorem cmdWord_low16 : (cmdWord p s t a).toNat % 16 = a.toNat % 16 := by rw [toNat_cmdWord]; omega
theorem cmdWord_low256 : (cmdWord p s t a).toNat % 256 = a.toNat % 256 := by rw [toNat_cmdWord]; omega
theorem cmdWord_arg : (cmdWord p s t a).toNat % 2 ^ 48 = a.toNat := by rw [toNat_cmdWord]; omega

end


section
variable (p s : BitVec 4) (t : Byte) (a : BitVec 48)

theorem extract_port : (cmdWord p s t a).extractLsb' 60 4 = p :=
  extractLsb'_eq_of_toNat (by rw [cmdWord_port]; omega)
theorem extract_sub : (cmdWord p s t a).extractLsb' 56 4 = s := extractLsb'_eq_of_toNat (cmdWord_sub p s t a)
theorem extract_tag : (cmdWord p s t a).extractLsb' 48 8 = t := extractLsb'_eq_of_toNat (cmdWord_tag p s t a)
theorem extract_arg : (cmdWord p s t a).extractLsb' 0 48 = a :=
  extractLsb'_eq_of_toNat (by rw [pow_zero, Nat.div_one, cmdWord_arg])

end

theorem cmdWord_extract (w : OpWord) :
    cmdWord (w.extractLsb' 60 4) (w.extractLsb' 56 4) (w.extractLsb' 48 8) (w.extractLsb' 0 48) = w := by
  apply BitVec.eq_of_toNat_eq
  simp only [toNat_cmdWord, toNat_extractLsb']
  omega

theorem busFields_extract {w : OpWord} (h : w.extractLsb' 60 4 = 0) :
    busFields (w.extractLsb' 59 1) (w.extractLsb' 40 19) (w.extractLsb' 8 32) (w.extractLsb' 0 8) = w := by
  have hp : w.toNat / 2 ^ 60 % 2 ^ 4 = 0 := by rw [← toNat_extractLsb', h]; rfl
  apply BitVec.eq_of_toNat_eq
  simp only [toNat_busFields, toNat_extractLsb']
  omega

/-- Every word is a word of one of the six formats (R111, R112) or of a reserved port. -/
theorem OpWord.byFormat {P : OpWord → Prop} (bus : ∀ wr z addr data, P (busFields wr z addr data))
    (sched : ∀ s t a, P (cmdWord 1 s t a)) (event : ∀ s t a, P (cmdWord 2 s t a))
    (irq : ∀ s t a, P (cmdWord 3 s t a)) (host : ∀ s t a, P (cmdWord 4 s t a))
    (render : ∀ s t a, P (cmdWord 5 s t a))
    (reserved : ∀ p s t a, 6 ≤ p.toNat → P (cmdWord p s t a)) (w : OpWord) : P w := by
  have ports : ∀ p : BitVec 4, p = 0 ∨ p = 1 ∨ p = 2 ∨ p = 3 ∨ p = 4 ∨ p = 5 ∨ 6 ≤ p.toNat := by decide
  have hw := cmdWord_extract w
  rcases ports (w.extractLsb' 60 4) with h | h | h | h | h | h | h
  · rw [← busFields_extract h]; exact bus ..
  · rw [← hw, h]; exact sched ..
  · rw [← hw, h]; exact event ..
  · rw [← hw, h]; exact irq ..
  · rw [← hw, h]; exact host ..
  · rw [← hw, h]; exact render ..
  · rw [← hw]; exact reserved _ _ _ _ h

/-! ## The decoder on each format -/

section
variable (s : BitVec 4) (t : Byte) (a : BitVec 48)

theorem decode_sched : decode (cmdWord 1 s t a) = decodeSched s.toNat t a := by
  simp only [decode, extract_port, extract_sub, extract_tag, extract_arg]; rfl
theorem decode_event : decode (cmdWord 2 s t a) = decodeEvent s.toNat t a := by
  simp only [decode, extract_port, extract_sub, extract_tag, extract_arg]; rfl
theorem decode_irq : decode (cmdWord 3 s t a) = decodeIrq s.toNat t a := by
  simp only [decode, extract_port, extract_sub, extract_tag, extract_arg]; rfl
theorem decode_host : decode (cmdWord 4 s t a) = decodeHost s.toNat t a := by
  simp only [decode, extract_port, extract_sub, extract_tag, extract_arg]; rfl
theorem decode_render : decode (cmdWord 5 s t a) = decodeRender s.toNat t a := by
  simp only [decode, extract_port, extract_sub, extract_tag, extract_arg]; rfl

theorem decode_reservedPort {p : BitVec 4} (h : 6 ≤ p.toNat) : decode (cmdWord p s t a) = .error .reservedPort := by
  simp only [decode, extract_port]
  split
  case h_7 => rfl
  all_goals omega

end

section
variable (wr : BitVec 1) (z : BitVec 19) (addr : BitVec 32) (data : Byte)

theorem extract_wr : (busFields wr z addr data).extractLsb' 59 1 = wr :=
  extractLsb'_eq_of_toNat (busFields_wr wr z addr data)
theorem extract_zeros : (busFields wr z addr data).extractLsb' 40 19 = z :=
  extractLsb'_eq_of_toNat (busFields_zeros wr z addr data)
theorem extract_addr : (busFields wr z addr data).extractLsb' 8 32 = addr :=
  extractLsb'_eq_of_toNat (busFields_addr wr z addr data)
theorem extract_data : (busFields wr z addr data).extractLsb' 0 8 = data :=
  extractLsb'_eq_of_toNat (by rw [pow_zero, Nat.div_one]; exact busFields_data wr z addr data)

theorem decode_busFields : decode (busFields wr z addr data) = decodeBus (busFields wr z addr data) := by
  have h : (busFields wr z addr data).extractLsb' 60 4 = 0 :=
    extractLsb'_eq_of_toNat (by rw [busFields_port]; rfl)
  simp only [decode, h]
  rfl

/-- A must-be-0 bit of a bus word is set: of bits 58:40, or of the `DATA` of a read (R111). -/
theorem decode_bus_nonzeroReserved (h : z ≠ 0 ∨ wr = 0 ∧ data ≠ 0) :
    decode (busFields wr z addr data) = .error .nonzeroReserved := by
  simp only [decode_busFields, decodeBus, extract_wr, extract_zeros, extract_data]
  by_cases hz : z ≠ 0
  · exact if_pos hz
  · exact (if_neg hz).trans (if_pos (h.resolve_left hz))

variable {wr addr data}

theorem decode_bus_unownedAddress (h : ¬ (wr = 0 ∧ data ≠ 0)) (ha : busTarget addr.toNat = none) :
    decode (busFields wr 0 addr data) = .error .unownedAddress := by
  simp only [decode_busFields, decodeBus, extract_wr, extract_zeros, extract_addr, extract_data, h, ha]
  rfl

theorem decode_bus_target (h : ¬ (wr = 0 ∧ data ≠ 0)) {t : BusTarget} (ha : busTarget addr.toNat = some t) :
    decode (busFields wr 0 addr data) = .ok (if wr = 1 then t.write data else t.read) := by
  simp only [decode_busFields, decodeBus, extract_wr, extract_zeros, extract_addr, extract_data, h, ha]
  rfl

end

theorem busTarget_toNat_addr (t : BusTarget) : busTarget (BitVec.ofNat 32 t.addr).toNat = some t := by
  rw [toNat_ofNat_addr, busTarget_addr]

theorem decode_busWord_write (t : BusTarget) (d : Byte) : decode (busWord 1 t d) = .ok (t.write d) :=
  decode_bus_target (by simp) (busTarget_toNat_addr t)

theorem decode_busWord_read (t : BusTarget) : decode (busWord 0 t 0) = .ok t.read :=
  decode_bus_target (by simp) (busTarget_toNat_addr t)

/-- An operand at the low end of `ARG` leaves the bits above it 0. -/
theorem extractLsb'_high_zero_append {n m : Nat} (x : BitVec m) : (0#n ++ x).extractLsb' m n = 0 :=
  (extractLsb'_high_eq_zero_iff _).mpr (toNat_zero_append x ▸ x.isLt)

theorem decode_cmdWord_irqFlag {k : BitVec 4} (hk : k.toNat < 14) :
    decode (cmdWord 3 0 0 (0#44 ++ k)) = .ok (.irqFlag k) := by
  have hz : (0#44 ++ k).extractLsb' 4 44 = 0 := extractLsb'_high_zero_append k
  have hl : (0#44 ++ k).extractLsb' 0 4 = k := extractLsb'_zero_append k
  rw [decode_irq]
  simp [decodeIrq, hz, hl, hk]

theorem decode_cmdWord_hostSetcc (e : BitVec 1) : decode (cmdWord 4 2 0 (0#47 ++ e)) = .ok (.hostSetcc e) := by
  have hz : (0#47 ++ e).extractLsb' 1 47 = 0 := extractLsb'_high_zero_append e
  have hl : (0#47 ++ e).extractLsb' 0 1 = e := extractLsb'_zero_append e
  rw [decode_host]
  simp [decodeHost, hz, hl]

theorem decode_cmdWord_renderLine {y : Byte} (hy : y.toNat < Config.screenH) :
    decode (cmdWord 5 0 0 (0#40 ++ y)) = .ok (.renderLine y) := by
  have hz : (0#40 ++ y).extractLsb' 8 40 = 0 := extractLsb'_high_zero_append y
  have hl : (0#40 ++ y).extractLsb' 0 8 = y := extractLsb'_zero_append y
  rw [decode_render]
  simp [decodeRender, hz, hl, hy]

/-- Settles O1: a bus word decodes to the access of its target (`decode_busWord_write`, `decode_busWord_read`), and
the word of a command to the command, by the decoder of its format. -/
theorem decodeOfEncode : Obligations.DecodeOfEncode := by
  intro i hi
  cases i with
  | wDispcnt | wNoreg002 | wDispstat | wVcount | wBgcnt | wBgofs | wBgp | wBgref | wWinh | wWinv | wWinin | wWinout
  | wMosaic | wNoreg04e | wBldcnt | wBldalpha | wBldy | wNoreg056 | wNoreg058 | wIe | wIf | wIme | wNoreg20a | wPram
  | wVramLo | wVramHi | wOam => exact decode_busWord_write _ _
  | rDispcnt | rNoreg002 | rDispstat | rVcount | rBgcnt | rBgofs | rBgp | rBgref | rWinh | rWinv | rWinin | rWinout
  | rMosaic | rNoreg04e | rBldcnt | rBldalpha | rBldy | rNoreg056 | rNoreg058 | rIe | rIf | rIme | rNoreg20a | rPram
  | rVramLo | rVramHi | rOam => exact decode_busWord_read _
  | schedAdd | schedPop | schedCancel | schedAdvance | schedDrain | schedHaltskip | schedNext | schedNow =>
    exact decode_sched ..
  | eventHblankStart | eventHblankEnd => exact decode_event ..
  | irqFlag k => exact decode_cmdWord_irqFlag (of_decide_eq_true hi)
  | irqLine | irqHaltexit => exact decode_irq ..
  | hostSetcc e => exact decode_cmdWord_hostSetcc e
  | hostReadframe | hostClearready | hostReady | hostFrames => exact decode_host ..
  | renderLine y => exact decode_cmdWord_renderLine (of_decide_eq_true hi)

/-! ## What the decoder answers -/

/-- What the decoder may answer to `w`: an operation whose word is `w`, where no rule of R118 holds of it, and
otherwise a reason whose rule holds. -/
def Answers (w : OpWord) : Except DecodeRefusal Instr → Prop
  | .ok i => i.wf = true ∧ encode i = w ∧ ∀ r, ¬ RefusalHolds w r
  | .error r => RefusalHolds w r

theorem encode_write (t : BusTarget) (d : Byte) : encode (t.write d) = busWord 1 t d := by cases t <;> rfl
theorem encode_read (t : BusTarget) : encode t.read = busWord 0 t 0 := by cases t <;> rfl
theorem wf_write (t : BusTarget) (d : Byte) : (t.write d).wf = true := by cases t <;> rfl
theorem wf_read (t : BusTarget) : t.read.wf = true := by cases t <;> rfl

theorem not_refusalHolds_busWord {wr : BitVec 1} {t : BusTarget} {d : Byte} (h : ¬ (wr = 0 ∧ d ≠ 0))
    (r : DecodeRefusal) : ¬ RefusalHolds (busWord wr t d) r := by
  have ha := ownedAddress_addr t
  have hd : wr.toNat = 0 → d.toNat = 0 := by simpa [← BitVec.toNat_inj] using h
  rw [busWord_eq_busFields]
  cases r <;> simp only [RefusalHolds, busFields_port, busFields_wr, busFields_zeros, busFields_addr, busFields_data,
    toNat_ofNat_addr, ha]
  case nonzeroReserved => simpa using hd
  all_goals simp

/-- The branches of `BUS`: a must-be-0 bit, an address without a target, a target. -/
theorem busFields_answers (wr : BitVec 1) (z : BitVec 19) (addr : BitVec 32) (data : Byte) :
    Answers (busFields wr z addr data) (decode (busFields wr z addr data)) := by
  by_cases hn : z ≠ 0 ∨ wr = 0 ∧ data ≠ 0
  · rw [decode_bus_nonzeroReserved _ _ _ _ hn]
    refine .inl ⟨busFields_port .., ?_⟩
    rw [busFields_zeros, busFields_wr, busFields_data]
    simpa [← BitVec.toNat_inj] using hn
  obtain ⟨hz, hd⟩ := not_or.mp hn
  obtain rfl : z = 0 := not_not.mp hz
  have hm := busTarget_mapsAddress addr.toNat
  cases ha : busTarget addr.toNat with
  | none =>
    rw [ha] at hm
    rw [decode_bus_unownedAddress hd ha]
    refine ⟨busFields_port .., ?_⟩
    rwa [busFields_addr]
  | some t =>
    rw [ha] at hm
    obtain ⟨-, haddr⟩ := hm
    have hw : busFields wr 0 addr data = busWord wr t data := by
      rw [busWord_eq_busFields, haddr, BitVec.ofNat_toNat, BitVec.setWidth_eq]
    rw [decode_bus_target hd ha, hw]
    rcases BitVec.eq_zero_or_eq_one wr with rfl | rfl
    · obtain rfl : data = 0 := by simpa using hd
      exact ⟨wf_read t, encode_read t, not_refusalHolds_busWord hd⟩
    · exact ⟨wf_write t data, encode_write t data, not_refusalHolds_busWord hd⟩

section
variable {p s : BitVec 4} {t : Byte} {a : BitVec 48}

theorem refusalHolds_reservedSub (hp : 1 ≤ p.toNat ∧ p.toNat ≤ 5) (hs : subCount p.toNat ≤ s.toNat) :
    RefusalHolds (cmdWord p s t a) .reservedSub := by
  simp only [RefusalHolds, cmdWord_port, cmdWord_sub]
  exact ⟨hp.1, hp.2, hs⟩

theorem refusalHolds_nonzeroReserved (hp : 1 ≤ p.toNat ∧ p.toNat ≤ 5) (hs : s.toNat < subCount p.toNat)
    (hn : CommandNonzero p.toNat s.toNat t.toNat a.toNat) : RefusalHolds (cmdWord p s t a) .nonzeroReserved := by
  simp only [RefusalHolds, cmdWord_port, cmdWord_sub, cmdWord_tag, cmdWord_arg]
  exact .inr ⟨hp.1, hp.2, hs, hn⟩

theorem refusalHolds_badKind (h : 14 ≤ a.toNat % 16) : RefusalHolds (cmdWord 3 0 t a) .badKind := by
  simp only [RefusalHolds, cmdWord_port, cmdWord_sub, cmdWord_low16]
  exact ⟨rfl, rfl, h⟩

theorem refusalHolds_badLine (h : Config.screenH ≤ a.toNat % 256) : RefusalHolds (cmdWord 5 0 t a) .badLine := by
  simp only [RefusalHolds, cmdWord_port, cmdWord_sub, cmdWord_low256]
  exact ⟨rfl, rfl, h⟩

/-- No rule of R118 holds of a command word whose port, `SUB`, must-be-0 fields and operand are in order. -/
theorem not_refusalHolds_cmdWord (hp : 1 ≤ p.toNat ∧ p.toNat ≤ 5) (hs : s.toNat < subCount p.toNat)
    (hn : ¬ CommandNonzero p.toNat s.toNat t.toNat a.toNat) (hk : p.toNat = 3 → s.toNat = 0 → a.toNat < 14)
    (hl : p.toNat = 5 → a.toNat < 160) (r : DecodeRefusal) : ¬ RefusalHolds (cmdWord p s t a) r := by
  cases r <;> simp only [RefusalHolds, cmdWord_port, cmdWord_sub, cmdWord_tag, cmdWord_arg, cmdWord_low16,
    cmdWord_low256]
  case nonzeroReserved =>
    rintro (⟨h0, -⟩ | ⟨-, -, -, h⟩)
    · omega
    · exact hn h
  all_goals omega

/-- A command without operands is refused exactly when its `TAG` or its `ARG` is not 0. -/
theorem bare_answers {n : Nat} {i : Instr} (hs : s.toNat = n)
    (hp : 1 ≤ p.toNat ∧ p.toNat ≤ 5 ∧ n < subCount p.toNat)
    (hn : ∀ t a, CommandNonzero p.toNat n t a ↔ t ≠ 0 ∨ a ≠ 0) (hw : i.wf = true)
    (hi : encode i = cmdWord p (BitVec.ofNat 4 n) 0 0) : Answers (cmdWord p s t a) (bare i t a) := by
  obtain ⟨h1, h5, hsub⟩ := hp
  rw [← hs] at hsub
  have hsn : BitVec.ofNat 4 n = s := by rw [← hs, BitVec.ofNat_toNat, BitVec.setWidth_eq]
  unfold bare
  split_ifs with h0
  · obtain ⟨rfl, rfl⟩ := h0
    exact ⟨hw, hsn ▸ hi, not_refusalHolds_cmdWord ⟨h1, h5⟩ hsub (by rw [hs, hn]; decide) (fun _ _ => by decide)
      fun _ => by decide⟩
  · refine refusalHolds_nonzeroReserved ⟨h1, h5⟩ hsub ?_
    rw [hs, hn]
    simpa [← BitVec.toNat_inj, imp_iff_not_or] using h0

/-- A command whose operand is the whole `ARG` is refused exactly when its `TAG` is not 0. -/
theorem argOnly_answers {n : Nat} {i : Instr} (hs : s.toNat = n)
    (hp : 1 ≤ p.toNat ∧ p.toNat ≤ 2 ∧ n < subCount p.toNat)
    (hn : ∀ t a, CommandNonzero p.toNat n t a ↔ t ≠ 0) (hw : i.wf = true)
    (hi : encode i = cmdWord p (BitVec.ofNat 4 n) 0 a) : Answers (cmdWord p s t a) (argOnly i t) := by
  obtain ⟨h1, h2, hsub⟩ := hp
  have hp : 1 ≤ p.toNat ∧ p.toNat ≤ 5 := ⟨h1, by omega⟩
  rw [← hs] at hsub
  have hsn : BitVec.ofNat 4 n = s := by rw [← hs, BitVec.ofNat_toNat, BitVec.setWidth_eq]
  unfold argOnly
  split_ifs with h0
  · obtain rfl := h0
    exact ⟨hw, hsn ▸ hi, not_refusalHolds_cmdWord hp hsub (by rw [hs, hn]; decide) (by omega) (by omega)⟩
  · refine refusalHolds_nonzeroReserved hp hsub ?_
    rw [hs, hn]
    simpa [← BitVec.toNat_inj] using h0

end

/-- A must-be-0 bit is set: in `TAG`, or in `ARG` above an operand of `m` bits. -/
theorem tag_or_high_nonzero_iff {n m : Nat} (t : Byte) (x : BitVec (n + m)) :
    t ≠ 0 ∨ x.extractLsb' m n ≠ 0 ↔ t.toNat ≠ 0 ∨ 2 ^ m ≤ x.toNat := by
  rw [ne_eq, ne_eq, extractLsb'_high_eq_zero_iff, not_lt, ← BitVec.toNat_inj]
  rfl

/-- Where no must-be-0 bit is set, `TAG` is 0 and `ARG` is its operand of `m` bits. -/
theorem eq_zero_append_of_not_nonzero {n m : Nat} {t : Byte} {x : BitVec (n + m)}
    (h : ¬ (t ≠ 0 ∨ x.extractLsb' m n ≠ 0)) : t = 0 ∧ x.toNat < 2 ^ m ∧ 0#n ++ x.extractLsb' 0 m = x := by
  obtain ⟨ht, hx⟩ := not_or.mp h
  have hx := (extractLsb'_high_eq_zero_iff x).mp (not_not.mp hx)
  exact ⟨not_not.mp ht, hx, zero_append_extractLsb' hx⟩

section
variable (s : BitVec 4) (t : Byte) (a : BitVec 48)

theorem decodeSched_answers : Answers (cmdWord 1 s t a) (decodeSched s.toNat t a) := by
  unfold decodeSched
  split
  next hs =>
    obtain rfl : s = 0 := BitVec.eq_of_toNat_eq hs
    exact ⟨rfl, rfl, not_refusalHolds_cmdWord (by decide) (by decide) (by simp [CommandNonzero]) (by simp)
      (by simp)⟩
  next hs => exact bare_answers hs (by decide) (by simp [CommandNonzero]) rfl rfl
  next hs =>
    obtain rfl : s = 2 := BitVec.eq_of_toNat_eq hs
    split_ifs with h0
    · subst h0
      exact ⟨rfl, rfl, not_refusalHolds_cmdWord (by decide) (by decide) (by simp [CommandNonzero]) (by simp)
        (by simp)⟩
    · refine refusalHolds_nonzeroReserved (by decide) (by decide) ?_
      simpa [CommandNonzero, ← BitVec.toNat_inj] using h0
  next hs => exact argOnly_answers hs (by decide) (by simp [CommandNonzero]) rfl rfl
  next hs => exact bare_answers hs (by decide) (by simp [CommandNonzero]) rfl rfl
  next hs => exact bare_answers hs (by decide) (by simp [CommandNonzero]) rfl rfl
  next hs => exact bare_answers hs (by decide) (by simp [CommandNonzero]) rfl rfl
  next hs => exact bare_answers hs (by decide) (by simp [CommandNonzero]) rfl rfl
  next =>
    simp only [imp_false] at *
    exact refusalHolds_reservedSub (by decide) (show 8 ≤ s.toNat by omega)

theorem decodeEvent_answers : Answers (cmdWord 2 s t a) (decodeEvent s.toNat t a) := by
  unfold decodeEvent
  split
  next hs => exact argOnly_answers hs (by decide) (by simp [CommandNonzero]) rfl rfl
  next hs => exact argOnly_answers hs (by decide) (by simp [CommandNonzero]) rfl rfl
  next =>
    simp only [imp_false] at *
    exact refusalHolds_reservedSub (by decide) (show 2 ≤ s.toNat by omega)

theorem decodeIrq_answers : Answers (cmdWord 3 s t a) (decodeIrq s.toNat t a) := by
  unfold decodeIrq
  split
  next hs =>
    obtain rfl : s = 0 := BitVec.eq_of_toNat_eq hs
    have hlow : (a.extractLsb' 0 4).toNat = a.toNat % 16 := by simp
    split_ifs with hn hb
    · rw [tag_or_high_nonzero_iff (n := 44) (m := 4)] at hn
      exact refusalHolds_nonzeroReserved (by decide) (by decide) (by simpa [CommandNonzero] using hn)
    · exact refusalHolds_badKind (hlow ▸ hb)
    · obtain ⟨rfl, ha, hw⟩ := eq_zero_append_of_not_nonzero (n := 44) (m := 4) hn
      exact ⟨decide_eq_true (by omega), congrArg (cmdWord 3 0 0) hw,
        not_refusalHolds_cmdWord (by decide) (by decide) (by simpa [CommandNonzero] using ha) (by omega) (by simp)⟩
  next hs => exact bare_answers hs (by decide) (by simp [CommandNonzero]) rfl rfl
  next hs => exact bare_answers hs (by decide) (by simp [CommandNonzero]) rfl rfl
  next =>
    simp only [imp_false] at *
    exact refusalHolds_reservedSub (by decide) (show 3 ≤ s.toNat by omega)

theorem decodeHost_answers : Answers (cmdWord 4 s t a) (decodeHost s.toNat t a) := by
  unfold decodeHost
  split
  next hs => exact bare_answers hs (by decide) (by simp [CommandNonzero]) rfl rfl
  next hs => exact bare_answers hs (by decide) (by simp [CommandNonzero]) rfl rfl
  next hs =>
    obtain rfl : s = 2 := BitVec.eq_of_toNat_eq hs
    split_ifs with hn
    · rw [tag_or_high_nonzero_iff (n := 47) (m := 1)] at hn
      exact refusalHolds_nonzeroReserved (by decide) (by decide) (by simpa [CommandNonzero] using hn)
    · obtain ⟨rfl, ha, hw⟩ := eq_zero_append_of_not_nonzero (n := 47) (m := 1) hn
      exact ⟨rfl, congrArg (cmdWord 4 2 0) hw,
        not_refusalHolds_cmdWord (by decide) (by decide) (by simpa [CommandNonzero] using ha) (by simp) (by simp)⟩
  next hs => exact bare_answers hs (by decide) (by simp [CommandNonzero]) rfl rfl
  next hs => exact bare_answers hs (by decide) (by simp [CommandNonzero]) rfl rfl
  next =>
    simp only [imp_false] at *
    exact refusalHolds_reservedSub (by decide) (show 5 ≤ s.toNat by omega)

theorem decodeRender_answers : Answers (cmdWord 5 s t a) (decodeRender s.toNat t a) := by
  unfold decodeRender
  split
  next hs =>
    obtain rfl : s = 0 := BitVec.eq_of_toNat_eq hs
    have hlow : (a.extractLsb' 0 8).toNat = a.toNat % 256 := by simp
    split_ifs with hn hb
    · rw [tag_or_high_nonzero_iff (n := 40) (m := 8)] at hn
      exact refusalHolds_nonzeroReserved (by decide) (by decide) (by simpa [CommandNonzero] using hn)
    · exact refusalHolds_badLine (hlow ▸ hb)
    · obtain ⟨rfl, ha, hw⟩ := eq_zero_append_of_not_nonzero (n := 40) (m := 8) hn
      have hy : a.toNat % 256 < 160 := hlow ▸ not_le.mp hb
      exact ⟨decide_eq_true (by omega), congrArg (cmdWord 5 0 0) hw,
        not_refusalHolds_cmdWord (by decide) (by decide) (by simpa [CommandNonzero] using ha) (by simp) (by omega)⟩
  next =>
    simp only [imp_false] at *
    exact refusalHolds_reservedSub (by decide) (show 1 ≤ s.toNat by omega)

end

/-- The decoder accepts the words of operations, and refuses every other word by a rule of R118. -/
theorem decode_answers (w : OpWord) : Answers w (decode w) := by
  induction w using OpWord.byFormat with
  | bus wr z addr data => exact busFields_answers wr z addr data
  | sched s t a => rw [decode_sched]; exact decodeSched_answers s t a
  | event s t a => rw [decode_event]; exact decodeEvent_answers s t a
  | irq s t a => rw [decode_irq]; exact decodeIrq_answers s t a
  | host s t a => rw [decode_host]; exact decodeHost_answers s t a
  | render s t a => rw [decode_render]; exact decodeRender_answers s t a
  | reserved p s t a h =>
    rw [decode_reservedPort s t a h]
    show 6 ≤ (cmdWord p s t a).toNat / 2 ^ 60
    rwa [cmdWord_port]

theorem answers_of_decode {w : OpWord} {x : Except DecodeRefusal Instr} (h : decode w = x) : Answers w x :=
  h ▸ decode_answers w

/-- Settles O2: what `decode_answers` says of an accepted word. -/
theorem encodeOfDecode : Obligations.EncodeOfDecode := by
  intro w i h
  obtain ⟨hwf, hw, -⟩ := answers_of_decode h
  exact ⟨hwf, hw⟩

/-- Settles O3: the decoder runs on the eleven words. -/
theorem decodeSpecWords : Obligations.DecodeSpecWords := by
  unfold Obligations.DecodeSpecWords
  decide +kernel

theorem step_of_decode_error {s : State} {w : OpWord} {rest : List OpWord} {r : DecodeRefusal}
    (hin : s.ports.input = w :: rest) (hd : decode w = .error r) : step s = .refused (.refusedWord r) := by
  simp only [step, hin, hd]

theorem respondWord_of_decode_error {w : OpWord} {r : DecodeRefusal} (hd : decode w = .error r) (s : State) :
    s.respondWord w = { s with ports := { s.ports with refusals := s.ports.refusals ++ [(w, r)] } } := by
  simp only [State.respondWord, hd]

/-- Settles O4: what `decode_answers` says of a refused word, and that it holds of no accepted one; then the branches
of `step` and `respondWord`. -/
theorem refusedWords : Obligations.RefusedWords := by
  refine ⟨fun w r hd => answers_of_decode hd, fun w r h => ?_, fun _ _ _ _ hin hd => step_of_decode_error hin hd,
    fun s _ _ hd => respondWord_of_decode_error hd s⟩
  cases hd : decode w with
  | ok i =>
    obtain ⟨-, -, hno⟩ := answers_of_decode hd
    exact absurd h (hno r)
  | error r' => exact ⟨r', rfl⟩

end Sys2Proof

/-! Responses (R113, R211): what an operation of a response does, and how a signal's response runs. -/

namespace Sys2Proof.Machine

/-! ## Operations a response refuses -/

theorem act_eq_refuseInResponse {s : State} {f : State → State} {k : FaultKind} {i : Instr}
    (h : f s = s.raise k (.word (encode i))) : s.act f = .next (s.refuseInResponse [] k i) := by
  unfold State.act State.refuseInResponse
  rw [h]
  rfl

theorem actReturning_eq_refuseInResponse {s : State} {z : PortOut} {f : State → Step} {k : FaultKind} {i : Instr}
    (h : f s = .next (s.raise k (.word (encode i)))) :
    s.actReturning z f = .next (s.refuseInResponse [z] k i) := by
  unfold State.actReturning State.refuseInResponse
  split_ifs
  · rfl
  · exact h

/-- R211: an operation of a response does what it does on the port during a drain. The internal operations, the
drain, the halt skip and the advance raise one fault in both; every other operation is one function in both. -/
theorem exec_eq_respond_of_draining {s : State} (hi : s.ports.issuer = .environment) (hd : s.sched.draining = true)
    (i : Instr) : exec i s = .next (s.respond i) := by
  rcases exec_respond s i with h | rfl | ⟨n, rfl⟩ | rfl | rfl | ⟨L, rfl⟩ | ⟨L, rfl⟩ | ⟨y, rfl⟩
  · exact h
  · unfold exec execSchedPop
    exact actReturning_eq_refuseInResponse (by simp only [hi]; rfl)
  · unfold exec execSchedAdvance
    exact act_eq_refuseInResponse (if_pos hd)
  · unfold exec execSchedDrain
    exact act_eq_refuseInResponse (if_pos hd)
  · unfold exec execSchedHaltskip
    exact actReturning_eq_refuseInResponse (if_pos hd)
  · unfold exec execEventHblankStart
    exact act_eq_refuseInResponse (by simp only [hi]; rfl)
  · unfold exec execEventHblankEnd
    exact act_eq_refuseInResponse (by simp only [hi]; rfl)
  · unfold exec execRenderLine
    exact act_eq_refuseInResponse (by simp only [hi]; rfl)

/-! ## A signal and its response -/

theorem emit_of_responses_cons {s : State} {ws : List OpWord} {rest : List (List OpWord)}
    (h : s.ports.responses = ws :: rest) (g : Signal) :
    s.emit g = ws.foldl State.respondWord ({ s with ports := { s.ports with responses := rest } }.put (.signal g)) := by
  simp only [State.emit, State.nextResponse, h, List.headD_cons, List.tail_cons]

theorem emit_of_responses_nil {s : State} (h : s.ports.responses = []) (g : Signal) : s.emit g = s.put (.signal g) := by
  simp only [State.emit, State.nextResponse, h, List.headD_nil, List.tail_nil, List.foldl_nil]
  rw [← h]

theorem respondWord_of_decode_ok {w : OpWord} {i : Instr} (h : decode w = .ok i) (s : State) :
    s.respondWord w = s.respond i := by
  simp only [State.respondWord, h]

/-- Settles O28: by the responses that are left, by the word's decoding, and by `exec_eq_respond_of_draining`. -/
theorem responsesRunInFull : Obligations.ResponsesRunInFull :=
  ⟨fun _ g _ _ h => emit_of_responses_cons h g, fun _ g h => emit_of_responses_nil h g,
    fun s _ _ h => respondWord_of_decode_ok h s, fun _ i hi hd => exec_eq_respond_of_draining hi hd i⟩

end Sys2Proof.Machine

/-! Bus accesses (R140 to R186): what a running block does with each write and each read of a register or of a video
memory. Every arm is `State.act` or `State.busRead`, so each clause is the running case of that operation
(`act_running`, with the state it answers for its effect, or `busRead_running`) with the law of the register or memory
it touches. -/

namespace Sys2Proof.Machine

open Sys2Proof.Config

/-! ## Registers an operand selects -/

theorem Backgrounds.onlyBg_setBg (b : Backgrounds) (n : Fin 4) (r : Bg) : b.OnlyBg (b.setBg n r) n r := by
  refine ⟨fun m => ?_, fun m => ?_⟩
  · fin_cases n <;> fin_cases m <;> rfl
  · fin_cases n <;> cases m <;> rfl

theorem Backgrounds.onlyAff_setAff (b : Backgrounds) (n : AffineBg) (a : Affine) :
    b.OnlyAff (b.setAff n a) n a := by
  refine ⟨fun m => ?_, fun m => ?_⟩
  · cases n <;> cases m <;> rfl
  · cases n <;> fin_cases m <;> rfl

theorem Windows.are_setH (w : Windows) (n : WindowId) (v : Half) :
    (w.setH n v).Are (fun m => if m = n then v else w.h m) w.v w.winin w.winout := by
  cases n <;> exact ⟨by rintro ⟨⟩ <;> rfl, by rintro ⟨⟩ <;> rfl, rfl, rfl⟩

theorem Windows.are_setV (w : Windows) (n : WindowId) (v : Half) :
    (w.setV n v).Are w.h (fun m => if m = n then v else w.v m) w.winin w.winout := by
  cases n <;> exact ⟨by rintro ⟨⟩ <;> rfl, by rintro ⟨⟩ <;> rfl, rfl, rfl⟩

theorem Windows.are_winin (w : Windows) (v : Half) : { w with winin := v }.Are w.h w.v v w.winout :=
  ⟨fun _ => rfl, fun _ => rfl, rfl, rfl⟩

theorem Windows.are_winout (w : Windows) (v : Half) : { w with winout := v }.Are w.h w.v w.winin v :=
  ⟨fun _ => rfl, fun _ => rfl, rfl, rfl⟩

/-! ## Register writes -/

/-- Settles O8: the effect of either write is a write of one lane (`writeLane_bit`). -/
theorem lcdRegisterWrites : Obligations.LcdRegisterWrites := fun _ _ _ hs =>
  ⟨⟨_, act_running hs fun _ => _, writeLane_bit _ _ _ _⟩, ⟨_, act_running hs fun _ => _, writeLane_bit _ _ _ _⟩⟩

/-- Settles O9: the effect of each write is on one background's registers (`onlyBg_setBg`) or on one affine unit
(`onlyAff_setAff`), and there a write of one lane (`writeLane_bit`). -/
theorem backgroundWrites : Obligations.BackgroundWrites := by
  intro s n m lane lane4 d hs
  refine ⟨?cnt, ?hofs, ?vofs, ?pa, ?pb, ?pc, ?pd, ?x, ?y⟩
  case cnt | hofs | vofs =>
    exact ⟨_, _, act_running hs fun _ => _, Backgrounds.onlyBg_setBg _ _ _, writeLane_bit _ _ _ _⟩
  case pa | pb | pc | pd | x | y =>
    exact ⟨_, _, act_running hs fun _ => _, Backgrounds.onlyAff_setAff _ _ _, writeLane_bit _ _ _ _⟩

/-- Settles O10: the effect of each write is on one window range (`are_setH`, `are_setV`) or on one other register,
and there a write of one lane (`writeLane_bit`). -/
theorem windowAndEffectWrites : Obligations.WindowAndEffectWrites := by
  intro s n lane d hs
  refine ⟨?winh, ?winv, ?winin, ?winout, ?mosaic, ?bldcnt, ?bldalpha, ?bldy⟩
  case winh => exact ⟨_, _, act_running hs fun _ => _, Windows.are_setH _ _ _, writeLane_bit _ _ _ _⟩
  case winv => exact ⟨_, _, act_running hs fun _ => _, Windows.are_setV _ _ _, writeLane_bit _ _ _ _⟩
  case winin => exact ⟨_, _, act_running hs fun _ => _, Windows.are_winin _ _, writeLane_bit _ _ _ _⟩
  case winout => exact ⟨_, _, act_running hs fun _ => _, Windows.are_winout _ _, writeLane_bit _ _ _ _⟩
  case mosaic | bldcnt | bldalpha | bldy => exact ⟨_, act_running hs fun _ => _, writeLane_bit _ _ _ _⟩

theorem kindMask_bit (i : Nat) : kindMask.getLsbD i = decide (i < 14) := by
  show (BitVec.ofNat 16 (2 ^ 14 - 1)).getLsbD i = _
  rw [BitVec.getLsbD_ofNat, Nat.testBit_two_pow_sub_one, ← Bool.decide_and, decide_eq_decide]
  omega

/-- The flags after a write of `IF`, bit by bit (R177). -/
theorem clearFlags_bit (f : Half) (lane : Nat) (d : Byte) {i : Nat} (hi : i < 16) :
    (clearFlags f lane d).getLsbD i =
      if 8 * lane ≤ i ∧ i < 8 * lane + 8 ∧ i < 14 ∧ d.getLsbD (i - 8 * lane) = true then false else f.getLsbD i := by
  have hmask : (d.setWidth 16 <<< (8 * lane) &&& kindMask).getLsbD i =
      decide (8 * lane ≤ i ∧ i < 8 * lane + 8 ∧ i < 14 ∧ d.getLsbD (i - 8 * lane) = true) := by
    have hbyte : d.getLsbD (i - 8 * lane) = true → i - 8 * lane < 8 := BitVec.lt_of_getLsbD
    rw [BitVec.getLsbD_and, BitVec.getLsbD_shiftLeft, BitVec.getLsbD_setWidth, kindMask_bit, Bool.eq_iff_iff]
    simp only [Bool.and_eq_true, decide_eq_true_eq, Bool.not_eq_true', decide_eq_false_iff_not]
    constructor
    · rintro ⟨⟨⟨-, hlo⟩, -, hd⟩, hkind⟩
      have := hbyte hd
      exact ⟨by omega, by omega, hkind, hd⟩
    · rintro ⟨hlo, -, hkind, hd⟩
      exact ⟨⟨⟨hi, by omega⟩, by omega, hd⟩, hkind⟩
  rw [clearFlags, BitVec.getLsbD_and, BitVec.getLsbD_not, hmask]
  split_ifs with h <;> simp [h, hi]

/-- Settles O11: `IE` and `IME` are written by lane (`writeLane_bit`), `IF` by `clearFlags_bit`. -/
theorem interruptBankWrites : Obligations.InterruptBankWrites := fun s lane d hs =>
  ⟨⟨_, act_running hs fun _ => _, writeLane_bit _ _ _ _⟩, ⟨_, act_running hs fun _ => _, writeLane_bit _ _ _ _⟩,
    ⟨_, act_running hs fun _ => _, fun _ => clearFlags_bit s.irq.iflag lane.toNat d⟩⟩

/-- Settles O12: a running `act` of no effect. -/
theorem writesWithoutEffect : Obligations.WritesWithoutEffect := by
  intro s lane o d hs i hi
  fin_cases hi <;> exact act_running hs fun _ => _

/-! ## Register reads -/

theorem readLane_eq_laneByte {w : Nat} (v : BitVec w) (lane : Nat) : readLane v lane = laneByte v.toNat lane := by
  rw [readLane, laneByte, BitVec.extractLsb', Nat.shiftRight_eq_div_pow]

theorem busRead_readLane {s : State} (hs : s.Running) {w : Nat} (v : BitVec w) (lane : Nat) :
    s.busRead (readLane v lane) = .next (s.put (.rdata (laneByte v.toNat lane))) := by
  rw [busRead_running hs, readLane_eq_laneByte]

/-- The read value of `DISPSTAT` (R148) by its fields, compared bit by bit. -/
theorem dispstatValue_eq_append (d : Half) :
    dispstatValue d = d.extractLsb' 8 8 ++ 0#2 ++ d.extractLsb' 0 6 := by
  apply BitVec.eq_of_getLsbD_eq (w := 8 + 2 + 6)
  intro i hi
  rw [BitVec.getLsbD_append, BitVec.getLsbD_append, dispstatValue, BitVec.getLsbD_and]
  interval_cases i <;> simp

/-- Settles O13: a running bus read returns the lane of the value it reads (`busRead_readLane`). -/
theorem registerReads : Obligations.RegisterReads := by
  intro s n lane hs
  refine ⟨?dispcnt, ?dispstat, ?vcount, ?bgcnt, ?winin, ?winout, ?bldcnt, ?bldalpha, ?ie, ?iflag, ?ime⟩
  case dispstat =>
    rw [← dispstatValue_eq_append]
    exact busRead_readLane hs _ _
  case vcount =>
    rw [← BitVec.toNat_setWidth_of_le (show 8 ≤ 16 by decide) (b := s.display.vcount)]
    exact busRead_readLane hs _ _
  all_goals exact busRead_readLane hs _ _

/-- Settles O14: a running bus read of 0. -/
theorem readsOfNothing : Obligations.ReadsOfNothing := by
  intro s n ax m p axis w lane lane4 o hs i hi
  fin_cases hi <;> exact busRead_running hs _

/-! ## Video memory -/

theorem busByte_eq_getD (s : State) (m : VMem) (a : Nat) : s.busByte m a = (s.byte? m a).getD (videoMemInit m a) := by
  unfold State.busByte
  cases s.byte? m a <;> rfl

/-- R89: what a running block does with the two accesses of a video memory byte. -/
theorem act_storeByte_and_busRead {s : State} (hs : s.Running) (m : VMem) (a : Nat) (d : Byte) :
    (∃ v, (s.act fun s => s.storeByte m a d) = .next { s with video := v } ∧ (v.mem m).read? a = some d ∧
      ∀ n c, (n, c) ≠ (m, a) → (v.mem n).read? c = s.byte? n c) ∧
    s.busRead (s.busByte m a) = .next (s.put (.rdata ((s.byte? m a).getD (videoMemInit m a)))) := by
  refine ⟨⟨s.video.store m a d, act_running hs _, s.byte_storeByte_same m a d, fun n c h => ?_⟩, ?_⟩
  · exact s.byte_storeByte_other (not_and_or.mp fun he => h (Prod.ext he.1 he.2)) d
  · rw [busRead_running hs, busByte_eq_getD]

/-- Settles O15: each pair of accesses is the store and the read of one byte (`act_storeByte_and_busRead`). -/
theorem videoMemoryAccess : Obligations.VideoMemoryAccess := by
  intro s p lo hi d hs x hx
  fin_cases hx <;> exact act_storeByte_and_busRead hs _ _ d

end Sys2Proof.Machine

/-! The queue's invariants (R200, R201, R205): its order, and the range of the clock and of the due times. -/

namespace Sys2Proof.Machine

open Sys2Proof.Config

/-! ## The order of the queue -/

theorem schedule_sorted {s : State} (h : s.sched.Sorted) (tag : Byte) (d : Int) (op : FaultOp) :
    (s.schedule tag d op).sched.Sorted := by
  rcases schedule_cases s tag d op with ⟨k, hk⟩ | ⟨-, -, -, hk⟩ <;> rw [hk]
  · exact h
  · exact insert_sorted _ h

theorem advance_queue (s : State) (n : Int) (op : FaultOp) : (s.advance n op).sched.queue = s.sched.queue := by
  rcases advance_cases s n op with ⟨k, hk⟩ | ⟨-, -, hk⟩ <;> rw [hk]
  rfl

/-- Events are inserted in their place, and leave the queue without disturbing the others. -/
theorem sorted_kept : KeptByParts fun s => s.sched.Sorted := by
  constructor
  constructor
  case schedule => exact fun tag d op _ _ h => schedule_sorted h tag d op
  case lcdSchedule => exact fun tag d op _ h => schedule_sorted h tag d op
  case cancel => exact fun tag _ h => h.sublist (cancelTag_sublist tag _)
  case pop =>
    intro s e rest hq h
    rw [Sched.Sorted, hq] at h
    exact h.of_cons
  case advance => intros; rwa [Sched.Sorted, advance_queue]
  case lineStart => intros; rwa [State.mosaicLineStart_sched]
  all_goals intros; assumption

/-! ## The range of the clock and of the due times -/

/-- Fewer pending events stay in range. -/
theorem Sched.InRange.subset {q : Sched} (h : q.InRange) {es : List Event} (hes : es ⊆ q.queue) :
    Sched.InRange { q with queue := es } :=
  ⟨h.1, fun e he => h.2 e (hes he)⟩

/-- The clock stays in range at a tick of the range. -/
theorem Sched.InRange.setTicks {q : Sched} (h : q.InRange) {t : Int} (h0 : 0 ≤ t) (ht : t < tickLimit) :
    Sched.InRange { q with ticks := t } :=
  ⟨⟨h0, ht⟩, h.2⟩

/-- R201 checks that the due time stays below the limit; that it is not negative follows from the clock. -/
theorem schedule_inRange {s : State} (h : s.sched.InRange) (tag : Byte) (d : Int) (op : FaultOp) :
    (s.schedule tag d op).sched.InRange := by
  rcases schedule_cases s tag d op with ⟨k, hk⟩ | ⟨hd, hlim, -, hk⟩ <;> rw [hk]
  · exact h
  · obtain ⟨⟨h0, ht⟩, hq⟩ := h
    refine ⟨⟨h0, ht⟩, fun e he => ?_⟩
    rcases mem_insertEvent.mp he with rfl | he
    · exact ⟨Int.add_nonneg h0 hd, hlim⟩
    · exact hq e he

theorem advance_inRange {s : State} (h : s.sched.InRange) (n : Int) (op : FaultOp) :
    (s.advance n op).sched.InRange := by
  rcases advance_cases s n op with ⟨k, hk⟩ | ⟨hn, hlim, hk⟩ <;> rw [hk]
  · exact h
  · exact h.setTicks (Int.add_nonneg h.1.1 hn) hlim

/-- The clock moves by an advance, which R205 checks, or to a due time, which lies in the range itself. -/
theorem inRange_kept : KeptByParts fun s => s.sched.InRange := by
  constructor
  constructor
  case schedule => exact fun tag d op _ _ h => schedule_inRange h tag d op
  case lcdSchedule => exact fun tag d op _ h => schedule_inRange h tag d op
  case cancel => exact fun tag _ h => h.subset (cancelTag_sublist tag _).subset
  case pop => exact fun hq h => h.subset (hq ▸ List.subset_cons_self _ _)
  case advance => exact fun n op _ h => advance_inRange h n op
  case skip =>
    intro s e rest hq _ h
    obtain ⟨h0, hlim⟩ := h.2 e (hq ▸ List.mem_cons_self)
    exact h.setTicks h0 hlim
  case lineStart => intros; rwa [State.mosaicLineStart_sched]
  all_goals intros; assumption

/-- Settles O39: every part keeps the order (`sorted_kept`) and the range (`inRange_kept`), so every step does. -/
theorem stepKeepsQueue : Obligations.StepKeepsQueue :=
  fun _ _ hs hr ht => ⟨sorted_kept.step hs ht, inRange_kept.step hr ht⟩

end Sys2Proof.Machine

/-! The LCD's place in time (R212, R215, R240, R241): every operation leaves it where it is, a later clock only moves
it on, and each LCD event takes it from one phase of a scanline to the next, whatever its lateness. -/

namespace Sys2Proof.Machine

open Sys2Proof.Config

/-! ## What leaves the LCD in its place -/

/-- What keeps the LCD's data keeps it on time. -/
theorem lcdOnTime_of_mid {s t : State} (h : ∀ {vc hb vb T q c}, Mid vc hb vb T q c s → Mid vc hb vb T q c t)
    (hs : s.LcdOnTime) (hrun : t.Running → s.Running) : t.LcdOnTime := by
  intro hr
  obtain ⟨f, hf⟩ := hs (hrun hr)
  exact ⟨f, lcdAt_of_mid hf (h (lcd_mid hf (hrun hr)) hr)⟩

theorem running_of_schedule {s : State} {tag : Byte} {d : Int} {op : FaultOp} (h : (s.schedule tag d op).Running) :
    s.Running := by
  rcases schedule_cases s tag d op with ⟨k, hk⟩ | ⟨-, -, -, hk⟩ <;> rw [hk] at h
  · simp [State.Running] at h
  · exact h

/-- No operation that fires no event touches the LCD's data. -/
theorem lcdOnTime_ops : KeptByOps State.LcdOnTime := by
  constructor
  case raise => intro s k op _ _ hr; simp [State.Running] at hr
  case dispstat => exact fun l d h => lcdOnTime_of_mid (mid_ops.dispstat l d) h id
  case schedule =>
    exact fun tag d op ht hr h => lcdOnTime_of_mid (mid_ops.schedule tag d op ht hr) h running_of_schedule
  case cancel => exact fun tag ht h => lcdOnTime_of_mid (mid_ops.cancel tag ht) h id
  all_goals intros; assumption

/-- The LCD stays on time as the clock goes on: its events may fire late, not early. -/
theorem lcdOnTime_later {s : State} {T : Int} (h : s.LcdOnTime) (hT : s.sched.ticks ≤ T) :
    State.LcdOnTime { s with sched := { s.sched with ticks := T } } := fun hr =>
  let ⟨f, hf⟩ := h hr
  ⟨f, lcd_later hf hT⟩

theorem advance_lcdOnTime {s : State} (h : s.LcdOnTime) (n : Int) (op : FaultOp) : (s.advance n op).LcdOnTime := by
  rcases advance_cases s n op with ⟨k, hk⟩ | ⟨hn, -, hk⟩ <;> rw [hk]
  · intro hr; simp [State.Running] at hr
  · exact lcdOnTime_later h (by omega)

theorem lcdEvents_pop {e : Event} {rest : List Event} {q : List Event} (hq : q = e :: rest)
    (h : isLcdTag e.tag = false) : lcdEvents q = lcdEvents rest := by
  simp [hq, lcd_cons, h]

/-- An external event that leaves the queue is none of the LCD's. -/
theorem pop_lcdOnTime {s : State} {e : Event} {rest : List Event} (hq : s.sched.queue = e :: rest)
    (he : isLcdTag e.tag = false) (h : s.LcdOnTime) : (s.setQueue rest).LcdOnTime := by
  refine lcdOnTime_of_mid (fun hm hr => ?_) h id
  obtain ⟨hvc, hhb, hvb, ht, hl, hf⟩ := hm hr
  exact ⟨hvc, hhb, hvb, ht, (lcdEvents_pop hq he).symm.trans hl, hf⟩

/-! ## The LCD's events -/

/-- The one pending LCD event is the first of the queue when that is an LCD event. -/
theorem lcdEvents_singleton {e : Event} {rest : List Event} {d : Int} {tag : Byte} (he : isLcdTag e.tag = true)
    (h : lcdEvents (e :: rest) = [(d, tag)]) : e.due = d ∧ e.tag = tag ∧ lcdEvents rest = [] := by
  simpa [lcd_cons, he, and_assoc] using h

/-- The LCD's data once its pending event has left the queue. -/
theorem mid_setQueue (s : State) {rest : List Event} (h : lcdEvents rest = []) :
    Mid s.display.vcount (statHblank s.display.dispstat) (statVblank s.display.dispstat) s.sched.ticks []
      s.output.frameCounter (s.setQueue rest) :=
  fun _ => ⟨rfl, rfl, rfl, rfl, h, rfl⟩

/-! The next scanline (R234), the frame it belongs to, and what R236, R237 and R241 make of it. -/

theorem toNat_nextLine (y : Byte) : (nextLine y).toNat = (y.toNat + 1) % totalLines := by
  show (y.toNat + 1) % totalLines % 2 ^ 8 = _
  exact Nat.mod_eq_of_lt ((Nat.mod_lt _ (by decide)).trans (by decide))

theorem nextLine_eq_iff (y k : Byte) : nextLine y = k ↔ (y.toNat + 1) % totalLines = k.toNat := by
  rw [← BitVec.toNat_inj, toNat_nextLine]

/-- The scanline after `y` of frame `f` is scanline `nextLine y` of a frame `g`, one line later; `g` has completed
one frame more exactly when the line is 160. -/
theorem nextLine_frame (f : Nat) {y : Byte} (hy : y.toNat < totalLines) :
    ∃ g, totalLines * g + (nextLine y).toNat = totalLines * f + y.toNat + 1 ∧
      (f + if screenH ≤ y.toNat then 1 else 0) + (if nextLine y = 160 then 1 else 0) =
        g + if screenH ≤ (nextLine y).toNat then 1 else 0 := by
  simp only [nextLine_eq_iff, toNat_nextLine]
  refine ⟨if y.toNat = 227 then f + 1 else f, ?_⟩
  simp only [totalLines, screenH, BitVec.reduceToNat] at *
  split_ifs <;> omega

/-- `VBLANK` covers lines 160 to 226: line 160 sets it, line 227 clears it, and no other line changes it. -/
theorem vblank_nextLine {y : Byte} (hy : y.toNat < totalLines) :
    (if nextLine y = 227 then false else if nextLine y = 160 then true
      else decide (screenH ≤ y.toNat ∧ y.toNat ≤ 226)) =
      decide (screenH ≤ (nextLine y).toNat ∧ (nextLine y).toNat ≤ 226) := by
  simp only [nextLine_eq_iff, toNat_nextLine, totalLines, screenH, BitVec.reduceToNat] at *
  split_ifs with h227 h160
  · rw [eq_comm, decide_eq_false_iff_not]; omega
  · rw [eq_comm, decide_eq_true_eq]; omega
  · rw [decide_eq_decide]; omega

theorem ofNat_add_one_if (n : Nat) (p : Prop) [Decidable p] :
    (if p then BitVec.ofNat 64 n + 1 else BitVec.ofNat 64 n) = BitVec.ofNat 64 (n + if p then 1 else 0) := by
  split_ifs <;> simp [BitVec.ofNat_add]

section
variable {f : Nat} {s : State} {e : Event} {rest : List Event}

/-- R232: at `HBLANK_START` the LCD goes on to the blanking of its scanline, which ends 272 ticks after the event was
due, however late it fires. -/
theorem hblankStart_lcdAt (h : s.LcdAt f) (hq : s.sched.queue = e :: rest) (ht : e.tag = tagHblankStart)
    (hd : e.due ≤ s.sched.ticks) (hr : ((s.setQueue rest).hblankStart (s.sched.ticks - e.due)).Running) :
    ((s.setQueue rest).hblankStart (s.sched.ticks - e.due)).LcdAt f := by
  obtain ⟨hy, hphase, hv, hfc⟩ := h
  have he : isLcdTag e.tag = true := by rw [ht]; rfl
  rw [hq] at hphase
  split_ifs at hphase with hb
  · have := (lcdEvents_singleton he hphase.1).2.1
    rw [ht] at this
    exact absurd this (by decide)
  · obtain ⟨hdue, -, hrest⟩ := lcdEvents_singleton he hphase.1
    obtain ⟨mvc, mhb, mvb, mT, mq, mc⟩ := mid_start (mid_setQueue s hrest) hr
    unfold State.LcdAt
    dsimp only
    rw [mvc, mhb, mvb, mT, mq, mc, if_pos rfl]
    refine ⟨hy, ?_, hv, hfc⟩
    simp only [lineCycles, drawCycles] at *
    refine ⟨?_, by omega⟩
    rw [hdue]
    congr 2
    omega

/-- R234: at `HBLANK_END` the LCD goes on to the next scanline, which blanks 960 ticks after the event was due,
however late it fires. -/
theorem hblankEnd_lcdAt (hrun : s.Running) (h : s.LcdAt f) (hq : s.sched.queue = e :: rest)
    (ht : e.tag = tagHblankEnd) (hd : e.due ≤ s.sched.ticks)
    (hr : ((s.setQueue rest).hblankEnd (s.sched.ticks - e.due)).Running) :
    ∃ g, ((s.setQueue rest).hblankEnd (s.sched.ticks - e.due)).LcdAt g := by
  obtain ⟨hy, hphase, hv, hfc⟩ := h
  have he : isLcdTag e.tag = true := by rw [ht]; rfl
  rw [hq] at hphase
  split_ifs at hphase with hb
  · obtain ⟨hdue, -, hrest⟩ := lcdEvents_singleton he hphase.1
    obtain ⟨mvc, mhb, mvb, mT, mq, mc⟩ := mid_end (s := s.setQueue rest) hrun (mid_setQueue s hrest) hr
    obtain ⟨g, hline, hframes⟩ := nextLine_frame f hy
    refine ⟨g, ?_⟩
    unfold State.LcdAt
    dsimp only
    rw [mvc, mhb, mvb, mT, mq, mc, if_neg (by decide), hline, hv, vblank_nextLine hy, hfc, ofNat_add_one_if, hframes]
    refine ⟨nextLine_lt_totalLines _, ?_, rfl, rfl⟩
    simp only [lineCycles, drawCycles] at *
    refine ⟨?_, by omega⟩
    rw [hdue]
    congr 2
    omega
  · have := (lcdEvents_singleton he hphase.1).2.1
    rw [ht] at this
    exact absurd this (by decide)

end

/-- What an operation or event keeps: the LCD's own two events move it on, and no other touches it. -/
theorem lcdOnTime_kept : Kept State.LcdOnTime where
  toKeptByOps := lcdOnTime_ops
  advance n op _ h := advance_lcdOnTime h n op
  draining _ h := h
  skip _ hd h := lcdOnTime_later h (Int.le_of_lt hd)
  pop := pop_lcdOnTime
  hblankStart hr hq ht hd h hrun :=
    let ⟨f, hf⟩ := h hr
    ⟨f, hblankStart_lcdAt hf hq ht hd hrun⟩
  hblankEnd hr hq ht hd h hrun :=
    let ⟨_, hf⟩ := h hr
    hblankEnd_lcdAt hr hf hq ht hd hrun

/-- Settles O36: every operation the environment issues, and every event it lets fire, keeps the LCD on time
(`lcdOnTime_kept`) and the issuer as it is. -/
theorem lcdRunsOnTime : Obligations.LcdRunsOnTime :=
  fun _ _ hi hs ht => ⟨(issuer_kept .environment).step hi ht, lcdOnTime_kept.step (.inl hi) hs ht⟩

end Sys2Proof.Machine

/-! The scheduler's operations that fire no event (R201 to R205, R209): each is the running case of a shared operation
of the block, whose branches are the checks of its rule in their order. -/

namespace Sys2Proof.Machine

open Sys2Proof.Config

theorem two_pow_63_sub_one : (2 : Int) ^ 63 - 1 = tickLimit := rfl

/-! ## Adding an event -/

/-- Settles O18: the branches of `schedule` are the checks of R201, and an inserted event leaves a permutation of the
queue with it (`insertEvent_perm`), in order (`insert_sorted`). -/
theorem schedule : Obligations.Schedule := by
  intro s tag delay op due
  simp only [State.schedule, full_iff, two_pow_63_sub_one, due]
  split_ifs
  · rfl
  · rfl
  · rfl
  · exact ⟨rfl, insertEvent_perm _ _, fun h => insert_sorted _ h⟩

theorem exec_schedAdd {s : State} (hs : s.Running) (tag : Byte) (delay : BitVec 48) :
    exec (.schedAdd tag delay) s = .next
      (if isLcdTag tag then s.raise (.reservedTag tag) (.word (encode (.schedAdd tag delay)))
        else s.schedule tag delay.toInt (.word (encode (.schedAdd tag delay)))) := by
  show execSchedAdd tag delay s = _
  exact act_running hs _

/-- Settles O19: after the check of the tag `SCHED.ADD` is the primitive of R201 (`schedule`). -/
theorem schedAdd : Obligations.SchedAdd := by
  intro s tag delay hs
  have h := schedule s tag delay.toInt (.word (encode (.schedAdd tag delay)))
  dsimp only at h ⊢
  simp only [exec_schedAdd hs, isLcdTag_iff]
  by_cases ht : tag = 0 ∨ tag = 1
  · simp only [if_pos ht]
    rfl
  · simp only [if_neg ht]
    split_ifs at h ⊢
    · rw [h]
    · rw [h]
    · rw [h]
    · exact ⟨_, rfl, h⟩

/-! ## Removing an event -/

theorem exec_schedPop_internal {s : State} (hs : s.Running) (hi : s.ports.issuer = .internal) :
    exec .schedPop s = .next s.popReturning := by
  show execSchedPop s = _
  rw [execSchedPop, actReturning_running hs]
  simp only [hi]

/-- Settles O20: the two cases of the queue; its order is that of its first event and the others. -/
theorem schedPop : Obligations.SchedPop := by
  intro s hs hi
  rw [exec_schedPop_internal hs hi, State.popReturning]
  refine ⟨fun hq => by rw [hq]; rfl, fun e rest hq => ⟨by rw [hq], fun h => ?_⟩⟩
  rw [Sched.Sorted, hq] at h
  exact fun f hf => List.rel_of_pairwise_cons h hf

theorem exec_schedCancel {s : State} (hs : s.Running) (tag : Byte) :
    exec (.schedCancel tag) s = .next
      (if isLcdTag tag then s.raise (.reservedTag tag) (.word (encode (.schedCancel tag)))
        else s.setQueue (cancelTag tag s.sched.queue)) := by
  show execSchedCancel tag s = _
  exact act_running hs _

/-- In a queue in order the first event that carries a tag is the least that does. -/
theorem notAfter_of_first {tag : Byte} {e : Event} {before after : List Event}
    (h : (before ++ e :: after).Pairwise Event.NotAfter) (hfirst : ∀ f ∈ before, f.tag ≠ tag) {f : Event}
    (hf : f ∈ before ++ e :: after) (ht : f.tag = tag) : e.NotAfter f := by
  rcases List.mem_append.mp hf with hb | hf
  · exact absurd ht (hfirst f hb)
  · rcases List.mem_cons.mp hf with rfl | ha
    · exact .inr ⟨rfl, Nat.le_refl _⟩
    · obtain ⟨-, hrest, -⟩ := List.pairwise_append.mp h
      exact List.rel_of_pairwise_cons hrest ha

/-- Settles O21: `cancelTag` takes out the first event with the tag (`cancelTag_split`), if there is one
(`cancelTag_none`). -/
theorem schedCancel : Obligations.SchedCancel := by
  intro s tag hs
  rw [exec_schedCancel hs]
  refine ⟨fun ht => by rw [if_pos ((isLcdTag_iff tag).mpr ht)]; rfl, fun h0 h1 => ?_⟩
  rw [if_neg fun ht => ((isLcdTag_iff tag).mp ht).elim h0 h1]
  refine ⟨fun hnone => by rw [cancelTag_none hnone]; rfl, fun hsome => ?_⟩
  obtain ⟨e, before, after, hq, he, hcancel, hfirst⟩ := cancelTag_split hsome
  refine ⟨e, before, after, hq, he, by rw [hcancel]; rfl, fun hsorted f hf ht => ?_⟩
  rw [Sched.Sorted, hq] at hsorted
  exact notAfter_of_first hsorted hfirst (hq ▸ hf) ht

/-! ## The clock and the next event -/

theorem exec_schedAdvance {s : State} (hs : s.Running) (n : BitVec 48) :
    exec (.schedAdvance n) s = .next
      (if s.sched.draining then s.raise (.callbackAdvance n.toInt) (.word (encode (.schedAdvance n)))
        else s.advance n.toInt (.word (encode (.schedAdvance n)))) := by
  show execSchedAdvance n s = _
  exact act_running hs _

/-- Settles O22: the branches of `execSchedAdvance` and of `advance`. -/
theorem schedAdvance : Obligations.SchedAdvance := by
  intro s n hs
  simp only [exec_schedAdvance hs, State.advance, two_pow_63_sub_one]
  split_ifs <;> rfl

theorem nextTicks_of_nil {q : Sched} (h : q.queue = []) : q.nextTicks = tickLimit := by
  simp only [Sched.nextTicks, h]

theorem nextTicks_of_cons {q : Sched} {e : Event} {rest : List Event} (h : q.queue = e :: rest) :
    q.nextTicks = e.due := by
  simp only [Sched.nextTicks, h]

theorem due_le_of_notAfter {a b : Event} (h : a.NotAfter b) : a.due ≤ b.due :=
  h.elim Int.le_of_lt fun h => Int.le_of_eq h.1

/-- No event of a queue in order is due before the first. -/
theorem first_due_le {q : Sched} (h : q.Sorted) {e : Event} {rest : List Event} (hq : q.queue = e :: rest) {f : Event}
    (hf : f ∈ q.queue) : e.due ≤ f.due := by
  rw [Sched.Sorted, hq] at h
  rcases List.mem_cons.mp (hq ▸ hf) with rfl | hf
  · exact Int.le_refl _
  · exact due_le_of_notAfter (List.rel_of_pairwise_cons h hf)

/-- Settles O23: both are queries of a running block; the first event of a queue in order has the least due time. -/
theorem schedQueries : Obligations.SchedQueries := by
  intro s hs
  refine ⟨query_running hs _ _, _, query_running hs _ _, nextTicks_of_nil, fun hne hsorted => ?_⟩
  obtain ⟨e, rest, hq⟩ := List.exists_cons_of_ne_nil hne
  rw [nextTicks_of_cons hq]
  exact ⟨⟨e, hq ▸ List.mem_cons_self, rfl⟩, fun f hf => first_due_le hsorted hq hf⟩

end Sys2Proof.Machine

/-! Firing events: the drain and the halt skip (R206 to R210). -/

namespace Sys2Proof.Machine

open Sys2Proof.Config

/-! ## The drain -/

theorem exec_schedDrain {s : State} (hs : s.Running) :
    exec .schedDrain s = .next
      (if s.sched.draining then s.raise .drainReentry (.word (encode .schedDrain)) else s.drain) := by
  show execSchedDrain s = _
  exact act_running hs _

/-- The loop ends where no event is due. -/
theorem drains_quiet {s : State} (h : ∀ e rest, s.sched.queue = e :: rest → s.sched.ticks < e.due) : Drains s s := by
  by_cases hr : s.Running
  · exact .quiet hr h
  · exact .stopped hr

/-- A due event fires before the loop goes on. -/
theorem drains_of_dispatch {s t : State} {e : Event} {rest : List Event} (hr : s.Running)
    (hq : s.sched.queue = e :: rest) (hd : e.due ≤ s.sched.ticks)
    (h : Drains ((s.setQueue rest).dispatch e.tag (s.sched.ticks - e.due)) t) : Drains s t :=
  .fire hr hq hd h

/-- With fuel for every event it can fire, the loop on fuel is the loop of R206. -/
theorem drainLoop_drains {n : Nat} {s : State} (hn : toFire s ≤ n) : Drains s (drainLoop n s) := by
  induction n generalizing s with
  | zero =>
    rcases drainLoop_ends hn with hstop | hquiet
    · exact .stopped (stopped_iff.mp hstop)
    · exact drains_quiet hquiet
  | succ n ih =>
    unfold drainLoop
    split_ifs with hstop
    · exact .stopped (stopped_iff.mp hstop)
    · split
      · next hq => exact drains_quiet fun e rest h => by rw [hq] at h; cases h
      · next e rest hq =>
        split_ifs with hd
        · have hfire := (fire_toFire hq hd).1
          exact drains_of_dispatch (running_iff.mp (by simpa using hstop)) hq hd (ih (by omega))
        · refine drains_quiet fun e' rest' hq' => ?_
          obtain ⟨rfl, -⟩ := List.cons.inj (hq.symm.trans hq')
          omega

/-- What follows the events of a drain: `draining` is cleared, unless a fault ended it (assumption 10). -/
theorem proceed_setDraining (t : State) :
    t.proceed (fun s => s.setDraining false) =
      if t.faults = [] then { t with sched := { t.sched with draining := false } } else t := by
  split_ifs with h
  · exact proceed_running h _
  · exact proceed_stopped h _

/-- Settles O24: the fuel of a drain covers what it fires (`toFire_le_fuel`), so its loop is that of R206
(`drainLoop_drains`). -/
theorem schedDrain : Obligations.SchedDrain := by
  intro s hs hd
  refine ⟨drainLoop s.drainFuel (s.setDraining true), drainLoop_drains (toFire_le_fuel s), ?_⟩
  rw [exec_schedDrain hs, if_neg (by simp [hd]), State.drain, proceed_setDraining]

/-- Where the first event of a queue in order is not due, none is. -/
theorem not_due_of_first_not_due {q : Sched} (h : q.Sorted)
    (hfirst : ∀ e rest, q.queue = e :: rest → q.ticks < e.due) : ∀ e ∈ q.queue, q.ticks < e.due := by
  intro f hf
  obtain ⟨e, rest, hq⟩ := List.exists_cons_of_ne_nil (List.ne_nil_of_mem hf)
  exact (hfirst e rest hq).trans_le (first_due_le h hq hf)

/-- Settles O25: without a fault the loop ends where the first event is not due (`drainLoop_ends`), in a queue that
is still in order (`sorted_kept`). -/
theorem drainToQuiescence : Obligations.DrainToQuiescence := by
  intro s t hs hd hsorted ht hrun
  rw [exec_schedDrain hs, if_neg (by simp [hd]), State.drain, proceed_setDraining] at ht
  have hend := drainLoop_ends (s := s.setDraining true) (toFire_le_fuel s)
  have hloop : (drainLoop s.drainFuel (s.setDraining true)).sched.Sorted :=
    KeptByFiring.loop sorted_kept.events.fire _ (sorted_kept.draining true hsorted)
  generalize drainLoop s.drainFuel (s.setDraining true) = u at ht hend hloop
  split_ifs at ht with hu
  · cases ht
    exact ⟨rfl, not_due_of_first_not_due hloop (hend.resolve_left (by simp [stopped_eq_false hu]))⟩
  · cases ht
    exact absurd hrun hu

/-! ## The halt skip -/

/-- The halt-exit condition, bit by bit (R265). -/
theorem haltExit_iff (b : IrqBank) : b.haltExit = true ↔ b.Awake := by
  have hbit : ∀ i, (b.ie &&& b.iflag &&& kindMask).getLsbD i = true ↔
      i < 14 ∧ b.ie.getLsbD i = true ∧ b.iflag.getLsbD i = true := fun i => by
    simp only [BitVec.getLsbD_and, kindMask_bit, Bool.and_eq_true, decide_eq_true_eq]
    tauto
  have hzero : ∀ i, (0 : Half).getLsbD i = false := fun _ => BitVec.getLsbD_zero
  rw [IrqBank.haltExit, decide_eq_true_eq]
  constructor
  · intro hne
    by_contra hnone
    refine hne (BitVec.eq_of_getLsbD_eq fun i _ => ?_)
    rw [hzero, Bool.eq_false_iff]
    exact fun hi => hnone ⟨i, (hbit i).mp hi⟩
  · rintro ⟨i, hi⟩ h
    have hset := (hbit i).mpr hi
    rw [h, hzero] at hset
    exact absurd hset (by decide)

/-- The halt skip outside a drain, by the condition that ends a halt and by the first pending event (R210). -/
theorem exec_schedHaltskip {s : State} (hs : s.Running) (hd : s.sched.draining = false) :
    (s.irq.haltExit = true → exec .schedHaltskip s = .next (s.put (.rbit false))) ∧
    (s.irq.haltExit = false → s.sched.queue = [] → exec .schedHaltskip s = .fault .haltStuck) ∧
    (s.irq.haltExit = false → ∀ e rest, s.sched.queue = e :: rest →
      exec .schedHaltskip s =
        if e.due ≤ s.sched.ticks then .next (s.fireOne e rest (s.sched.ticks - e.due)).haltskipDone
        else .next ((s.setTicks e.due).fireOne e rest 0).haltskipDone) := by
  have hexec : exec .schedHaltskip s = execSchedHaltskip s := rfl
  rw [hexec, execSchedHaltskip, actReturning_running hs, if_neg (by simp [hd])]
  exact ⟨fun h => if_pos h, fun h hq => by rw [if_neg (by simp [h]), hq],
    fun h e rest hq => by rw [if_neg (by simp [h])]; simp only [hq]⟩

/-- A halt skip that met no fault returns 1 from outside a drain (assumptions 10 and 13). -/
theorem fireOne_haltskipDone (s : State) (e : Event) (rest : List Event) (L : Int) :
    (s.fireOne e rest L).haltskipDone =
      let t := ((s.setDraining true).setQueue rest).dispatch e.tag L
      if t.faults = [] then { t with sched := { t.sched with draining := false } }.put (.rbit true) else t := by
  rw [State.fireOne, proceed_setDraining, State.haltskipDone]
  dsimp only
  split_ifs with h
  · exact proceed_running (s := State.setDraining _ false) h _
  · exact proceed_stopped h _

/-- Settles O27: the cases of R210 (`exec_schedHaltskip`), where an event fires alone (`fireOne_haltskipDone`). -/
theorem haltSkip : Obligations.HaltSkip := by
  intro s hs hd
  obtain ⟨hawake, hstuck, hfire⟩ := exec_schedHaltskip hs hd
  simp only [← haltExit_iff, Bool.not_eq_true]
  refine ⟨hawake, hstuck, fun h e rest hq => ⟨fun hdue => ?_, fun hdue => ?_⟩⟩
  · rw [hfire h e rest hq, if_pos hdue, fireOne_haltskipDone]
    rfl
  · rw [hfire h e rest hq, if_neg (by omega), fireOne_haltskipDone]
    rfl

/-- Settles O26: the first check of either operation. -/
theorem drainReentry : Obligations.DrainReentry := by
  intro s hs hd
  refine ⟨by rw [exec_schedDrain hs, if_pos hd]; rfl, ?_⟩
  show execSchedHaltskip s = _
  rw [execSchedHaltskip, actReturning_running hs, if_pos hd]
  rfl

end Sys2Proof.Machine

/-! The clock (R214, R490). -/

namespace Sys2Proof.Machine

open Sys2Proof.Config

theorem advance_ticks_le (s : State) (n : Int) (op : FaultOp) : s.sched.ticks ≤ (s.advance n op).sched.ticks := by
  rcases advance_cases s n op with ⟨k, hk⟩ | ⟨hn, -, hk⟩ <;> rw [hk]
  · exact Int.le_refl _
  · exact Int.le_add_of_nonneg_right hn

/-- No part moves the clock back. -/
theorem ticks_ge_kept (T : Int) : KeptByParts fun s => T ≤ s.sched.ticks := by
  constructor
  constructor
  case schedule | lcdSchedule => intros; rwa [State.schedule_ticks]
  case advance => exact fun n op _ h => h.trans (advance_ticks_le _ n op)
  case skip => exact fun _ hd h => h.trans hd.le
  case lineStart => intros; rwa [State.mosaicLineStart_sched]
  all_goals intros; assumption

/-- No operation of a response moves the clock. -/
theorem ticks_eq_ops (T : Int) : KeptByOps fun s => s.sched.ticks = T := by
  constructor
  case schedule => intros; rwa [State.schedule_ticks]
  all_goals intros; assumption

/-- No part of an event moves the clock. -/
theorem ticks_eq_events (T : Int) : KeptByEvents fun s => s.sched.ticks = T := by
  constructor
  case emit => exact fun g h => (ticks_eq_ops T).emit g h
  case lcdSchedule => intros; rwa [State.schedule_ticks]
  case lineStart => intros; rwa [State.mosaicLineStart_sched]
  all_goals intros; assumption

/-- An operation that is no advance and no halt skip leaves the clock where it is. -/
theorem exec_ticks {s t : State} {w : OpWord} {i : Instr} (hw : decode w = .ok i) (hadv : ∀ n, i ≠ .schedAdvance n)
    (hskip : i ≠ .schedHaltskip) (ht : exec i s = .next t) : t.sched.ticks = s.sched.ticks := by
  have h := (ticks_eq_events s.sched.ticks).exec (s := s) (i := i)
    ((ticks_eq_ops _).respond (fun k hk => decode_irqFlag (hk ▸ hw)) rfl) (fun n hn => absurd hn (hadv n))
    (fun hi => absurd hi hskip) (fun y hy => decode_renderLine (hy ▸ hw)) rfl
  rwa [ht] at h

/-- A step that moves the clock runs a word, and the word is that of an advance or of a halt skip. -/
theorem step_ticks {s t : State} (ht : step s = .next t) (hne : s.sched.ticks ≠ t.sched.ticks) :
    ∃ w rest, s.ports.input = w :: rest ∧
      ((∃ n, decode w = .ok (.schedAdvance n)) ∨ decode w = .ok .schedHaltskip) := by
  cases hin : s.ports.input with
  | nil =>
    rw [step_of_input_nil hin] at ht
    cases ht
    exact absurd rfl hne
  | cons w rest =>
    refine ⟨w, rest, rfl, ?_⟩
    cases hw : decode w with
    | error r =>
      rw [step_of_decode_error hin hw] at ht
      cases ht
    | ok i =>
      rw [step_of_decode_ok hin hw] at ht
      refine by_contra fun hother => hne (exec_ticks hw (fun n hi => ?_) (fun hi => ?_) ht).symm
      · exact hother (.inl ⟨n, by rw [hi]⟩)
      · exact hother (.inr (by rw [hi]))

/-- Settles O29: no part of a step moves the clock back (`ticks_ge_kept`), and only an advance and a halt skip move
it (`step_ticks`). -/
theorem clockMoves : Obligations.ClockMoves :=
  fun s _ ht => ⟨(ticks_ge_kept s.sched.ticks).step (Int.le_refl _) ht, step_ticks ht⟩

end Sys2Proof.Machine

/-! The LCD's scanline, status bits and pending event (R149, R212, R231, R239): what an operation that fires no LCD
event does to them. -/

namespace Sys2Proof.Machine

open Sys2Proof.Config

/-! ## Operations that fire no LCD event -/

/-- What the operations of a response keep, every operation keeps that fires no LCD event: an advance, and the
internal `POP` and render, are what the block itself can do besides. -/
theorem KeptByOps.exec {P : State → Prop} (h : KeptByOps P) {s : State} {w : OpWord} {i : Instr}
    (hw : decode w = .ok i) (hi : ¬ i.FiresLcd)
    (hadv : ∀ n op, s.Running → P (s.advance n op))
    (hpop : i = .schedPop → ∀ {e : Event} {rest : List Event}, s.sched.queue = e :: rest → P (s.setQueue rest))
    (hrender : ∀ y, P (s.renderLine y)) (hs : P s) : P (stateAfter s (exec i s)) := by
  rcases exec_respond s i with he | rfl | ⟨n, rfl⟩ | rfl | rfl | ⟨L, rfl⟩ | ⟨L, rfl⟩ | ⟨y, rfl⟩
  · rw [he]
    exact h.respond (fun k hk => decode_irqFlag (hk ▸ hw)) hs
  · exact pop_keeps h.put h.raise (fun _ hq => hpop rfl hq) hs
  · by_cases hr : s.Running
    · rw [exec_schedAdvance hr]
      dsimp only [stateAfter]
      split_ifs
      · exact h.raise _ _ hr hs
      · exact hadv _ _ hr
    · show P (stateAfter s (execSchedAdvance n s))
      rw [execSchedAdvance, act_stopped hr]
      exact hs
  · exact absurd trivial hi
  · exact absurd trivial hi
  · exact absurd trivial hi
  · exact absurd trivial hi
  · exact internal_keeps (f := fun s => s.renderLine y.toNat) (fun hr => h.raise _ _ hr hs) (fun _ _ => hrender _) hs

/-! ## The scanline and the status bits -/

/-- The display shows the scanline and the status bits of `e`. -/
def Display.SameScan (d e : Display) : Prop :=
  d.vcount = e.vcount ∧ ∀ k, k < 3 → d.dispstat.getLsbD k = e.dispstat.getLsbD k

theorem Display.sameScan_refl (d : Display) : d.SameScan d := ⟨rfl, fun _ _ => rfl⟩

theorem dispstat_mask_status : ∀ k, k < 3 → (0xFF38 : Half).getLsbD k = false := by decide

/-- R147, R149: a bus write of `DISPSTAT` leaves the status bits, a bus write of `VCOUNT` does nothing, and no other
operation of a response touches either register. -/
theorem sameScan_ops (d : Display) : KeptByOps fun s => s.display.SameScan d := by
  constructor
  case dispstat =>
    intro s l b ⟨hvc, hst⟩
    exact ⟨hvc, fun k hk => (writeLane_keeps_bit _ _ k (dispstat_mask_status k hk)).trans (hst k hk)⟩
  case schedule => intros; rwa [State.schedule_display]
  all_goals intros; assumption

theorem renderLine_display (s : State) (y : Nat) : (s.renderLine y).display = s.display := by
  rcases renderLine_cases s y with ⟨k, hk⟩ | ⟨row, -, hk⟩ <;> rw [hk] <;> simp

theorem exec_sameScan {s : State} {w : OpWord} {i : Instr} (hw : decode w = .ok i) (hi : ¬ i.FiresLcd) :
    (stateAfter s (exec i s)).display.SameScan s.display :=
  (sameScan_ops s.display).exec hw hi (fun n op _ => by rw [State.advance_display]; exact s.display.sameScan_refl)
    (fun _ _ _ _ => s.display.sameScan_refl) (fun y => by rw [renderLine_display]; exact s.display.sameScan_refl)
    s.display.sameScan_refl

theorem emit_sameScan (s : State) (g : Signal) : (s.emit g).display.SameScan s.display :=
  (sameScan_ops s.display).emit g s.display.sameScan_refl

/-! ## The pending LCD events -/

/-- R202, R204: an event that an operation of a response adds or takes out carries no tag of the LCD's. -/
theorem lcdEvents_ops (q : List (Int × Byte)) : KeptByOps fun s => lcdEvents s.sched.queue = q := by
  constructor
  case schedule =>
    intro s tag d op ht _ hq
    rcases schedule_cases s tag d op with ⟨k, hk⟩ | ⟨-, -, -, hk⟩ <;> rw [hk]
    · exact hq
    · exact (lcd_insert_other ht _).trans hq
  case cancel => exact fun tag ht hq => (lcd_cancel ht _).trans hq
  all_goals intros; assumption

theorem renderLine_sched (s : State) (y : Nat) : (s.renderLine y).sched = s.sched := by
  rcases renderLine_cases s y with ⟨k, hk⟩ | ⟨row, -, hk⟩ <;> rw [hk] <;> simp

theorem exec_lcdEvents {s : State} {w : OpWord} {i : Instr} (hw : decode w = .ok i) (hi : ¬ i.FiresLcd)
    (hpop : i ≠ .schedPop) : lcdEvents (stateAfter s (exec i s)).sched.queue = lcdEvents s.sched.queue :=
  (lcdEvents_ops _).exec hw hi (fun n op _ => by rw [advance_queue]) (fun hp => absurd hp hpop)
    (fun y => by rw [renderLine_sched]) rfl

theorem emit_lcdEvents (s : State) (g : Signal) : lcdEvents (s.emit g).sched.queue = lcdEvents s.sched.queue :=
  (lcdEvents_ops _).emit g rfl

/-- Settles O35: the operations that fire no LCD event keep the scanline and the status bits (`exec_sameScan`) and
the pending LCD events (`exec_lcdEvents`), and so do those of a signal's response. -/
theorem lcdStateIsTheLcds : Obligations.LcdStateIsTheLcds := by
  refine ⟨fun s t w rest i hin hw hi ht => ?_, fun s g => ?_⟩
  · rw [step_of_decode_ok hin hw] at ht
    obtain ⟨hvc, hst⟩ := exec_sameScan (s := s.begin rest) hw hi
    have hlcd := exec_lcdEvents (s := s.begin rest) hw hi
    rw [ht] at hvc hst hlcd
    exact ⟨hvc, hst, hlcd⟩
  · obtain ⟨hvc, hst⟩ := emit_sameScan s g
    exact ⟨hvc, hst, emit_lcdEvents s g⟩

end Sys2Proof.Machine

/-! The LCD's two events and vblank entry (R232 to R237), each as its parts in their order, and the internal
operations the environment may not issue (R238). -/

namespace Sys2Proof.Machine

open Sys2Proof.Config

/-! ## Internal operations -/

theorem exec_eventHblankStart_internal {s : State} (hs : s.Running) (hi : s.ports.issuer = .internal)
    (L : BitVec 48) : exec (.eventHblankStart L) s = .next (s.hblankStart L.toInt) := by
  show execEventHblankStart L s = _
  rw [execEventHblankStart, act_running hs]
  simp only [hi]
  rfl

theorem exec_eventHblankEnd_internal {s : State} (hs : s.Running) (hi : s.ports.issuer = .internal)
    (L : BitVec 48) : exec (.eventHblankEnd L) s = .next (s.hblankEnd L.toInt) := by
  show execEventHblankEnd L s = _
  rw [execEventHblankEnd, act_running hs]
  simp only [hi]
  rfl

/-- An internal operation that the environment offers. -/
theorem act_internal_of_environment {s : State} (hs : s.Running) (hi : s.ports.issuer = .environment) (i : Instr)
    (f : State → State) :
    (s.act fun s => match s.ports.issuer with
      | .environment => s.raiseInternalOnly i
      | .internal => f s) = .next (s.raiseInternalOnly i) := by
  rw [act_running hs]
  simp only [hi]

/-- Settles O34: each of the four meanings branches on the issuer. -/
theorem internalOnly : Obligations.InternalOnly := by
  intro s L y hs hi
  simp only [List.forall_mem_cons]
  refine ⟨?pop, ?start, ?finish, ?render, by simp⟩
  case pop =>
    show execSchedPop s = _
    rw [execSchedPop, actReturning_running hs]
    simp only [hi]
    rfl
  case start => exact act_internal_of_environment hs hi _ fun s => s.hblankStart (argInt L)
  case finish => exact act_internal_of_environment hs hi _ fun s => s.hblankEnd (argInt L)
  case render => exact act_internal_of_environment hs hi _ fun s => s.renderLine y.toNat

/-! ## The flags -/

theorem one_shiftLeft_bit (k : Nat) {i : Nat} (hi : i < 16) : (1#16 <<< k).getLsbD i = decide (i = k) := by
  have h : (1#16 <<< k).getLsbD i = (decide (k < 16) && decide (k = i)) := BitVec.getLsbD_twoPow k i
  rw [h, Bool.eq_iff_iff]
  simp only [Bool.and_eq_true, decide_eq_true_eq]
  omega

/-- A status bit written (R22). -/
theorem setBit_bit (v : Half) (k : Nat) (b : Bool) {i : Nat} (hi : i < 16) :
    (setBit v k b).getLsbD i = if i = k then b else v.getLsbD i := by
  cases b
  · simp only [setBit, Bool.false_eq_true, if_false, BitVec.getLsbD_and, BitVec.getLsbD_not,
      one_shiftLeft_bit k hi, hi]
    split_ifs with h <;> simp [h]
  · simp only [setBit, if_true, BitVec.getLsbD_or, one_shiftLeft_bit k hi]
    split_ifs with h <;> simp [h]

theorem flagInterruptIf_eq (s : State) (en : Bool) (k : Nat) :
    s.flagInterruptIf en k = { s with irq := { s.irq with iflag := (s.flagInterruptIf en k).irq.iflag } } := by
  cases en <;> rfl

/-- Flagging sets the flag of its kind, when enabled, and no other (R262). -/
theorem flagInterruptIf_bit (s : State) (en : Bool) (k : Nat) {i : Nat} (hi : i < 16) :
    (s.flagInterruptIf en k).irq.iflag.getLsbD i = (s.irq.iflag.getLsbD i || (decide (i = k) && en)) := by
  cases en
  · simp only [Bool.and_false, Bool.or_false]
    rfl
  · have h : (s.flagInterruptIf true k).irq.iflag = s.irq.iflag ||| (1#16 <<< k) := rfl
    rw [h, BitVec.getLsbD_or, one_shiftLeft_bit k hi, Bool.and_true]

/-! ## HBLANK_START -/

/-- The blanking of a scanline as `HBLANK_START` begins it: `HBLANK` set and kind 1 flagged (R232, R233). -/
def State.enterHblank (s : State) : State :=
  (s.setHblank true).flagInterruptIf (statHblankIrqEn (s.setHblank true).display.dispstat) 1

theorem enterHblank_faults (s : State) : s.enterHblank.faults = s.faults := State.flagInterruptIf_faults _ _ _

theorem enterHblank_spec (s : State) :
    ∃ d f, (∀ i, i < 16 → d.getLsbD i = (s.display.dispstat.getLsbD i || decide (i = 1))) ∧
      (∀ i, i < 16 → f.getLsbD i = (s.irq.iflag.getLsbD i || (decide (i = 1) && s.display.dispstat.getLsbD 4))) ∧
      s.enterHblank =
        { s with display := { s.display with dispstat := d }, irq := { s.irq with iflag := f } } := by
  refine ⟨setBit s.display.dispstat 1 true, s.enterHblank.irq.iflag, fun i hi => ?_, fun i hi => ?_,
    flagInterruptIf_eq _ _ _⟩
  · rw [setBit_bit _ _ _ hi]
    split_ifs with h <;> simp [h]
  · have hen : statHblankIrqEn (s.setHblank true).display.dispstat = s.display.dispstat.getLsbD 4 :=
      setBit_bit s.display.dispstat 1 true (i := 4) (by decide)
    rw [← hen]
    exact flagInterruptIf_bit _ _ _ hi

/-- R233: on a vblank scanline. -/
theorem hblankStart_of_vblank_line {s : State} (hs : s.Running) (hy : screenH ≤ s.display.vcount.toNat) (L : Int) :
    s.hblankStart L = s.enterHblank.schedule 1 (272 - L) (.hblankStart L) := by
  have hv : visible s.display.vcount = false := by simp [visible, hy]
  simp only [State.hblankStart, State.renderIfVisible, State.dmaHblankIfVisible, hv, Bool.false_eq_true, if_false]
  rw [proceed_running hs]
  exact proceed_running (s := s.enterHblank) ((enterHblank_faults s).trans hs) _

/-- R232: on a visible scanline. -/
theorem hblankStart_of_visible_line {s : State} (hy : s.display.vcount.toNat < screenH) (L : Int) :
    s.hblankStart L = (s.renderLine s.display.vcount.toNat).proceed fun r =>
      (r.enterHblank.emit .dmaHblank).proceed fun b => b.schedule 1 (272 - L) (.hblankStart L) := by
  have hv : visible s.display.vcount = true := by simp [visible, hy]
  simp only [State.hblankStart, State.renderIfVisible, State.dmaHblankIfVisible, hv, if_true]
  rfl

/-- Settles O30: the event is the start of the blanking and then the primitive of R201 (`schedule`). -/
theorem hblankStartInVblank : Obligations.HblankStartInVblank := by
  refine ⟨fun s L hs hi => exec_eventHblankStart_internal hs hi L, fun s L hs hy => ?_⟩
  obtain ⟨d, f, hd, hf, hb⟩ := enterHblank_spec s
  refine ⟨d, f, hd, hf, ?_⟩
  have h := schedule s.enterHblank 1 (272 - L) (.hblankStart L)
  rw [← hblankStart_of_vblank_line hs hy, hb] at h
  have hlate : 272 - L < 0 ↔ 272 < L := by omega
  simpa only [hlate] using h

/-- Settles O31: a fault in the render or in the response to the signal ends the event where it stands. -/
theorem hblankStartOrder : Obligations.HblankStartOrder := by
  refine ⟨fun s L hs hi => exec_eventHblankStart_internal hs hi L, fun s L _ hy => ?_⟩
  dsimp only
  rw [hblankStart_of_visible_line hy]
  refine ⟨fun hr => proceed_stopped hr _, fun hr => ?_⟩
  obtain ⟨d, f, hd, hf, hb⟩ := enterHblank_spec (s.renderLine s.display.vcount.toNat)
  refine ⟨d, f, hd, hf, ?_⟩
  rw [proceed_running hr, hb]
  exact ⟨fun h => proceed_stopped h _, fun h => proceed_running h _⟩

/-! ## Vblank entry -/

theorem mapAff_bg (b : Backgrounds) (f : Affine → Affine) (n : Fin 4) : (b.mapAff f).bg n = b.bg n := rfl

theorem mapAff_aff (b : Backgrounds) (f : Affine → Affine) (n : AffineBg) : (b.mapAff f).aff n = f (b.aff n) := by
  cases n <;> rfl

/-- Vblank entry up to its signal: `VBLANK` set and the affine references reloaded (R237). -/
def State.enterVblank (s : State) : State :=
  { s.setVblank true with bgs := s.bgs.mapAff Affine.reload }

/-- Vblank entry after its signal: kind 0 flagged and the frame completed (R237). -/
def State.finishFrame (s : State) : State :=
  { s.flagInterruptIf (statVblankIrqEn s.display.dispstat) 0 with output := s.output.completeFrame }

theorem finishFrame_spec (s : State) :
    ∃ f, (∀ i, i < 16 → f.getLsbD i = (s.irq.iflag.getLsbD i ||
        (decide (i = 0) && s.display.dispstat.getLsbD 3))) ∧
      s.finishFrame = { s with irq := { s.irq with iflag := f }, output := s.output.completeFrame } := by
  refine ⟨_, fun i hi => flagInterruptIf_bit s (statVblankIrqEn s.display.dispstat) 0 hi, ?_⟩
  rw [State.finishFrame, flagInterruptIf_eq]

theorem vblankEntry_eq (s : State) :
    s.vblankEntry = (s.enterVblank.emit .dmaVblank).proceed State.finishFrame := by
  simp only [State.vblankEntry, State.flagInterruptIf_output]
  rfl

/-- Vblank entry leaves the scanline as it is, its signal's response included. -/
theorem vblankEntry_vcount (s : State) : s.vblankEntry.display.vcount = s.display.vcount := by
  rw [vblankEntry_eq]
  refine proceed_keeps (P := fun t => t.display.vcount = s.display.vcount) (fun t _ ht => ?_) ?_
  · obtain ⟨f, -, hfin⟩ := finishFrame_spec t
    rw [hfin]
    exact ht
  · obtain ⟨hvc, -⟩ := emit_sameScan s.enterVblank .dmaVblank
    exact hvc

/-- Settles O33: a response that faults ends vblank entry before the frame is completed. -/
theorem vblankEntry : Obligations.VblankEntry := by
  intro s _
  refine ⟨setBit s.display.dispstat 0 true, s.bgs.mapAff Affine.reload, fun i hi => ?_, mapAff_bg _ _,
    mapAff_aff _ _, ?_⟩
  · rw [setBit_bit _ _ _ hi]
    split_ifs with h <;> simp [h]
  · rw [vblankEntry_eq]
    refine ⟨fun h => proceed_stopped h _, fun h => ?_⟩
    obtain ⟨f, hf, hfin⟩ := finishFrame_spec (s.enterVblank.emit .dmaVblank)
    exact ⟨f, hf, (proceed_running h _).trans hfin⟩

/-! ## HBLANK_END -/

/-- The next scanline as `HBLANK_END` begins it: `HBLANK` cleared, `VCOUNT` moved on and the match evaluated
(R234, R235). -/
def State.startLine (s : State) : State :=
  ((s.setHblank false).setVcount (nextLine s.display.vcount)).vcountCompare

/-- What `HBLANK_END` does once the scanline has begun: line 227 ends vblank, line 0 begins a frame, and the
scanline's blanking is scheduled (R234, R236). -/
def State.finishLine (L : Int) (s : State) : State :=
  let s := if s.display.vcount = 227 then s.setVblank false else s
  let s := if s.display.vcount = 0 then s.mosaicFrameStart else s
  s.schedule 0 (960 - L) (.hblankEnd L)

/-- A status bit written leaves `LYC` as it is. -/
theorem setBit_lyc (v : Half) {k : Nat} (hk : k < 8) (b : Bool) :
    (setBit v k b).extractLsb' 8 8 = v.extractLsb' 8 8 := by
  refine BitVec.eq_of_getLsbD_eq fun i hi => ?_
  rw [BitVec.getLsbD_extractLsb', BitVec.getLsbD_extractLsb', setBit_bit _ _ _ (by omega), if_neg (by omega)]

theorem startLine_faults (s : State) : s.startLine.faults = s.faults := State.flagInterruptIf_faults _ _ _

theorem startLine_vcount (s : State) : s.startLine.display.vcount = nextLine s.display.vcount := by
  simp [State.startLine, State.vcountCompare]

theorem startLine_spec (s : State) : let y := nextLine s.display.vcount
    ∃ d f, (∀ i, i < 16 → d.getLsbD i = if i = 1 then false
        else if i = 2 then decide (y = s.display.dispstat.extractLsb' 8 8) else s.display.dispstat.getLsbD i) ∧
      (∀ i, i < 16 → f.getLsbD i = (s.irq.iflag.getLsbD i ||
        (decide (i = 2 ∧ y = s.display.dispstat.extractLsb' 8 8) && s.display.dispstat.getLsbD 5))) ∧
      s.startLine = { s with
        display := { s.display with dispstat := d, vcount := y }, irq := { s.irq with iflag := f } } := by
  intro y
  have hlyc : statLyc (setBit s.display.dispstat 1 false) = s.display.dispstat.extractLsb' 8 8 :=
    setBit_lyc _ (by decide) _
  have hen : ∀ b, statVcountIrqEn (setBit (setBit s.display.dispstat 1 false) 2 b) = s.display.dispstat.getLsbD 5 :=
    fun b => (setBit_bit _ 2 b (i := 5) (by decide)).trans (setBit_bit _ 1 false (i := 5) (by decide))
  refine ⟨setBit (setBit s.display.dispstat 1 false) 2 (decide (y = statLyc (setBit s.display.dispstat 1 false))),
    s.startLine.irq.iflag, fun i hi => ?_, fun i hi => ?_, flagInterruptIf_eq _ _ _⟩
  · rw [setBit_bit _ _ _ hi, setBit_bit _ _ _ hi, hlyc]
    by_cases h1 : i = 1
    · rw [h1]
      rfl
    · simp only [if_neg h1]
  · rw [Bool.decide_and, Bool.and_assoc, ← hlyc, ← hen (decide (y = statLyc (setBit s.display.dispstat 1 false)))]
    exact flagInterruptIf_bit _ _ _ hi

theorem hblankEnd_eq (s : State) (L : Int) :
    s.hblankEnd L = State.proceed
      (if s.startLine.display.vcount = 160 then s.startLine.vblankEntry else s.startLine) (State.finishLine L) := rfl

theorem hblankEnd_of_ne {s : State} (hs : s.Running) (h : nextLine s.display.vcount ≠ 160) (L : Int) :
    s.hblankEnd L = s.startLine.finishLine L := by
  rw [hblankEnd_eq, if_neg (by rwa [startLine_vcount]), proceed_running ((startLine_faults s).trans hs)]

theorem hblankEnd_of_eq {s : State} (h : nextLine s.display.vcount = 160) (L : Int) :
    s.hblankEnd L = s.startLine.vblankEntry.proceed (State.finishLine L) := by
  rw [hblankEnd_eq, if_pos ((startLine_vcount s).trans h)]

theorem finishLine_of_ne {s : State} (h227 : s.display.vcount ≠ 227) (h0 : s.display.vcount ≠ 0) (L : Int) :
    s.finishLine L = s.schedule 0 (960 - L) (.hblankEnd L) := by
  simp only [State.finishLine, if_neg h227, if_neg h0]

theorem finishLine_227 {s : State} (h : s.display.vcount = 227) (L : Int) :
    s.finishLine L = (s.setVblank false).schedule 0 (960 - L) (.hblankEnd L) := by
  have h0 : (s.setVblank false).display.vcount ≠ 0 := by simp [h]
  simp only [State.finishLine, if_pos h, if_neg h0]

theorem finishLine_0 {s : State} (h : s.display.vcount = 0) (L : Int) :
    s.finishLine L = s.mosaicFrameStart.schedule 0 (960 - L) (.hblankEnd L) := by
  have h227 : s.display.vcount ≠ 227 := by simp [h]
  simp only [State.finishLine, if_neg h227, if_pos h]

/-- Settles O32: the scanline begins (`startLine_spec`); at 160 vblank entry comes in between, which leaves the
scanline as it is (`vblankEntry_vcount`); then the scanline decides what `finishLine` does. -/
theorem hblankEnd : Obligations.HblankEnd := by
  refine ⟨fun s L hs hi => exec_eventHblankEnd_internal hs hi L, fun s L y hs hy => ?_⟩
  obtain rfl : y = nextLine s.display.vcount := BitVec.eq_of_toNat_eq (hy.trans (toNat_nextLine _).symm)
  obtain ⟨d, f, hd, hf, ha⟩ := startLine_spec s
  refine ⟨d, f, hd, hf, ?_⟩
  dsimp only
  rw [← ha]
  have hvc := startLine_vcount s
  refine ⟨fun h160 h227 h0 => ?other, fun h => ?last, fun h => ?first, fun h hr => ?vblank, fun h hr => ?stop⟩
  case other => rw [hblankEnd_of_ne hs h160, finishLine_of_ne (by rwa [hvc]) (by rwa [hvc])]
  case last =>
    rw [hblankEnd_of_ne hs (by simp [h]), finishLine_227 (hvc.trans h), State.setVblank, ha]
    rfl
  case first =>
    rw [hblankEnd_of_ne hs (by simp [h]), finishLine_0 (hvc.trans h), State.mosaicFrameStart, ha]
  case vblank =>
    have hv : s.startLine.vblankEntry.display.vcount = 160 := (vblankEntry_vcount _).trans (hvc.trans h)
    rw [hblankEnd_of_eq h, proceed_running hr, finishLine_of_ne (by simp [hv]) (by simp [hv])]
  case stop => rw [hblankEnd_of_eq h, proceed_stopped hr]

/-! ## The position in the frame -/

/-- The clock's place in a frame of 228 scanlines of 1232 ticks (R240). -/
theorem tick_position {T r : Int} {f y : Nat} (hy : y < 228) (hT : T = 1232 * (228 * f + y : Nat) + r) (h0 : 0 ≤ r)
    (hr : r < 1232) :
    T % 280896 / 1232 = y ∧ T % 280896 % 1232 = r ∧
      (T + 1232 * 68) / 280896 = (f + if screenH ≤ y then 1 else 0 : Nat) := by
  have hp : T % 280896 = 1232 * y + r := by omega
  rw [hp]
  refine ⟨by omega, by omega, ?_⟩
  simp only [screenH]
  split_ifs <;> omega

theorem exists_due_of_mem_lcdEvents {q : List Event} {d : Int} {tag : Byte} (h : (d, tag) ∈ lcdEvents q) :
    ∃ e ∈ q, e.due = d := by
  obtain ⟨e, he, hd⟩ := List.mem_map.mp h
  exact ⟨e, List.mem_of_mem_filter he, congrArg Prod.fst hd⟩

/-- With no pending event due, the clock is in the scanline of `VCOUNT`, and `HBLANK` says in which part (R215). -/
theorem State.LcdAt.offset {f : Nat} {s : State} (h : s.LcdAt f)
    (hq : ∀ e ∈ s.sched.queue, s.sched.ticks < e.due) :
    ∃ r : Int, s.sched.ticks = 1232 * (228 * f + s.display.vcount.toNat : Nat) + r ∧ 0 ≤ r ∧ r < 1232 ∧
      (s.display.dispstat.getLsbD 1 = true ↔ 960 ≤ r) := by
  have pending : ∀ {d : Int} {tag : Byte}, lcdEvents s.sched.queue = [(d, tag)] → s.sched.ticks < d := by
    intro d tag hl
    obtain ⟨e, he, rfl⟩ := exists_due_of_mem_lcdEvents (hl ▸ List.mem_singleton_self _)
    exact hq e he
  obtain ⟨-, hphase, -, -⟩ := h
  refine ⟨s.sched.ticks - 1232 * (228 * f + s.display.vcount.toNat : Nat), by omega, ?_⟩
  simp only [lineCycles, drawCycles, totalLines] at hphase
  split_ifs at hphase with hbit
  · obtain ⟨hl, hstart⟩ := hphase
    have hend := pending hl
    exact ⟨by omega, by omega, iff_of_true hbit (by omega)⟩
  · obtain ⟨hl, hstart⟩ := hphase
    have hend := pending hl
    exact ⟨by omega, by omega, iff_of_false hbit (by omega)⟩

/-- Settles O37: the clock stands `r` ticks into the scanline (`State.LcdAt.offset`), which gives its place in the
frame (`tick_position`). -/
theorem cyclePosition : Obligations.CyclePosition := by
  intro f s h hq
  obtain ⟨r, hT, h0, hr, hhb⟩ := h.offset hq
  obtain ⟨hy, -, hvb, hfc⟩ := h
  obtain ⟨hline, hpart, hframe⟩ := tick_position hy hT h0 hr
  dsimp only
  rw [hline, hpart, hframe]
  refine ⟨rfl, hhb, ?_, hfc.trans (BitVec.ofInt_natCast _ _).symm⟩
  have hbit : statVblank s.display.dispstat = s.display.dispstat.getLsbD 0 := rfl
  rw [← hbit, hvb, decide_eq_true_eq, screenH]
  omega

end Sys2Proof.Machine

/-! The interrupt bank (R262 to R266): the operations of the `IRQ` port, and the pending flags as latches. -/

namespace Sys2Proof.Machine

/-! ## The operations of the `IRQ` port -/

/-- Flagging a kind sets its bit of `IF` and no other (R262). -/
theorem flagInterrupt_bit (s : State) (k : Nat) {i : Nat} (hi : i < 16) :
    (s.flagInterrupt k).irq.iflag.getLsbD i = (s.irq.iflag.getLsbD i || decide (i = k)) := by
  rw [State.flagInterrupt_irq, BitVec.getLsbD_or, one_shiftLeft_bit k hi]

/-- The level of the interrupt line: `IME` gates the halt-exit condition (R264). -/
theorem line_iff (b : IrqBank) : b.line = true ↔ b.ime.getLsbD 0 = true ∧ b.Awake := by
  rw [IrqBank.line, Bool.and_eq_true, haltExit_iff, flag]

/-- Settles O16: a running `act` that flags one kind (`flagInterrupt_bit`), and two running queries (`line_iff`,
`haltExit_iff`). -/
theorem interruptOperations : Obligations.InterruptOperations := fun s hs =>
  ⟨fun k _ => ⟨_, act_running hs fun s => s.flagInterrupt k.toNat, fun _ => flagInterrupt_bit s k.toNat⟩,
    ⟨_, query_running hs _ _, line_iff s.irq⟩, ⟨_, query_running hs _ _, haltExit_iff s.irq⟩⟩

/-! ## The pending flags -/

/-- The word spells no operation that clears the flag of kind `k`. -/
def SparesFlag (k : Nat) (w : OpWord) : Prop := ∀ i, decode w = .ok i → ¬ i.ClearsFlag k

/-- The flag of kind `k` is pending, and no word of a response to come clears it. -/
def Latched (k : Nat) (s : State) : Prop :=
  s.irq.iflag.getLsbD k = true ∧ ∀ w ∈ s.ports.responses.flatten, SparesFlag k w

theorem Latched.congr {k : Nat} {s t : State} (h : Latched k s) (hirq : t.irq = s.irq)
    (hports : t.ports.responses = s.ports.responses) : Latched k t := by
  unfold Latched
  rw [hirq, hports]
  exact h

theorem flagInterrupt_keeps_flag {k n : Nat} {s : State} (h : s.irq.iflag.getLsbD k = true) :
    (s.flagInterrupt n).irq.iflag.getLsbD k = true := by
  rw [flagInterrupt_bit s n (BitVec.lt_of_getLsbD h), h, Bool.true_or]

/-- A write of `IF` leaves every flag it does not clear (R177). -/
theorem clearFlags_keeps_flag {f : Half} {k : Nat} {lane : BitVec 1} {d : Byte}
    (hspare : ¬ (Instr.wIf lane d).ClearsFlag k) (h : f.getLsbD k = true) :
    (clearFlags f lane.toNat d).getLsbD k = true := by
  rw [clearFlags_bit f lane.toNat d (BitVec.lt_of_getLsbD h), if_neg, h]
  rintro ⟨hlo, hhi, -, hd⟩
  exact hspare ⟨lane, d, rfl, hlo, hhi, hd⟩

theorem act_keeps_flag {k : Nat} {s : State} {f : State → State}
    (hf : ∀ {s}, s.irq.iflag.getLsbD k = true → (f s).irq.iflag.getLsbD k = true)
    (h : s.irq.iflag.getLsbD k = true) : (stateAfter s (s.act f)).irq.iflag.getLsbD k = true :=
  act_keeps (P := fun s => s.irq.iflag.getLsbD k = true) (fun _ _ => hf) h

/-- Of the operations of a response only a write of `IF` can clear a flag. -/
theorem respond_keeps_flag {k : Nat} {s : State} {i : Instr} (hspare : ¬ i.ClearsFlag k)
    (h : s.irq.iflag.getLsbD k = true) : (s.respond i).irq.iflag.getLsbD k = true := by
  cases i with
  | wIe | wIme => exact act_keeps_flag id h
  | wIf => exact act_keeps_flag (clearFlags_keeps_flag hspare) h
  | irqFlag => exact act_keeps_flag flagInterrupt_keeps_flag h
  | _ => rwa [respond_irq _ _ (by simp) (by simp) (by simp) (by simp)]

theorem Latched.respond {k : Nat} {s : State} {i : Instr} (h : Latched k s) (hspare : ¬ i.ClearsFlag k) :
    Latched k (s.respond i) :=
  ⟨respond_keeps_flag hspare h.1, by rw [respond_responses]; exact h.2⟩

theorem Latched.respondWord {k : Nat} {s : State} {w : OpWord} (h : Latched k s) (hspare : SparesFlag k w) :
    Latched k (s.respondWord w) := by
  cases hw : decode w with
  | ok i => rw [respondWord_of_decode_ok hw]; exact h.respond (hspare i hw)
  | error r => rw [respondWord_of_decode_error hw]; exact h.congr rfl rfl

theorem Latched.respondAll {k : Nat} {ws : List OpWord} {s : State} (h : Latched k s)
    (hspare : ∀ w ∈ ws, SparesFlag k w) : Latched k (ws.foldl State.respondWord s) := by
  induction ws generalizing s with
  | nil => exact h
  | cons w ws ih =>
    obtain ⟨hw, hws⟩ := List.forall_mem_cons.mp hspare
    exact ih (h.respondWord hw) hws

/-- A signal takes the next response: its words spare the flag, and so do those of the responses left. -/
theorem Latched.emit {k : Nat} {s : State} (h : Latched k s) (g : Signal) : Latched k (s.emit g) := by
  cases hr : s.ports.responses with
  | nil => rw [emit_of_responses_nil hr]; exact h.congr rfl rfl
  | cons ws rest =>
    obtain ⟨hflag, hspare⟩ := h
    rw [hr, List.flatten_cons, List.forall_mem_append] at hspare
    obtain ⟨hws, hrest⟩ := hspare
    rw [emit_of_responses_cons hr]
    exact Latched.respondAll ⟨hflag, hrest⟩ hws

/-- Every part of an event sets flags only (R266). -/
theorem latched_events (k : Nat) : KeptByEvents (Latched k) := by
  constructor
  case emit => exact fun g h => h.emit g
  case flag => exact fun _ _ h => ⟨flagInterrupt_keeps_flag h.1, h.2⟩
  case lcdSchedule => exact fun _ _ _ _ h => h.congr (State.schedule_irq ..) (by rw [State.schedule_ports])
  case lineStart => exact fun y _ h => h.congr (State.mosaicLineStart_irq ..) (by rw [State.mosaicLineStart_ports])
  all_goals intros; assumption

/-- An operation keeps a flag pending that neither it nor a word of a response clears. -/
theorem Latched.exec {k : Nat} {s t : State} {w : OpWord} {i : Instr} (h : Latched k s) (hw : decode w = .ok i)
    (hspare : ¬ i.ClearsFlag k) (ht : exec i s = .next t) : Latched k t := by
  have hexec := (latched_events k).exec (h.respond hspare)
    (fun n _ _ => h.congr (State.advance_irq ..) (by rw [State.advance_ports])) (fun _ _ _ _ _ => h.congr rfl rfl)
    (fun y hy => decode_renderLine (hy ▸ hw)) h
  rwa [ht] at hexec

/-- A step keeps a flag pending that neither the offered word nor a word of a response clears. -/
theorem Latched.step {k : Nat} {s t : State} (h : Latched k s) (hspare : ∀ w ∈ s.ports.input.take 1, SparesFlag k w)
    (ht : step s = .next t) : Latched k t := by
  cases hin : s.ports.input with
  | nil =>
    rw [step_of_input_nil hin] at ht
    cases ht
    exact h.congr rfl rfl
  | cons w rest =>
    cases hw : decode w with
    | error r => rw [step_of_decode_error hin hw] at ht; cases ht
    | ok i =>
      rw [step_of_decode_ok hin hw] at ht
      have hbegin : Latched k (s.begin rest) := h.congr rfl rfl
      exact hbegin.exec hw (hspare w (by simp [hin]) i hw) ht

/-- Settles O17: were there no such write among the words, the flag would be `Latched`, and every step keeps it so
(`Latched.step`). -/
theorem pendingFlagsAreLatches : Obligations.PendingFlagsAreLatches := by
  intro s t k ht _ hset hclear
  by_contra hnone
  have hspare : ∀ w ∈ s.ports.input.take 1 ++ s.ports.responses.flatten, SparesFlag k w :=
    fun w hw i hi hc => hnone ⟨w, hw, i, hi, hc⟩
  obtain ⟨hword, hresponses⟩ := List.forall_mem_append.mp hspare
  obtain ⟨hflag, -⟩ := Latched.step ⟨hset, hresponses⟩ hword ht
  exact absurd (hflag.symm.trans hclear) (by decide)

end Sys2Proof.Machine

/-! The host port (R280 to R284). -/

namespace Sys2Proof.Machine

/-- `HOST.SETCC`'s test of its operand (R283) reads the operand's bit. -/
theorem decide_eq_one_eq_bit (b : BitVec 1) : decide (b = 1) = b.getLsbD 0 := by
  obtain rfl | rfl := BitVec.eq_zero_or_eq_one b <;> rfl

/-- A running block's `HOST.SETCC` sets the colour toggle to its operand (R283). -/
theorem exec_hostSetcc {s : State} (hs : s.Running) (b : BitVec 1) :
    exec (.hostSetcc b) s = .next { s with output := { s.output with colorCorrection := b.getLsbD 0 } } := by
  rw [← decide_eq_one_eq_bit]
  exact act_running hs fun _ => _

/-- Settles O44: three running queries, a running `act` that clears the flag, and `exec_hostSetcc`. -/
theorem hostOperations : Obligations.HostOperations := fun _ b hs =>
  ⟨query_running hs _ _, act_running hs fun _ => _, query_running hs _ _, exec_hostSetcc hs b, query_running hs _ _⟩

end Sys2Proof.Machine

/-! The fields of the LCD and background registers (R21, R24) in the arithmetic of R10, the layers of a scanline and
their order (R301, R302), and horizontal mosaic (R340). -/

namespace Sys2Proof.Machine

open Sys2Proof.Config

/-! ## Fields -/

theorem dispMode_eq (d : Half) : dispMode d = d.toNat % 8 := by simp [dispMode, field_eq]

theorem bgPrio_eq (c : Half) : bgPrio c = c.toNat % 4 := by simp [bgPrio, field_eq]

theorem bgCharBase_eq (c : Half) : bgCharBase c = c.toNat / 4 % 4 * 0x4000 := by simp [bgCharBase, field_eq]

theorem bgScreenBase_eq (c : Half) : bgScreenBase c = c.toNat / 256 % 32 * 0x800 := by simp [bgScreenBase, field_eq]

/-- A field that ends at the top bit of a halfword is a quotient. -/
theorem field_top (v : Half) {lo len : Nat} (h : lo + len = 16) : field v lo len = v.toNat / 2 ^ lo := by
  rw [field_eq, Nat.mod_eq_of_lt]
  exact Nat.div_lt_of_lt_mul (by rw [← pow_add, h]; exact v.isLt)

theorem bgSize_eq (c : Half) : bgSize c = c.toNat / 2 ^ 14 := field_top c rfl

theorem bgSize_lt (c : Half) : bgSize c < 4 := field_lt c 14 2

theorem mosBgH_eq (m : Half) : mosBgH m = m.toNat % 16 := by simp [mosBgH, field_eq]

/-! ## The layers and their order -/

theorem layerShown_iff (s : State) (n : Fin 4) :
    s.layerShown n = true ↔
      s.display.dispcnt.getLsbD (8 + n.val) = true ∧ layerKind (s.display.dispcnt.toNat % 8) n ≠ none := by
  rw [State.layerShown, Bool.and_eq_true, Option.isSome_iff_ne_none, dispMode_eq]
  rfl

theorem mem_layerOrder (s : State) (n : Fin 4) : n ∈ s.layerOrder ↔ s.layerShown n = true := by
  have hn : n ∈ ([3, 2, 1, 0] : List (Fin 4)) := by revert n; decide
  have hprio : bgPrio (s.bgs.bg n).cnt ∈ [3, 2, 1, 0] := by
    have : bgPrio (s.bgs.bg n).cnt < 4 := field_lt _ _ _
    simp only [List.mem_cons, List.not_mem_nil, or_false]
    omega
  rw [State.layerOrder, List.mem_flatMap]
  simp only [List.mem_filter, hn, true_and, Bool.and_eq_true, decide_eq_true_eq]
  exact ⟨fun ⟨_, _, h, _⟩ => h, fun h => ⟨_, hprio, h, rfl⟩⟩

/-- Background `a` is behind background `b` (R302). -/
def State.Behind (s : State) (a b : Fin 4) : Prop :=
  (s.bgs.bg b).cnt.toNat % 4 < (s.bgs.bg a).cnt.toNat % 4 ∨
    ((s.bgs.bg b).cnt.toNat % 4 = (s.bgs.bg a).cnt.toNat % 4 ∧ b < a)

theorem State.Behind.ne {s : State} {a b : Fin 4} (h : s.Behind a b) : a ≠ b := by
  rintro rfl
  rcases h with h | ⟨_, h⟩
  · exact Nat.lt_irrefl _ h
  · exact Fin.lt_irrefl _ h

/-- Within one priority the numbers fall, and from one priority to the next the priority falls. -/
theorem layerOrder_pairwise (s : State) : s.layerOrder.Pairwise s.Behind := by
  rw [State.layerOrder, List.pairwise_flatMap]
  constructor
  · intro prio _
    have hfall : ([3, 2, 1, 0] : List (Fin 4)).Pairwise fun a b => b < a := by decide
    refine (hfall.filter _).imp_of_mem fun {a b} ha hb hlt => .inr ⟨?_, hlt⟩
    simp only [List.mem_filter, Bool.and_eq_true, decide_eq_true_eq, bgPrio_eq] at ha hb
    rw [ha.2.2, hb.2.2]
  · have hfall : [3, 2, 1, 0].Pairwise fun p q => q < p := by decide
    refine hfall.imp fun {p q} hlt a ha b hb => .inl ?_
    simp only [List.mem_filter, Bool.and_eq_true, decide_eq_true_eq, bgPrio_eq] at ha hb
    rwa [ha.2.2, hb.2.2]

/-- Settles O49: the table by running it, the members by `mem_layerOrder`, the order by `layerOrder_pairwise`. -/
theorem layerOrder : Obligations.LayerOrder := by
  refine ⟨by decide, fun s => ⟨?_, fun n => (mem_layerOrder s n).trans (layerShown_iff s n), layerOrder_pairwise s⟩⟩
  exact (layerOrder_pairwise s).imp State.Behind.ne

/-! ## Horizontal mosaic -/

/-- The counter of R340 after column `k` is that of column `k + 1`. -/
theorem holdCounter_succ {size k h : Nat} (hh : h = k % (size + 1)) :
    (if h + 1 > size then 0 else h + 1) = (k + 1) % (size + 1) := by
  have hlt : h < size + 1 := hh ▸ Nat.mod_lt _ (Nat.succ_pos _)
  have hk : k + 1 = (size + 1) * (k / (size + 1)) + (h + 1) := by rw [hh, ← Nat.add_assoc, Nat.div_add_mod]
  rw [hk, Nat.mul_add_mod]
  split_ifs with hw
  · rw [show h + 1 = size + 1 by omega, Nat.mod_self]
  · rw [Nat.mod_eq_of_lt (by omega)]

/-- The sample-and-hold over the columns from `k` up, when its counter is that of column `k` and its sample that of
the group's first column. -/
theorem holdRow_eq_mapM {size : Nat} {f : Nat → Fetch (Option Px)} {m k h : Nat} {held : Option Px}
    (hh : h = k % (size + 1)) (hheld : h ≠ 0 → f (k - h) = .ok held) :
    holdRow size f (List.range' k m) h held = (List.range' k m).mapM fun x => f (x - x % (size + 1)) := by
  induction m generalizing k h held with
  | zero => rfl
  | succ m ih =>
    have hsample : (if h = 0 then f k else pure held) = f (k - h) := by
      split_ifs with h0
      · rw [h0, Nat.sub_zero]
      · exact (hheld h0).symm
    rw [List.range'_succ, List.mapM_cons, ← hh, holdRow, hsample]
    cases hv : f (k - h) with
    | error e => rfl
    | ok v =>
      have hrest := ih (k := k + 1) (held := v) (holdCounter_succ hh) fun h0 => by
        rw [if_neg fun hw => h0 (if_pos hw), Nat.add_sub_add_right, hv]
      exact congrArg (· >>= fun rest => pure (v :: rest)) hrest

theorem bgRow_of_kind {s : State} {n : Fin 4} {kind : LayerKind}
    (h : layerKind (dispMode s.display.dispcnt) n = some kind) (y : Nat) :
    s.bgRow n y =
      if bgMosaic (s.bgs.bg n).cnt then holdRow (mosBgH s.fx.mosaic) (s.layerPixel kind n y) columns 0 none
      else columns.mapM (s.layerPixel kind n y) := by
  rw [State.bgRow, h]

theorem bgRow_of_absent {s : State} {n : Fin 4} (h : layerKind (dispMode s.display.dispcnt) n = none) (y : Nat) :
    s.bgRow n y = .ok (columns.map fun _ => none) := by
  rw [State.bgRow, h]

/-- Settles O50: with mosaic, the sample-and-hold from column 0 (`holdRow_eq_mapM`). -/
theorem horizontalMosaic : Obligations.HorizontalMosaic := by
  intro s n y kind hkind
  rw [bgRow_of_kind hkind, bgMosaic, flag, columns, List.range_eq_range']
  split_ifs
  · rw [holdRow_eq_mapM (Nat.zero_mod _).symm fun h => absurd rfl h, mosBgH_eq]
  · rfl

end Sys2Proof.Machine

/-! The pixels of the background layers (R304, R310 to R333), each read by the arithmetic of R10: what a palette index
shows, text tiles and maps, affine layers and bitmaps. -/

namespace Sys2Proof.Machine

open Sys2Proof.Config

/-! ## Reads and colours -/

theorem fetch8_bind {α : Type} {s : State} {m : VMem} {a : Nat} {b : Byte} (h : s.byte? m a = some b)
    (k : Byte → Fetch α) : (s.fetch8 m a >>= k) = k b := by
  rw [fetch8_of_byte h]; rfl

theorem fetch16_bind {α : Type} {s : State} {m : VMem} {a : Nat} {v : Half} (h : s.HalfAt m a v)
    (k : Half → Fetch α) : (s.fetch16 m a >>= k) = k v := by
  rw [fetch16_of_halfAt h]; rfl

theorem bgPx_eq_layerPx (s : State) (n : Fin 4) (h : Half) : s.bgPx n (h.extractLsb' 0 15) = s.layerPx n h := by
  rw [State.bgPx, State.layerPx, bgPrio_eq]

theorem bgPx_congr {s t : State} (h : s.bgs.bg = t.bgs.bg) : s.bgPx = t.bgPx := by
  funext n c
  simp only [State.bgPx, h]

/-- The pixel of a palette index, whose colour lies at offset `a` (R304). -/
theorem indexed_palettePixel (s : State) (n : Fin 4) {transparent : Prop} [Decidable transparent] {i : Nat} (a : Nat)
    (hi : transparent ↔ i = 0) :
    s.Indexed n i a
      (if transparent then pure none else s.paletteColour a >>= fun c => pure (some (s.bgPx n c))) := by
  refine ⟨fun h0 => if_pos (hi.mpr h0), fun h0 v hv => ?_⟩
  rw [if_neg (mt hi.mp h0), State.paletteColour, fetch16_bind hv, ← bgPx_eq_layerPx]
  rfl

theorem byte_eq_zero_iff (b : Byte) : b = 0 ↔ b.toNat = 0 := BitVec.toNat_inj.symm

/-- R331, R333. -/
theorem direct16_of_halfAt {s : State} {a : Nat} {h : Half} (hh : s.HalfAt .vram a h) (n : Fin 4) :
    s.direct16 n a = .ok (some (s.layerPx n h)) := by
  rw [State.direct16, fetch16_bind hh, bgPx_eq_layerPx]
  rfl

/-! ## Below the fetch limit (R315) -/

/-- The video memories of two states hold the same bytes, except perhaps in VRAM from offset 0x10000 up. -/
def State.SameBelowLimit (s t : State) : Prop := ∀ m a, (m = .vram → a < 0x10000) → s.byte? m a = t.byte? m a

namespace State.SameBelowLimit

section
variable {s t : State} (h : s.SameBelowLimit t)
include h

theorem fetch8 {m : VMem} {a : Nat} (ha : m = .vram → a < 0x10000) : s.fetch8 m a = t.fetch8 m a := by
  simp only [State.fetch8, h m a ha]

theorem fetch16 {m : VMem} {a : Nat} (ha : m = .vram → a + 1 < 0x10000) : s.fetch16 m a = t.fetch16 m a := by
  simp only [State.fetch16, h.fetch8 ha, h.fetch8 fun hm => Nat.lt_of_succ_lt (ha hm)]

theorem paletteColour : s.paletteColour = t.paletteColour := by
  funext a
  simp only [State.paletteColour, h.fetch16 (m := .pram) nofun]

/-- A read of one byte under the fetch limit. -/
theorem limitedFetch8 {α : Type} (a : Nat) (stop : Fetch α) (k : Byte → Fetch α) :
    (if 0x10000 ≤ a then stop else s.fetch8 .vram a >>= k) =
      if 0x10000 ≤ a then stop else t.fetch8 .vram a >>= k := by
  split_ifs with ha
  · rfl
  · rw [h.fetch8 fun _ => Nat.not_le.mp ha]

/-- A read of one halfword, which begins at an even offset, under the fetch limit. -/
theorem limitedFetch16 {α : Type} {a : Nat} (heven : a % 2 = 0) (stop : Fetch α) (k : Half → Fetch α) :
    (if 0x10000 ≤ a then stop else s.fetch16 .vram a >>= k) =
      if 0x10000 ≤ a then stop else t.fetch16 .vram a >>= k := by
  split_ifs with ha
  · rfl
  · rw [h.fetch16 fun _ => by omega]

variable (hbg : s.bgs.bg = t.bgs.bg)
include hbg

theorem tilePixel : s.tilePixel = t.tilePixel := by
  funext n e px py
  simp only [State.tilePixel, hbg, h.limitedFetch8, h.paletteColour, bgPx_congr hbg]

theorem textPixel (hmos : s.mos = t.mos) : s.textPixel = t.textPixel := by
  funext n y x
  have heven : ∀ cnt mx my, textEntryAddr cnt mx my % 2 = 0 := by
    intro cnt mx my
    rw [textEntryAddr, bgScreenBase]
    omega
  simp only [State.textPixel, hbg, hmos, h.limitedFetch16 (heven _ _ _), h.tilePixel hbg]

theorem affineTile : s.affineTile = t.affineTile := by
  funext n tx ty
  simp only [State.affineTile, hbg, h.limitedFetch8, h.paletteColour, bgPx_congr hbg]

end

end State.SameBelowLimit

/-! ## Text layers -/

theorem textWidth_eq {size : Nat} (h : size < 4) : textWidth size = if size % 2 = 1 then 512 else 256 := by
  interval_cases size <;> rfl

theorem textHeight_eq {size : Nat} (h : size < 4) : textHeight size = if 2 ≤ size then 512 else 256 := by
  interval_cases size <;> rfl

theorem screenBlock_eq {size : Nat} (h : size < 4) (mx my : Nat) :
    screenBlock size mx my = [0, mx / 256, my / 256, 2 * (my / 256) + mx / 256].getD size 0 := by
  interval_cases size <;> rfl

theorem nibble_eq (b : Byte) (x : Nat) : nibble b x = if x % 2 = 0 then b.toNat % 16 else b.toNat / 16 := by
  rw [nibble, field_eq, field_eq]
  have := b.isLt
  split_ifs <;> omega

/-- R311: a text pixel lies in the tile of its map entry. -/
theorem textPixel_eq (s : State) (n : Fin 4) (y x : Nat) :
    let r := s.bgs.bg n
    let size := r.cnt.toNat / 2 ^ 14
    let mx := (x + r.hofs.toNat % 512) % (if size % 2 = 1 then 512 else 256)
    let my := ((if r.cnt.getLsbD 6 then s.mos.line.toNat else y) + r.vofs.toNat % 512) % (if 2 ≤ size then 512 else 256)
    let block := [0, mx / 256, my / 256, 2 * (my / 256) + mx / 256].getD size 0
    let entry := r.cnt.toNat / 256 % 32 * 0x800 + block * 0x800 + my % 256 / 8 * 64 + mx % 256 / 8 * 2
    s.textPixel n y x = if 0x10000 ≤ entry then .ok none
      else s.fetch16 .vram entry >>= fun e => s.tilePixel n e (mx % 8) (my % 8) := by
  have hsize := bgSize_lt (s.bgs.bg n).cnt
  simp only [State.textPixel, textEntryAddr, textWidth_eq hsize, textHeight_eq hsize, screenBlock_eq hsize]
  simp only [bgScreenBase_eq, bgSize_eq, field_eq, Nat.reducePow, Nat.div_one]
  rfl

/-- R312, R315: where the texel at the flipped tile position `(fx, fy)` lies, and what it shows. -/
theorem tilePixel_spec (s : State) (n : Fin 4) (e : Half) {px py fx fy : Nat}
    (hfx : (if flag e 10 then 7 - px else px) = fx) (hfy : (if flag e 11 then 7 - py else py) = fy) :
    let cnt := (s.bgs.bg n).cnt
    let tile := e.toNat % 1024
    let a := cnt.toNat / 4 % 4 * 0x4000 +
      if cnt.getLsbD 7 then tile * 64 + fy * 8 + fx else tile * 32 + fy * 4 + fx / 2
    (0x10000 ≤ a → s.tilePixel n e px py = .ok none) ∧
    (a < 0x10000 → ∀ b, s.byte? .vram a = some b →
      let i := if cnt.getLsbD 7 then b.toNat else if fx % 2 = 0 then b.toNat % 16 else b.toNat / 16
      s.Indexed n i (2 * if cnt.getLsbD 7 then i else 16 * (e.toNat / 4096) + i) (s.tilePixel n e px py)) := by
  have hpal : field e 12 4 = e.toNat / 4096 := field_top e rfl
  have htile : field e 0 10 = e.toNat % 1024 := by simp [field_eq]
  have hdepth : bgColor8 (s.bgs.bg n).cnt = (s.bgs.bg n).cnt.getLsbD 7 := rfl
  simp only [State.tilePixel, hfx, hfy, hpal, htile, hdepth, bgCharBase_eq, nibble_eq, Nat.add_assoc]
  cases (s.bgs.bg n).cnt.getLsbD 7
  all_goals
    simp only [if_true, if_false, Bool.false_eq_true]
    refine ⟨fun hlim => if_pos hlim, fun hlim b hb => ?_⟩
    rw [if_neg (Nat.not_le.mpr hlim), fetch8_bind hb]
    exact indexed_palettePixel s n _ Iff.rfl

/-! ## Affine layers -/

theorem affineSize_eq (cnt : Half) : affineSize cnt = 128 * 2 ^ (cnt.toNat / 2 ^ 14) := by
  rw [affineSize, Nat.shiftLeft_eq, bgSize_eq]

theorem affineOf_eq {n : AffineBg} {b : Fin 4} (hb : b.val = if n = .bg2 then 2 else 3) : affineOf b = n := by
  cases n
  · obtain rfl : b = 2 := Fin.ext hb
    rfl
  · obtain rfl : b = 3 := Fin.ext hb
    rfl

theorem affineTexel_eq {s : State} {n : AffineBg} {b : Fin 4} (hb : affineOf b = n) (x : Nat) :
    s.affineTexel b x =
      ((s.affinePoint n (s.bgs.bg b).cnt x).1 / 256, (s.affinePoint n (s.bgs.bg b).cnt x).2 / 256) := by
  subst hb
  rfl

theorem inside_iff (t : Int) (size : Nat) : inside t size = true ↔ 0 ≤ t ∧ t < size := decide_eq_true_iff

/-- R321, R315: what the texel `(tx, ty)` of an affine layer shows. -/
theorem affineTile_spec (s : State) (n : Fin 4) (tx ty : Nat) :
    let cnt := (s.bgs.bg n).cnt
    let size := 128 * 2 ^ (cnt.toNat / 2 ^ 14)
    let map := cnt.toNat / 256 % 32 * 0x800 + ty / 8 * (size / 8) + tx / 8
    (0x10000 ≤ map → s.affineTile n tx ty = .ok none) ∧
    (map < 0x10000 → ∀ tile, s.byte? .vram map = some tile →
      let texel := cnt.toNat / 4 % 4 * 0x4000 + tile.toNat * 64 + ty % 8 * 8 + tx % 8
      (0x10000 ≤ texel → s.affineTile n tx ty = .ok none) ∧
      (texel < 0x10000 → ∀ index, s.byte? .vram texel = some index →
        s.Indexed n index.toNat (2 * index.toNat) (s.affineTile n tx ty))) := by
  simp only [State.affineTile, bgScreenBase_eq, bgCharBase_eq, affineSize_eq]
  refine ⟨fun hmap => if_pos hmap, fun hmap tile htile => ?_⟩
  rw [if_neg (Nat.not_le.mpr hmap), fetch8_bind htile]
  refine ⟨fun htexel => if_pos htexel, fun htexel index hindex => ?_⟩
  rw [if_neg (Nat.not_le.mpr htexel), fetch8_bind hindex]
  exact indexed_palettePixel s n _ (byte_eq_zero_iff index)

/-! ### Wrapped and clipped -/

/-- Outside its rectangle a clipped layer is `NONE`. -/
theorem bitmapPixel_of_outside {s : State} {n : Fin 4} {x : Nat} {tx ty : Int} (ht : s.affineTexel n x = (tx, ty))
    {w h : Nat} (hout : tx < 0 ∨ w ≤ tx ∨ ty < 0 ∨ h ≤ ty) (texel : Nat → Nat → Fetch (Option Px)) :
    s.bitmapPixel n w h texel x = .ok none := by
  have hin : ¬ ((inside tx w && inside ty h) = true) := by
    rw [Bool.and_eq_true, inside_iff, inside_iff]
    omega
  rw [State.bitmapPixel, ht]
  exact if_neg hin

theorem bitmapPixel_of_inside {s : State} {n : Fin 4} {x tx ty : Nat}
    (ht : s.affineTexel n x = ((tx : Int), (ty : Int))) {w h : Nat} (hx : tx < w) (hy : ty < h) (texel : Nat → Nat → Fetch (Option Px)) :
    s.bitmapPixel n w h texel x = texel tx ty := by
  have hin : (inside tx w && inside ty h) = true := by
    rw [Bool.and_eq_true, inside_iff, inside_iff]
    omega
  rw [State.bitmapPixel, ht]
  exact if_pos hin

/-- Without `WRAP` an affine layer is clipped as a bitmap of its size is. -/
theorem affinePixel_of_clip {s : State} {b : Fin 4} (hw : (s.bgs.bg b).cnt.getLsbD 13 = false) (x : Nat) :
    s.affinePixel b x =
      s.bitmapPixel b (affineSize (s.bgs.bg b).cnt) (affineSize (s.bgs.bg b).cnt) (s.affineTile b) x := by
  have hw' : ¬ bgWrap (s.bgs.bg b).cnt = true := by rw [bgWrap, flag, hw]; exact Bool.false_ne_true
  exact if_neg hw'

theorem affinePixel_of_wrap {s : State} {b : Fin 4} (hw : (s.bgs.bg b).cnt.getLsbD 13 = true) (x : Nat) :
    s.affinePixel b x = s.affineTile b ((s.affineTexel b x).1 % affineSize (s.bgs.bg b).cnt).toNat
      ((s.affineTexel b x).2 % affineSize (s.bgs.bg b).cnt).toNat := if_pos hw

theorem affineSize_dvd (cnt : Half) : 256 * affineSize cnt ∣ 2 ^ 28 := by
  have h : 256 * affineSize cnt = 2 ^ (15 + bgSize cnt) := by
    rw [affineSize, Nat.shiftLeft_eq, pow_add]; omega
  rw [h]
  exact pow_dvd_pow 2 (by have := bgSize_lt cnt; omega)

theorem toInt_add_ofNat_modEq {w : Nat} (r : BitVec w) (k : Nat) :
    (r + BitVec.ofNat w k).toInt ≡ r.toInt + k [ZMOD (2 ^ w : Nat)] := by
  rw [BitVec.toInt_add, BitVec.toInt_ofNat', Int.add_bmod_bmod]
  exact Int.bmod_emod

/-- A reference point moved by whole sizes samples the same column or row of the square (R320, R321). -/
theorem movedRef_texel {size : Nat} (hsize : 256 * size ∣ 2 ^ 28) (r : BitVec 28) (i : Nat) (d : Int) :
    ((r + BitVec.ofNat 28 (256 * size * i)).toInt + d) / 256 % size = (r.toInt + d) / 256 % size := by
  have hmod := (toInt_add_ofNat_modEq r (256 * size * i)).of_dvd (Int.natCast_dvd_natCast.mpr hsize)
  obtain ⟨k, hk⟩ := hmod.dvd
  push_cast at hk
  rw [show (r + BitVec.ofNat 28 (256 * size * i)).toInt + d = r.toInt + d + 256 * (size * (i - k)) by linarith,
    Int.add_mul_ediv_left _ _ (by decide), Int.add_mul_emod_self_left]

/-- An affine unit whose reference point is moved by `i` and `j` whole sizes. -/
def Affine.moved (a : Affine) (size i j : Nat) : Affine :=
  { a with
    refX := a.refX + BitVec.ofNat 28 (256 * size * i), refY := a.refY + BitVec.ofNat 28 (256 * size * j)
    mosRefX := a.mosRefX + BitVec.ofNat 28 (256 * size * i)
    mosRefY := a.mosRefY + BitVec.ofNat 28 (256 * size * j) }

theorem affinePoint_moved {s t : State} {n : AffineBg} {size i j : Nat} (hsize : 256 * size ∣ 2 ^ 28)
    (ha : t.bgs.aff n = (s.bgs.aff n).moved size i j) (cnt : Half) (x : Nat) :
    (t.affinePoint n cnt x).1 / 256 % size = (s.affinePoint n cnt x).1 / 256 % size ∧
      (t.affinePoint n cnt x).2 / 256 % size = (s.affinePoint n cnt x).2 / 256 % size := by
  simp only [State.affinePoint, ha]
  cases cnt.getLsbD 6
  all_goals exact ⟨movedRef_texel hsize _ i _, movedRef_texel hsize _ j _⟩

/-- R321: with `WRAP` the layer repeats with the period of its size. -/
theorem affinePixel_moved {s : State} {n : AffineBg} {b : Fin 4} (hb : affineOf b = n)
    (hw : (s.bgs.bg b).cnt.getLsbD 13 = true) (x i j : Nat) :
    ({ s with bgs := s.bgs.setAff n ((s.bgs.aff n).moved (affineSize (s.bgs.bg b).cnt) i j) } : State).affinePixel b x =
      s.affinePixel b x := by
  obtain ⟨haff, hbg⟩ := s.bgs.onlyAff_setAff n ((s.bgs.aff n).moved (affineSize (s.bgs.bg b).cnt) i j)
  generalize ht : ({ s with bgs := s.bgs.setAff n _ } : State) = t
  have htbg : t.bgs.bg = s.bgs.bg := by rw [← ht]; exact funext hbg
  have hta : t.bgs.aff n = (s.bgs.aff n).moved (affineSize (s.bgs.bg b).cnt) i j := by
    rw [← ht]; exact (haff n).trans (if_pos rfl)
  have hmem : t.SameBelowLimit s := fun _ _ _ => by rw [← ht]; rfl
  obtain ⟨hx, hy⟩ := affinePoint_moved (affineSize_dvd (s.bgs.bg b).cnt) hta (s.bgs.bg b).cnt x
  rw [affinePixel_of_wrap hw, affinePixel_of_wrap (by rwa [htbg]), hmem.affineTile htbg, htbg, affineTexel_eq hb,
    affineTexel_eq hb, htbg, hx, hy]

/-- The texel that an affine layer samples at column `x`, wrapped or as it is, when it lies inside the square. -/
theorem affinePixel_of_texel {s : State} {n : AffineBg} {b : Fin 4} (hb : affineOf b = n) {x tx ty : Nat} :
    let cnt := (s.bgs.bg b).cnt
    let f := s.affinePoint n cnt x
    tx < affineSize cnt → ty < affineSize cnt →
    (tx : Int) = (if cnt.getLsbD 13 then f.1 / 256 % affineSize cnt else f.1 / 256) →
    (ty : Int) = (if cnt.getLsbD 13 then f.2 / 256 % affineSize cnt else f.2 / 256) →
    s.affinePixel b x = s.affineTile b tx ty := by
  intro cnt f hx hy htx hty
  cases hw : cnt.getLsbD 13 with
  | true =>
    rw [if_pos hw] at htx hty
    rw [affinePixel_of_wrap hw, affineTexel_eq hb, ← htx, ← hty, Int.toNat_natCast, Int.toNat_natCast]
  | false =>
    rw [hw, if_neg Bool.false_ne_true] at htx hty
    rw [affinePixel_of_clip hw, bitmapPixel_of_inside _ hx hy]
    rw [affineTexel_eq hb, ← htx, ← hty]

/-- Settles O51: a moved reference point samples the same texel (`affinePixel_moved`), a texel outside the square is
clipped (`bitmapPixel_of_outside`), and one inside it shows what `affineTile_spec` says. -/
theorem affineWrapsOrClips : Obligations.AffineWrapsOrClips := by
  intro s t n b x i j hb cnt size wrap a f
  have hn : affineOf b = n := affineOf_eq hb
  have hsize : affineSize cnt = size := affineSize_eq cnt
  refine ⟨fun hw ht => ?_, fun hw hout => ?_, fun tx ty hx hy htx hty => ?_⟩
  · rw [ht, ← hsize]
    exact affinePixel_moved hn hw x i j
  · rw [affinePixel_of_clip hw]
    have ht : s.affineTexel b x = (f.1 / 256, f.2 / 256) := affineTexel_eq hn x
    refine bitmapPixel_of_outside ht ?_ _
    rw [hsize]
    omega
  · rw [affinePixel_of_texel hn (hsize ▸ hx) (hsize ▸ hy) (hsize ▸ htx) (hsize ▸ hty)]
    exact affineTile_spec s b tx ty

/-! ## Bitmap layers -/

theorem frameBase_eq (s : State) : s.frameBase = if s.display.dispcnt.getLsbD 4 then 0xA000 else 0 := by
  have hfield : dispFrame s.display.dispcnt = (s.display.dispcnt.getLsbD 4).toNat := by
    rw [dispFrame, field_eq]
    exact (Nat.toNat_testBit _ _).symm
  rw [State.frameBase, hfield]
  cases s.display.dispcnt.getLsbD 4 <;> rfl

/-- R332: what the texel `(tx, ty)` of mode 4 shows. -/
theorem bitmap4Texel_indexed {s : State} {tx ty : Nat} {index : Byte}
    (h : s.byte? .vram (s.frameBase + 240 * ty + tx) = some index) (n : Fin 4) :
    s.Indexed n index.toNat (2 * index.toNat) (s.bitmap4Texel n tx ty) := by
  rw [State.bitmap4Texel, fetch8_bind h]
  exact indexed_palettePixel s n _ (byte_eq_zero_iff index)

/-- Settles O59: the text layer by `textPixel_eq` and `tilePixel_spec`, the bitmaps by where their texel lies
(`bitmapPixel_of_outside`, `bitmapPixel_of_inside`). -/
theorem layerPixels : Obligations.LayerPixels := by
  refine ⟨fun s n y x => ?_, fun s n e px py _ _ => tilePixel_spec s n e rfl rfl, fun s n y x => rfl, fun s y x => ?_⟩
  · intro r size mx my block entry
    have h : s.layerPixel .text n y x = _ := textPixel_eq s n y x
    refine ⟨fun hlim => h.trans (if_pos hlim), fun hlim e he => ?_⟩
    rw [h]
    exact (if_neg (Nat.not_le.mpr hlim)).trans (fetch16_bind he _)
  · intro f frame clipped direct
    have ht : s.affineTexel 2 x = (f.1 / 256, f.2 / 256) := rfl
    have hframe : s.frameBase = frame := frameBase_eq s
    refine ⟨fun hout => ⟨bitmapPixel_of_outside ht hout _, bitmapPixel_of_outside ht hout _⟩,
      (bitmapPixel_of_outside ht · _), fun tx ty hx hy => ?_⟩
    rw [← hx, ← hy] at ht
    refine ⟨fun htx hty h hh => ?_, fun htx hty index hi => ?_, fun htx hty h hh => ?_⟩
    · exact (bitmapPixel_of_inside ht htx hty _).trans (direct16_of_halfAt hh 2)
    · rw [State.layerPixel, bitmapPixel_of_inside ht htx hty]
      exact bitmap4Texel_indexed (hframe ▸ hi) 2
    · exact (bitmapPixel_of_inside ht htx hty _).trans (direct16_of_halfAt (hframe ▸ hh) 2)

/-! ## The fetch limit of the tile modes -/

theorem layerKind_of_tileMode {mode : Nat} (hmode : mode ≤ 2) {n : Fin 4} {kind : LayerKind}
    (h : layerKind mode n = some kind) : kind = .text ∨ kind = .affine := by
  have hall : ∀ mode < 3, ∀ n kind, kind ∈ layerKind mode n → kind = .text ∨ kind = .affine := by decide
  exact hall mode (Nat.lt_succ_of_le hmode) n kind h

/-- Settles O52: a tile mode has only text and affine layers, and neither reads beyond the fetch limit. -/
theorem backgroundFetchLimit : Obligations.BackgroundFetchLimit := by
  intro s v n y hmode hv
  have h : State.SameBelowLimit { s with video := v } s := hv
  cases hkind : layerKind (dispMode s.display.dispcnt) n with
  | none => exact (bgRow_of_absent (s := { s with video := v }) hkind y).trans (bgRow_of_absent hkind y).symm
  | some kind =>
    have hpixel : ({ s with video := v } : State).layerPixel kind n y = s.layerPixel kind n y := by
      rw [dispMode_eq] at hkind
      rcases layerKind_of_tileMode hmode hkind with rfl | rfl
      · exact congrFun₂ (h.textPixel rfl rfl) n y
      · funext x
        simp only [State.layerPixel, State.affinePixel, h.affineTile rfl]
        rfl
    rw [bgRow_of_kind hkind, bgRow_of_kind (s := { s with video := v }) hkind, hpixel]

end Sys2Proof.Machine

/-! The render of a scanline (R300): the object scan with its fault (R363), the row that the layers, the objects and
the effects compose, and the faults of R301 and R472. -/

namespace Sys2Proof.Machine

open Sys2Proof.Config

/-! ## The object scan -/

theorem objDisabled_iff (o : ObjAttr) : objDisabled o.a0 = true ↔ o.Disabled := by
  simp [objDisabled, ObjAttr.Disabled, ObjAttr.aff, ObjAttr.dbl]

theorem objAttr_congr {s t : State} (h : s.video = t.video) : s.objAttr = t.objAttr := by
  funext i
  simp only [State.objAttr, State.fetch16, State.fetch8, State.byte?, h]

/-- The scan of the first `k` entries, when none of them is prohibited. -/
theorem objectScan_known {s : State} (h : s.VideoKnown) {y k : Nat} (hk : k ≤ 128)
    (hp : ∀ i o, i < k → s.objAttr i = .ok o → ¬ o.Prohibited y) :
    ∃ line, (List.range k).foldlM (s.scanObject y) emptyObjLine = .ok line ∧ line.length = 240 := by
  induction k with
  | zero => exact ⟨emptyObjLine, rfl, List.length_replicate⟩
  | succ k ih =>
    obtain ⟨line, hline, hlen⟩ := ih (Nat.le_of_succ_le hk) fun i o hi => hp i o (Nat.lt_succ_of_lt hi)
    obtain ⟨a0, a1, a2, _, ho⟩ := objAttr_known h hk
    obtain ⟨line', hline', hlen', _⟩ := scanObject_known h hk ho (hp k _ (Nat.lt_succ_self k) ho) line hlen
    rw [List.range_succ, Fetch.foldlM_snoc _ _ _ _ _ hline]
    exact ⟨line', hline', hlen'⟩

/-- R352, R363: either prohibited encoding faults. -/
theorem scanEnabled_prohibited (s : State) {y : Nat} (line : ObjLine) {o : ObjAttr} (hp : o.Prohibited y) :
    s.scanEnabled y line o = .error (.prohibitedObject o.index o.a0) := by
  obtain ⟨_, henc⟩ := hp
  rw [State.scanEnabled]
  by_cases hshape : o.shape = 3
  · exact if_pos hshape
  · obtain ⟨hrow, hmode⟩ := henc.resolve_left hshape
    have hy : o.y < 256 := field_lt _ _ _
    have hbox : ¬ o.box.2 ≤ (y + 256 - o.y) % 256 := by omega
    simp only [if_neg hshape, if_neg hbox, if_pos hmode]

theorem scanObject_prohibited {s : State} (h : s.VideoKnown) {i y : Nat} (hi : i < 128) (line : ObjLine) {o : ObjAttr}
    (ho : s.objAttr i = .ok o) (hp : o.Prohibited y) :
    s.scanObject y line i = .error (.prohibitedObject i o.a0) := by
  obtain ⟨a0, a1, a2, ha0, hattr⟩ := objAttr_known h hi
  obtain rfl : o = ⟨i, a0, a1, a2⟩ := Except.ok.inj (ho.symm.trans hattr)
  have hen : ¬ objDisabled a0 = true := fun hd => hp.1 ((objDisabled_iff _).mp hd)
  simp only [State.scanObject, ha0, hattr, bind, Except.bind, if_neg hen]
  exact scanEnabled_prohibited s line hp

/-- A fault ends a fold where it stands. -/
theorem Fetch.foldlM_error {α β : Type} {f : β → α → Fetch β} {l r : List α} {a : α} {b c : β} {k : FaultKind}
    (hl : l.foldlM f b = .ok c) (ha : f c a = .error k) : (l ++ a :: r).foldlM f b = .error k := by
  rw [List.foldlM_append, hl]
  show (a :: r).foldlM f c = _
  rw [List.foldlM_cons, ha]
  rfl

theorem objectLine_known {s : State} (h : s.VideoKnown) {y : Nat}
    (hp : s.display.dispcnt.getLsbD 12 = true → ∀ i o, i < 128 → s.objAttr i = .ok o → ¬ o.Prohibited y) :
    ∃ line, s.objectLine y = .ok line := by
  rw [State.objectLine]
  split_ifs with hen
  · obtain ⟨line, hline, _⟩ := objectScan_known h le_rfl (hp hen)
    exact ⟨line, hline⟩
  · exact ⟨_, rfl⟩

/-- R363: the scan faults at its first prohibited entry. -/
theorem objectLine_prohibited {s : State} (hen : s.display.dispcnt.getLsbD 12 = true) (h : s.VideoKnown) {i y : Nat}
    (hi : i < 128) {o : ObjAttr} (ho : s.objAttr i = .ok o) (hp : o.Prohibited y)
    (hfirst : ∀ j q, j < i → s.objAttr j = .ok q → ¬ q.Prohibited y) :
    s.objectLine y = .error (.prohibitedObject i o.a0) := by
  obtain ⟨line, hline, _⟩ := objectScan_known h hi.le hfirst
  have hsplit : List.range numObj = List.range i ++ i :: (List.range (127 - i)).map (i + 1 + ·) := by
    rw [← List.singleton_append, ← List.append_assoc, ← List.range_succ, ← List.range_add]
    congr 1
    show 128 = _
    omega
  refine (if_pos hen).trans ?_
  rw [hsplit]
  exact Fetch.foldlM_error hline (scanObject_prohibited h hi line ho hp)

/-! ## The colours of a scanline -/

/-- R301. -/
theorem lineColours_unimplemented {s : State} (h : 6 ≤ dispMode s.display.dispcnt) (y : Nat) :
    s.lineColours y = .error (.unimplementedPath s.display.dispcnt) := if_pos h

theorem lineColours_of_mode {s : State} (h : dispMode s.display.dispcnt ≤ 5) (y : Nat) :
    s.lineColours y = (do
      let objs ← s.objectLine y
      let backdrop ← s.paletteColour 0
      let cols ← s.layerOrder.foldlM (s.pushLayer y) (s.initCols y objs backdrop)
      pure (cols.map fun c => s.colourEffect c.mergeObject)) := if_neg (by omega)

theorem lineColours_of_objectLine_error {s : State} (hmode : dispMode s.display.dispcnt ≤ 5) {y : Nat} {k : FaultKind}
    (h : s.objectLine y = .error k) : s.lineColours y = .error k := by
  rw [lineColours_of_mode hmode, h]
  rfl

/-- R472: with objects off the backdrop is the first byte that a scanline reads. -/
theorem lineColours_of_unknown_backdrop {s : State} (hmode : dispMode s.display.dispcnt ≤ 5)
    (hobj : s.display.dispcnt.getLsbD 12 = false) (hb : s.byte? .pram 0 = none) (y : Nat) :
    s.lineColours y = .error (.uninitRead .pram 0) := by
  have hen : ¬ dispObjEn s.display.dispcnt = true := by rw [dispObjEn, flag, hobj]; exact Bool.false_ne_true
  have hline : s.objectLine y = .ok emptyObjLine := if_neg hen
  have hbackdrop : s.paletteColour 0 = .error (.uninitRead .pram 0) := by
    simp only [State.paletteColour, State.fetch16, State.fetch8, hb, bind, Except.bind]
  rw [lineColours_of_mode hmode, hline, hbackdrop]
  rfl

theorem lineRow_of_blank {s : State} (h : s.display.dispcnt.getLsbD 7 = true) (y : Nat) :
    s.lineRow y = .ok (List.replicate 240 ⟨255, 255, 255, 255⟩) := if_pos h

theorem lineRow_of_not_blank {s : State} (h : s.display.dispcnt.getLsbD 7 = false) (y : Nat) :
    s.lineRow y = s.lineColours y >>= fun cs => pure (cs.map s.toRgba) := by
  have hb : ¬ dispForcedBlank s.display.dispcnt = true := by rw [dispForcedBlank, flag, h]; exact Bool.false_ne_true
  exact if_neg hb

theorem lineRow_of_lineColours_error {s : State} (h : s.display.dispcnt.getLsbD 7 = false) {y : Nat} {k : FaultKind}
    (hk : s.lineColours y = .error k) : s.lineRow y = .error k := by
  rw [lineRow_of_not_blank h, hk]
  rfl

/-! ## Over memories of known contents -/

theorem initCols_map (s : State) (y : Nat) (obj : Nat → ObjCol) (backdrop : Colour) :
    s.initCols y ((List.range 240).map obj) backdrop =
      (List.range 240).map fun x => Col.init (s.windowMask x y (obj x).win) (obj x).px backdrop := by
  have h := zipWith_map_map (fun x o => Col.init (s.windowMask x y o.win) o.px backdrop) (List.range 240) id obj
  rwa [List.map_id] at h

/-- The output pixel of column `x` (R300): the layers' pixels pushed back to front on the backdrop, the object's merged
in, after effects and converted. -/
def State.composedPixel (p : State) (y : Nat) (obj : Nat → ObjCol) (cell : Fin 4 → Nat → Option Px) (backdrop : Half)
    (x : Nat) : Pixel :=
  let init := Col.init (p.windowMask x y (obj x).win) (obj x).px (backdrop.extractLsb' 0 15)
  p.toRgba (p.colourEffect (p.layerOrder.foldl (fun c n => c.push n (cell n x)) init).mergeObject)

theorem lineRow_composed {p : State} (hblank : p.display.dispcnt.getLsbD 7 = false)
    (hmode : dispMode p.display.dispcnt ≤ 5) {y : Nat} {obj : Nat → ObjCol} {cell : Fin 4 → Nat → Option Px}
    {backdrop : Half} (hobj : p.objectLine y = .ok ((List.range 240).map obj))
    (hcell : ∀ n ∈ p.layerOrder, p.bgRow n y = .ok ((List.range 240).map (cell n))) (hb : p.HalfAt .pram 0 backdrop) :
    p.lineRow y = .ok ((List.range 240).map (p.composedPixel y obj cell backdrop)) := by
  have hcolour : p.paletteColour 0 = .ok (backdrop.extractLsb' 0 15) := by
    rw [State.paletteColour, fetch16_bind hb]; rfl
  rw [lineRow_of_not_blank hblank, lineColours_of_mode hmode, hobj, hcolour]
  dsimp only [bind, Except.bind, pure, Except.pure]
  rw [initCols_map, pushLayers_known y _ cell hcell]
  simp only [List.map_map]
  rfl

/-- R300: over memories of known contents and without a prohibited object a scanline has its row. -/
theorem lineRow_renders {p : State} (h : p.VideoKnown) (hmode : dispMode p.display.dispcnt ≤ 5) {y : Nat}
    (hp : p.display.dispcnt.getLsbD 12 = true → ∀ i o, i < 128 → p.objAttr i = .ok o → ¬ o.Prohibited y) :
    ∃ row, p.lineRow y = .ok row ∧ p.Renders y row := by
  cases hblank : p.display.dispcnt.getLsbD 7 with
  | true => exact ⟨_, lineRow_of_blank hblank y, by rw [State.Renders, if_pos hblank]⟩
  | false =>
    obtain ⟨line, hline⟩ := objectLine_known h hp
    obtain ⟨backdrop, hb⟩ := fetch16_known h (m := .pram) (a := 0) (by decide)
    choose cell hcell using fun n => bgRow_known h n y
    rw [eq_range_map line (objectLine_length hline) ⟨none, false⟩] at hline
    have hback := halfAt_of_fetch16 hb
    refine ⟨_, lineRow_composed hblank hmode hline (fun n _ => hcell n) hback, ?_⟩
    rw [State.Renders, hblank, if_neg Bool.false_ne_true]
    exact ⟨_, cell, backdrop, hline, fun n _ => hcell n, hback, rfl⟩

/-! ## `RENDER.LINE` -/

theorem mosaicLineStart_objAttr (s : State) (y : Nat) : (s.mosaicLineStart y).objAttr = s.objAttr :=
  objAttr_congr (State.mosaicLineStart_video s y)

theorem mosaicLineStart_byte? (s : State) (y : Nat) : (s.mosaicLineStart y).byte? = s.byte? := by
  funext m a
  rw [State.byte?, State.mosaicLineStart_video]
  rfl

theorem mosaicLineStart_videoKnown {s : State} (h : s.VideoKnown) (y : Nat) : (s.mosaicLineStart y).VideoKnown := by
  rwa [State.VideoKnown, mosaicLineStart_byte?]

/-- Settles O46: after its start the scanline has its row (`lineRow_renders`), and the render leaves it. -/
theorem renderCompletes : Obligations.RenderCompletes := by
  intro s y hs _ hmode hknown hobj
  refine ⟨fun hi => exec_renderLine_internal hs hi y, ?_⟩
  obtain ⟨row, hrow, hrenders⟩ := lineRow_renders (p := s.mosaicLineStart y.toNat) (y := y.toNat)
    (mosaicLineStart_videoKnown hknown _) (by rwa [State.mosaicLineStart_display, dispMode_eq])
    (by rwa [State.mosaicLineStart_display, mosaicLineStart_objAttr])
  exact ⟨_, row, mosaicLineStart_started s y, hrenders, lineRow_length hrow, renderLine_of_lineRow_ok hrow⟩

/-- A fault of the colours is the fault of the render. -/
theorem renderLine_faulted {s : State} {y : Byte} {k : FaultKind} (hblank : s.display.dispcnt.getLsbD 7 = false)
    (h : (s.mosaicLineStart y.toNat).lineColours y.toNat = .error k) :
    ∃ p, LineStarted s p y ∧ s.renderLine y.toNat = p.faulted k (.renderLine y.toNat) := by
  refine ⟨_, mosaicLineStart_started s y, renderLine_of_lineRow_error (lineRow_of_lineColours_error ?_ h)⟩
  rwa [State.mosaicLineStart_display]

/-- Settles O47: the start of the line leaves the registers and memories that the three faults depend on. -/
theorem renderFaults : Obligations.RenderFaults := by
  intro s y hs _ hblank
  have hdisp := State.mosaicLineStart_display s y.toNat
  refine ⟨fun hi => exec_renderLine_internal hs hi y, fun hmode => renderLine_faulted hblank ?_,
    fun hmode hen hknown i o hi ho hp hfirst => renderLine_faulted hblank ?_,
    fun hmode hobj hb => renderLine_faulted hblank ?_⟩
  all_goals rw [← dispMode_eq, ← hdisp] at hmode
  · rw [← hdisp]
    exact lineColours_unimplemented hmode _
  · refine lineColours_of_objectLine_error hmode ?_
    rw [← hdisp] at hen
    rw [← mosaicLineStart_objAttr s y.toNat] at ho hfirst
    exact objectLine_prohibited hen (mosaicLineStart_videoKnown hknown _) hi ho hp hfirst
  · rw [← hdisp] at hobj
    exact lineColours_of_unknown_backdrop hmode hobj (by rwa [mosaicLineStart_byte?]) _

end Sys2Proof.Machine

/-! Objects (R350 to R361): the attributes and the texels of an object in the arithmetic of R10, what the placed pixels
leave at a column, and the object line. -/

namespace Sys2Proof.Machine

open Sys2Proof.Config

/-! ## Attributes and texels -/

theorem objAttr_of_halfAt {s : State} {i : Nat} {a0 a1 a2 : Half} (h0 : s.HalfAt .oam (8 * i) a0)
    (h1 : s.HalfAt .oam (8 * i + 2) a1) (h2 : s.HalfAt .oam (8 * i + 4) a2) : s.objAttr i = .ok ⟨i, a0, a1, a2⟩ := by
  rw [State.objAttr, fetch16_bind h0, fetch16_bind h1, fetch16_bind h2]
  rfl

/-- `sext_9(X)` (R351). -/
theorem ObjAttr.x_eq (o : ObjAttr) :
    o.x = if o.a1.toNat % 512 < 256 then (o.a1.toNat % 512 : Int) else (o.a1.toNat % 512 : Int) - 512 := by
  have hfield : (o.a1.extractLsb' 0 9).toNat = o.a1.toNat % 512 := toNat_extractLsb' o.a1 0 9 |>.trans (by simp)
  rw [ObjAttr.x, BitVec.toInt_eq_toNat_cond, hfield]
  split_ifs <;> omega

theorem ObjAttr.box_eq (o : ObjAttr) :
    o.box = let wh := objSize o.shape o.size
      if o.aff = true ∧ o.dbl = true then (2 * wh.1, 2 * wh.2) else wh := by
  simp only [ObjAttr.box, ObjAttr.doubled, Bool.and_eq_true]

theorem bitmapMode_iff (mode : Nat) : bitmapMode mode = true ↔ 3 ≤ mode ∧ mode ≤ 5 := by
  rw [bitmapMode, decide_eq_true_iff]
  omega

theorem objTexelOffset_eq (s : State) (o : ObjAttr) (tx ty : Nat) :
    s.objTexelOffset o tx ty = (s.objTileUnit o tx ty * 32 +
      if o.c8 then ty % 8 * 8 + tx % 8 else ty % 8 * 4 + tx % 8 / 2) % 0x8000 := by
  rw [State.objTexelOffset]
  split_ifs <;> rw [Nat.add_assoc]

theorem paletteColour_of_halfAt {s : State} {a : Nat} {h : Half} (hh : s.HalfAt .pram a h) :
    s.paletteColour a = .ok (h.extractLsb' 0 15) := by
  rw [State.paletteColour, fetch16_bind hh]
  rfl

/-- R354: a tile of a bitmap mode in the first 16 KiB of object memory shows nothing. -/
theorem objTexel_of_overlapped {s : State} {o : ObjAttr} {tx ty : Nat}
    (h : 3 ≤ dispMode s.display.dispcnt ∧ dispMode s.display.dispcnt ≤ 5 ∧
      s.objTileUnit o tx ty * 32 % 0x8000 < 0x4000) : s.objTexel o tx ty = .ok none := by
  rw [← and_assoc, ← bitmapMode_iff] at h
  exact if_pos h

/-- R354: elsewhere a texel shows the palette colour of its index. -/
theorem objTexel_of_byte {s : State} {o : ObjAttr} {tx ty : Nat} {b : Byte}
    (h : ¬ (3 ≤ dispMode s.display.dispcnt ∧ dispMode s.display.dispcnt ≤ 5 ∧
      s.objTileUnit o tx ty * 32 % 0x8000 < 0x4000))
    (hb : s.byte? .vram (0x10000 + s.objTexelOffset o tx ty) = some b) :
    let i := if o.c8 then b.toNat else nibble b tx
    s.objTexel o tx ty = if i = 0 then pure none
      else s.paletteColour (0x200 + 2 * if o.c8 then i else 16 * o.pal + i) >>= fun c => pure (some c) := by
  rw [← and_assoc, ← bitmapMode_iff] at h
  rw [State.objTexel, if_neg h, fetch8_bind hb]
  cases o.c8 <;> rfl

/-- Settles O60: the attributes are read at their offsets, each field is a division and a remainder, and a texel shows
what `objTexel_of_overlapped` and `objTexel_of_byte` say. -/
theorem objectTexels : Obligations.ObjectTexels := by
  refine ⟨fun s i a0 a1 a2 => objAttr_of_halfAt, fun o => ?_, by decide, fun s o tx ty => ?_⟩
  · exact ⟨field_eq o.a0 0 8 |>.trans (by simp), rfl, rfl, field_eq o.a0 10 2, rfl, rfl, field_top o.a0 rfl, o.x_eq,
      field_eq o.a1 9 5, rfl, rfl, field_top o.a1 rfl, field_eq o.a2 0 10 |>.trans (by simp), field_eq o.a2 10 2,
      field_top o.a2 rfl, o.box_eq⟩
  · intro w mode unit offset overlapped
    have hunit : s.objTileUnit o tx ty = unit := rfl
    have hoffset : s.objTexelOffset o tx ty = offset := objTexelOffset_eq s o tx ty
    have hmode : dispMode s.display.dispcnt = mode := dispMode_eq _
    refine ⟨fun h => objTexel_of_overlapped (by rwa [hmode, hunit]), fun h b hb => ?_⟩
    intro i
    have htexel := objTexel_of_byte (s := s) (o := o) (tx := tx) (ty := ty) (by rwa [hmode, hunit]) (hoffset ▸ hb)
    rw [nibble_eq] at htexel
    refine ⟨fun hi => htexel.trans (if_pos hi), fun hi v hv => ?_⟩
    rw [htexel, if_neg hi, paletteColour_of_halfAt hv]
    rfl

/-! ## The sprite priority resolver (R357, R358) -/

/-- The pixel that an opaque texel of colour `c` of the object gives (R357, R359). -/
def ObjAttr.opaquePx (o : ObjAttr) (c : Colour) : Px := ⟨c, o.prio, .obj, decide (o.mode = 1)⟩

/-- What the opaque object pixels `l`, placed in order, leave at a column (R357). -/
def placeAll (l : List (ObjAttr × Colour)) : ObjCol := l.foldl (fun col p => p.1.placeCol p.2 col) ⟨none, false⟩

@[simp] theorem placeAll_nil : placeAll [] = ⟨none, false⟩ := rfl

@[simp] theorem placeAll_snoc (l : List (ObjAttr × Colour)) (p : ObjAttr × Colour) :
    placeAll (l ++ [p]) = p.1.placeCol p.2 (placeAll l) := List.foldl_append

theorem placeCol_of_window {o : ObjAttr} (h : o.mode = 2) (c : Colour) (col : ObjCol) :
    o.placeCol c col = { col with win := true } := if_pos h

theorem placeCol_of_pixel {o : ObjAttr} (h : o.mode ≠ 2) (c : Colour) (col : ObjCol) :
    o.placeCol c col =
      { col with px := some (col.px.elim (o.opaquePx c) fun old => if o.prio < old.prio then o.opaquePx c else old) } := by
  rw [ObjAttr.placeCol, if_neg h]
  obtain ⟨_ | old, win⟩ := col
  · rfl
  · by_cases hlt : o.prio < old.prio
    · simp [hlt, ObjAttr.opaquePx]
    · simp [hlt]

theorem placeAll_win_iff (l : List (ObjAttr × Colour)) : (placeAll l).win = true ↔ ∃ p ∈ l, p.1.mode = 2 := by
  induction l using List.reverseRecOn with
  | nil => simp
  | append_singleton l p ih =>
    by_cases h : p.1.mode = 2
    · simp [placeCol_of_window h, or_and_right, exists_or, h]
    · simp [placeCol_of_pixel h, ih, or_and_right, exists_or, h]

theorem placeAll_px_eq_none_iff (l : List (ObjAttr × Colour)) : (placeAll l).px = none ↔ ∀ p ∈ l, p.1.mode = 2 := by
  induction l using List.reverseRecOn with
  | nil => simp
  | append_singleton l p ih =>
    by_cases h : p.1.mode = 2
    · simp [placeCol_of_window h, ih, or_imp, forall_and, h]
    · simp [placeCol_of_pixel h, or_imp, forall_and, h]

/-- `p` is the pixel of `l` that shows (R357): of the object-window pixels none, of the others the first of the lowest
priority value. -/
def Frontmost (l : List (ObjAttr × Colour)) (p : ObjAttr × Colour) : Prop :=
  ∃ before after, l = before ++ p :: after ∧ p.1.mode ≠ 2 ∧
    (∀ o ∈ before, o.1.mode ≠ 2 → p.1.prio < o.1.prio) ∧ ∀ o ∈ after, o.1.mode ≠ 2 → p.1.prio ≤ o.1.prio

namespace Frontmost

variable {l : List (ObjAttr × Colour)} {p o : ObjAttr × Colour}

theorem prio_le (h : Frontmost l p) (ho : o ∈ l) (hm : o.1.mode ≠ 2) : p.1.prio ≤ o.1.prio := by
  obtain ⟨before, after, rfl, _, hbefore, hafter⟩ := h
  rcases List.mem_append.mp ho with ho | ho
  · exact (hbefore o ho hm).le
  rcases List.mem_cons.mp ho with rfl | ho
  · exact le_rfl
  · exact hafter o ho hm

/-- The last pixel shows when its priority value is below all others. -/
theorem snoc_new (hm : p.1.mode ≠ 2) (h : ∀ o ∈ l, o.1.mode ≠ 2 → p.1.prio < o.1.prio) : Frontmost (l ++ [p]) p :=
  ⟨l, [], rfl, hm, h, nofun⟩

/-- The pixel that shows still does after one that is not of a lower priority value. -/
theorem snoc_old (h : Frontmost l p) (ho : o.1.mode ≠ 2 → p.1.prio ≤ o.1.prio) : Frontmost (l ++ [o]) p := by
  obtain ⟨before, after, rfl, hm, hbefore, hafter⟩ := h
  refine ⟨before, after ++ [o], by simp, hm, hbefore, fun q hq => ?_⟩
  rcases List.mem_append.mp hq with hq | hq
  · exact hafter q hq
  · rwa [List.mem_singleton.mp hq]

end Frontmost

theorem frontmost_of_placeAll {l : List (ObjAttr × Colour)} {q : Px} (hq : (placeAll l).px = some q) :
    ∃ p, Frontmost l p ∧ q = p.1.opaquePx p.2 := by
  induction l using List.reverseRecOn generalizing q with
  | nil => cases hq
  | append_singleton l p ih =>
    rw [placeAll_snoc] at hq
    by_cases hm : p.1.mode = 2
    · rw [placeCol_of_window hm] at hq
      obtain ⟨f, hf, rfl⟩ := ih hq
      exact ⟨f, hf.snoc_old (absurd hm), rfl⟩
    rw [placeCol_of_pixel hm] at hq
    obtain rfl := Option.some.inj hq
    cases hold : (placeAll l).px with
    | none =>
      have hwin := (placeAll_px_eq_none_iff l).mp hold
      exact ⟨p, .snoc_new hm fun o ho hm' => absurd (hwin o ho) hm', rfl⟩
    | some old =>
      obtain ⟨f, hf, rfl⟩ := ih hold
      have hprio : (f.1.opaquePx f.2).prio = f.1.prio := rfl
      by_cases hlt : p.1.prio < f.1.prio
      · exact ⟨p, .snoc_new hm fun o ho hm' => hlt.trans_le (hf.prio_le ho hm'), if_pos hlt⟩
      · exact ⟨f, hf.snoc_old fun _ => Nat.le_of_not_lt hlt, if_neg hlt⟩

/-! ## The object line (R352) -/

/-- `draw x` is the object of entry `i` with the colour that it shows at column `x` of scanline `y`, if it shows one. -/
def State.EntryDraws (s : State) (y i : Nat) (draw : Nat → Option (ObjAttr × Colour)) : Prop :=
  ∀ x o c, draw x = some (o, c) ↔ s.objAttr i = .ok o ∧ s.Drawn o y x c

theorem exists_entryDraws (s : State) (y i : Nat) : ∃ draw, s.EntryDraws y i draw := by
  have hcol : ∀ x, ∃ r : Option (ObjAttr × Colour), ∀ o c,
      r = some (o, c) ↔ s.objAttr i = .ok o ∧ s.Drawn o y x c := by
    intro x
    by_cases h : ∃ o c, s.objAttr i = .ok o ∧ s.Drawn o y x c
    · obtain ⟨o, c, ho, hc⟩ := h
      refine ⟨some (o, c), fun o' c' => ⟨fun h => by cases h; exact ⟨ho, hc⟩, fun ⟨ho', hc'⟩ => ?_⟩⟩
      obtain rfl := Except.ok.inj (ho.symm.trans ho')
      rw [hc.unique hc']
    · exact ⟨none, fun o c => ⟨nofun, fun hd => absurd ⟨o, c, hd⟩ h⟩⟩
  choose draw hdraw using hcol
  exact ⟨draw, hdraw⟩

/-- The scan of an entry places at each column what its object shows there. -/
theorem scanObject_places {s : State} (h : s.VideoKnown) {y i : Nat} (hi : i < 128)
    (hp : ∀ o, s.objAttr i = .ok o → ¬ o.Prohibited y) {draw : Nat → Option (ObjAttr × Colour)}
    (hdraw : s.EntryDraws y i draw) (pixels : Nat → List (ObjAttr × Colour)) :
    s.scanObject y ((List.range 240).map fun x => placeAll (pixels x)) i =
      .ok ((List.range 240).map fun x => placeAll (pixels x ++ (draw x).toList)) := by
  obtain ⟨a0, a1, a2, _, ho⟩ := objAttr_known h hi
  obtain ⟨r, hr, hlen, hcol⟩ := scanObject_known h hi ho (hp _ ho) ((List.range 240).map fun x => placeAll (pixels x))
    (by simp)
  rw [hr]
  refine congrArg Except.ok (List.ext_getElem (by simpa using hlen) fun x hx hx' => ?_)
  obtain ⟨hshown, hnone⟩ := hcol x (hlen ▸ hx) hx
  simp only [List.getElem_map, List.getElem_range] at hshown hnone ⊢
  cases hd : draw x with
  | none => simpa using hnone fun c hc => by simpa [hd] using (hdraw x _ c).mpr ⟨ho, hc⟩
  | some p =>
    obtain ⟨o, c⟩ := p
    obtain ⟨ho', hc⟩ := (hdraw x o c).mp hd
    obtain rfl := Except.ok.inj (ho.symm.trans ho')
    simpa using hshown c hc

/-- The scan of the first `k` entries places at each column what their objects show there, in OAM order. -/
theorem objectScan_places {s : State} (h : s.VideoKnown) {y k : Nat} (hk : k ≤ 128)
    (hp : ∀ i o, i < 128 → s.objAttr i = .ok o → ¬ o.Prohibited y) {drawn : Nat → Nat → Option (ObjAttr × Colour)}
    (hdrawn : ∀ i, s.EntryDraws y i (drawn i)) :
    (List.range k).foldlM (s.scanObject y) emptyObjLine =
      .ok ((List.range 240).map fun x => placeAll ((List.range k).filterMap fun i => drawn i x)) := by
  induction k with
  | zero => simp [emptyObjLine, screenW, pure, Except.pure]
  | succ k ih =>
    rw [List.range_succ, Fetch.foldlM_snoc _ _ _ _ _ (ih (Nat.le_of_succ_le hk)),
      scanObject_places h hk (hp k · hk) (hdrawn k)]
    simp only [List.filterMap_eq_flatMap_toList, List.flatMap_append, List.flatMap_singleton]

/-- Settles O53: the resolver by `frontmost_of_placeAll`, the line by `objectScan_places` over all entries. -/
theorem objectPriority : Obligations.ObjectPriority := by
  refine ⟨fun l => ⟨placeAll_win_iff l, placeAll_px_eq_none_iff l, fun q hq => ?_⟩, fun s y => ⟨fun hoff => ?_, ?_⟩⟩
  · obtain ⟨p, ⟨before, after, hl, hm, hbefore, hafter⟩, hpx⟩ := frontmost_of_placeAll hq
    exact ⟨before, p, after, hl, hm, hpx, hbefore, hafter⟩
  · have hen : ¬ dispObjEn s.display.dispcnt = true := by rw [dispObjEn, flag, hoff]; exact Bool.false_ne_true
    exact if_neg hen
  · intro hon hknown hp
    choose drawn hdrawn using exists_entryDraws s y
    refine ⟨drawn, fun i x o c _ _ => hdrawn i x o c, ?_⟩
    exact (if_pos hon).trans (objectScan_places hknown le_rfl hp hdrawn)

end Sys2Proof.Machine

/-! Composition (R390 to R422): the window mask, the stack of a column, the colour effects channel by channel, the palette
conversion, and the scanlines of one colour. -/

namespace Sys2Proof.Machine

open Sys2Proof.Config

/-! ## Windows (R390, R391) -/

/-- The modular comparison is the wrapped range. -/
theorem inRange_iff {v lo hi : Nat} (hv : v < 256) (hlo : lo < 256) (hhi : hi < 256) :
    inRange v lo hi = true ↔ InWrapped v lo hi := by
  rw [inRange, decide_eq_true_iff, InWrapped]
  split_ifs with h <;> omega

theorem inWindow_iff (s : State) (n : WindowId) {x y : Nat} (hx : x < 256) (hy : y < 256) :
    s.inWindow n x y = true ↔ s.InsideWindow n x y := by
  rw [State.inWindow, Bool.and_eq_true, inRange_iff hx (field_lt _ 8 8) (field_lt _ 0 8),
    inRange_iff hy (field_lt _ 8 8) (field_lt _ 0 8)]
  simp only [field_top _ (show 8 + 8 = 16 from rfl), field_eq _ 0 8, pow_zero, Nat.div_one]
  rfl

/-- Settles O54: each condition of R390 is the statement's own, and the first that holds decides. -/
theorem windowMask : Obligations.WindowMask := by
  intro s x y objwin hx hy d in0 in1 inObj noWindow
  have h0 : (dispWinEn d .win0 && s.inWindow .win0 x y) = true ↔ in0 := by
    rw [Bool.and_eq_true, inWindow_iff s _ hx hy]; rfl
  have h1 : (dispWinEn d .win1 && s.inWindow .win1 x y) = true ↔ in1 := by
    rw [Bool.and_eq_true, inWindow_iff s _ hx hy]; rfl
  have hobj : (dispObjwinEn d && objwin) = true ↔ inObj := Bool.and_eq_true_iff
  have hnone : (!dispWinEn d .win0 && !dispWinEn d .win1 && !dispObjwinEn d) = true ↔ noWindow := by
    simp only [Bool.and_eq_true, Bool.not_eq_true', and_assoc]; rfl
  have hin0 : in0 → ¬ noWindow := fun ⟨h, _⟩ ⟨hno, _⟩ => Bool.false_ne_true (hno.symm.trans h)
  have hin1 : in1 → ¬ noWindow := fun ⟨h, _⟩ ⟨_, hno, _⟩ => Bool.false_ne_true (hno.symm.trans h)
  have hinObj : inObj → ¬ noWindow := fun ⟨h, _⟩ ⟨_, _, hno⟩ => Bool.false_ne_true (hno.symm.trans h)
  refine ⟨fun h => if_pos (hnone.mpr h), fun h => (if_neg (mt hnone.mp (hin0 h))).trans (if_pos (h0.mpr h)),
    fun n0 h => ?_, fun n0 n1 h => ?_, fun hw n0 n1 nobj => ?_⟩
  · exact (if_neg (mt hnone.mp (hin1 h))).trans <| (if_neg (mt h0.mp n0)).trans <| if_pos (h1.mpr h)
  · exact (if_neg (mt hnone.mp (hinObj h))).trans <| (if_neg (mt h0.mp n0)).trans <| (if_neg (mt h1.mp n1)).trans <|
      if_pos (hobj.mpr h)
  · exact (if_neg (mt hnone.mp hw)).trans <| (if_neg (mt h0.mp n0)).trans <| (if_neg (mt h1.mp n1)).trans <|
      if_neg (mt hobj.mp nobj)

/-! ## The stack of a column (R395, R396) -/

/-- The pixels of `l` whose layer the window mask shows. -/
def shownPixels (mask : BitVec 6) (l : List (Fin 4 × Px)) : List Px :=
  (l.filter fun p => mask.getLsbD p.1.val).map Prod.snd

theorem push_of_shown {c : Col} {n : Fin 4} (h : c.mask.getLsbD n.val = true) (p : Px) :
    c.push n (some p) = { c with high := p, low := c.high } := if_pos h

theorem push_of_hidden {c : Col} {n : Fin 4} (h : c.mask.getLsbD n.val = false) (p : Px) : c.push n (some p) = c :=
  if_neg (ne_true_of_eq_false h)

/-- `high` and `low` are the top of the stack that holds the shown pixels above the two that stood there before. -/
theorem foldl_push_stack (l : List (Fin 4 × Px)) (c : Col) :
    let r := l.foldl (fun c p => c.push p.1 (some p.2)) c
    ∃ below, (shownPixels c.mask l).reverse ++ [c.high, c.low] = r.high :: r.low :: below := by
  induction l generalizing c with
  | nil => exact ⟨[], rfl⟩
  | cons p l ih =>
    cases h : c.mask.getLsbD p.1.val with
    | false =>
      simpa [shownPixels, h, push_of_hidden h] using ih c
    | true =>
      obtain ⟨below, hbelow⟩ := ih { c with high := p.2, low := c.high }
      refine ⟨below ++ [c.low], ?_⟩
      simpa [shownPixels, h, push_of_shown h] using congrArg (· ++ [c.low]) hbelow

theorem mergeObject_of_not_shown {c : Col} (h : c.obj = none ∨ c.mask.getLsbD 4 = false) : c.mergeObject = c := by
  rw [Col.mergeObject]
  split
  · rfl
  · next o ho =>
    rcases h with h | h
    · cases ho.symm.trans h
    · exact if_neg (ne_true_of_eq_false h)

theorem mergeObject_of_shown {c : Col} {o : Px} (ho : c.obj = some o) (hmask : c.mask.getLsbD 4 = true) :
    c.mergeObject = if o.prio ≤ c.high.prio then { c with high := o, low := c.high }
      else if o.prio ≤ c.low.prio then { c with low := o } else c := by
  rw [Col.mergeObject, ho]
  exact if_pos hmask

/-- Settles O55: the stack by `foldl_push_stack` from the backdrop and the empty pixel. -/
theorem layerStack : Obligations.LayerStack := by
  refine ⟨fun mask obj backdrop l => foldl_push_stack l (Col.init mask obj backdrop), fun c o => ?_⟩
  refine ⟨mergeObject_of_not_shown, fun ho hmask => ?_⟩
  rw [mergeObject_of_shown ho hmask]
  exact ⟨fun h => if_pos h, fun h hlow => (if_neg h.not_ge).trans (if_pos hlow),
    fun h hlow => (if_neg h.not_ge).trans (if_neg hlow.not_ge)⟩

/-! ## Colour effects (R400 to R405) -/

theorem red_eq (c : Colour) : red c = channel c 0 := field_eq c 0 5

theorem green_eq (c : Colour) : green c = channel c 1 := field_eq c 5 5

theorem blue_eq (c : Colour) : blue c = channel c 2 := field_eq c 10 5

theorem channel_le (c : Colour) (k : Nat) : channel c k ≤ 31 := Nat.le_of_lt_succ (Nat.mod_lt _ (by decide))

/-- No channel overflows into another: channels of 5 bits come back as they were put in. -/
theorem channel_colourOf {f : Nat → Nat} (hf : ∀ k, f k ≤ 31) {k : Nat} (hk : k < 3) :
    channel (colourOf (f 0) (f 1) (f 2)) k = f k := by
  have h0 := hf 0
  have h1 := hf 1
  have h2 := hf 2
  have hval : (colourOf (f 0) (f 1) (f 2)).toNat = (f 2 * 32 + f 1) * 32 + f 0 := by
    simp only [colourOf, toNat_append_eq, BitVec.toNat_ofNat]
    omega
  rw [channel, hval]
  interval_cases k <;> omega

theorem bldEva_eq (a : Half) : bldEva a = min 16 (a.toNat % 32) := by simp [bldEva, field_eq]

theorem bldEvb_eq (a : Half) : bldEvb a = min 16 (a.toNat / 256 % 32) := by simp [bldEvb, field_eq]

theorem bldEvy_eq (y : Half) : bldEvy y = min 16 (y.toNat % 32) := by simp [bldEvy, field_eq]

theorem channel_blend (alpha : Half) (top bot : Colour) {k : Nat} (hk : k < 3) :
    channel (blend alpha top bot) k =
      blendChannel (bldEva alpha) (bldEvb alpha) (channel top k) (channel bot k) := by
  simp only [blend, red_eq, green_eq, blue_eq]
  exact channel_colourOf (f := fun k => blendChannel _ _ (channel top k) (channel bot k)) (fun _ => min_le_left _ _) hk

theorem lightenChannel_le {evy c : Nat} (hevy : evy ≤ 16) (hc : c ≤ 31) : lightenChannel evy c ≤ 31 := by
  have h : (31 - c) * evy / 16 ≤ 31 - c := Nat.div_le_of_le_mul (by rw [mul_comm 16]; exact Nat.mul_le_mul_left _ hevy)
  rw [lightenChannel]
  omega

theorem channel_lighten (bldy : Half) (c : Colour) {k : Nat} (hk : k < 3) :
    channel (lighten bldy c) k = lightenChannel (bldEvy bldy) (channel c k) := by
  simp only [lighten, red_eq, green_eq, blue_eq]
  exact channel_colourOf (f := fun k => lightenChannel _ (channel c k))
    (fun k => lightenChannel_le (min_le_left _ _) (channel_le c k)) hk

theorem channel_darken (bldy : Half) (c : Colour) {k : Nat} (hk : k < 3) :
    channel (darken bldy c) k = darkenChannel (bldEvy bldy) (channel c k) := by
  simp only [darken, red_eq, green_eq, blue_eq]
  exact channel_colourOf (f := fun k => darkenChannel _ (channel c k))
    (fun k => (Nat.sub_le _ _).trans (channel_le c k)) hk

/-- Settles O56: each effect's channel is its formula, with the coefficients of R402. -/
theorem effectChannels : Obligations.EffectChannels := by
  intro alpha bldy top bot k hk
  rw [channel_blend alpha top bot hk, channel_lighten bldy top hk, channel_darken bldy top hk, bldEva_eq, bldEvb_eq,
    bldEvy_eq]
  exact ⟨rfl, rfl, rfl⟩

/-- A target set is 6 bits of BLDCNT, one for each source but the empty pixel's (R401). -/
theorem inSet_extract (src : Src) (cnt : Half) (lo : Nat) :
    src.InSet (cnt.extractLsb' lo 6) ↔ ∃ b, src.bit = some b ∧ cnt.getLsbD (lo + b) = true := by
  cases src with
  | bg n =>
    have hn : n.val < 6 := by omega
    simp [Src.InSet, Src.bit, hn]
  | obj | bd | empty => simp [Src.InSet, Src.bit]

theorem inT1_iff (src : Src) (cnt : Half) : src.inT1 cnt = true ↔ src.InSet (cnt.extractLsb' 0 6) := by
  rw [inSet_extract, Src.inT1]
  cases src.bit <;> simp [bldT1, flag]

theorem inT2_iff (src : Src) (cnt : Half) : src.inT2 cnt = true ↔ src.InSet (cnt.extractLsb' 8 6) := by
  rw [inSet_extract, Src.inT2]
  cases src.bit <;> simp [bldT2, flag]

theorem bldEffect_eq (cnt : Half) : bldEffect cnt = cnt.toNat / 64 % 4 := field_eq cnt 6 2

/-- What EFFECT gives a top of target set 1 (R400). -/
def State.firstTargetEffect (s : State) (c : Col) : Colour :=
  match bldEffect s.fx.bldcnt with
  | 0 => c.high.colour
  | 1 => if c.low.src.inT2 s.fx.bldcnt then blend s.fx.bldalpha c.high.colour c.low.colour else c.high.colour
  | 2 => lighten s.fx.bldy c.high.colour
  | _ => darken s.fx.bldy c.high.colour

theorem colourEffect_of_masked {s : State} {c : Col} (h : c.mask.getLsbD 5 = false) :
    s.colourEffect c = c.high.colour := by
  simp only [State.colourEffect, flag, h, Bool.false_and, Bool.false_eq_true, if_false]

theorem colourEffect_of_unmasked {s : State} {c : Col} (h : c.mask.getLsbD 5 = true) :
    s.colourEffect c =
      if c.high.src = .obj ∧ c.high.semi = true ∧ c.low.src.inT2 s.fx.bldcnt = true then
        blend s.fx.bldalpha c.high.colour c.low.colour
      else if c.high.src.inT1 s.fx.bldcnt = true then s.firstTargetEffect c
      else c.high.colour := by
  simp only [State.colourEffect, flag, h, Bool.true_and, Bool.and_eq_true, decide_eq_true_eq, and_assoc]
  rfl

/-- Settles O57: the branches of R400 in their order, with the sets of R401. -/
theorem colourEffect : Obligations.ColourEffect := by
  intro s c t1 t2 semi effect
  have ht1 : c.high.src.inT1 s.fx.bldcnt = true ↔ t1 := inT1_iff _ _
  have ht2 : c.low.src.inT2 s.fx.bldcnt = true ↔ t2 := inT2_iff _ _
  have heffect : bldEffect s.fx.bldcnt = effect := bldEffect_eq _
  have hsemi : (c.high.src = .obj ∧ c.high.semi = true ∧ c.low.src.inT2 s.fx.bldcnt = true) ↔ semi :=
    and_congr_right' (and_congr_right' ht2)
  refine ⟨colourEffect_of_masked, fun hfx => ?_⟩
  rw [colourEffect_of_unmasked hfx]
  refine ⟨fun h => if_pos (hsemi.mpr h), fun h hn => (if_neg (mt hsemi.mp h)).trans (if_neg (mt ht1.mp hn)),
    fun h hin => ?_⟩
  rw [if_neg (mt hsemi.mp h), if_pos (ht1.mpr hin)]
  refine ⟨fun he => ?_, fun he hb => ?_, fun he hb => ?_, fun he => ?_, fun he => ?_⟩
  all_goals simp only [State.firstTargetEffect, heffect, he]
  · exact if_pos (ht2.mpr hb)
  · exact if_neg (mt ht2.mp hb)

/-! ## Palette conversion (R420, R422) -/

theorem toRgba_linear {s : State} (h : s.output.colorCorrection = false) (c : Colour) :
    s.toRgba c = ⟨linear (channel c 0), linear (channel c 1), linear (channel c 2), 255⟩ := by
  rw [State.toRgba, if_neg (ne_true_of_eq_false h), red_eq, green_eq, blue_eq]

/-- A channel as the 5 bits that the curve takes. -/
theorem extract_channel (c : Colour) (k : Nat) : c.extractLsb' (5 * k) 5 = BitVec.ofNat 5 (channel c k) := by
  refine extractLsb'_eq_of_toNat ?_
  rw [BitVec.toNat_ofNat, channel]
  exact (Nat.mod_mod _ _).symm

theorem toRgba_curve {s : State} (h : s.output.colorCorrection = true) (c : Colour) :
    ∃ p, p = gammaCurve (BitVec.ofNat 5 (channel c 0)) (BitVec.ofNat 5 (channel c 1)) (BitVec.ofNat 5 (channel c 2)) ∧
      s.toRgba c = ⟨p.1, p.2.1, p.2.2, 255⟩ := by
  refine ⟨_, rfl, ?_⟩
  rw [State.toRgba, if_pos h, ← extract_channel c 0, ← extract_channel c 1, ← extract_channel c 2]

/-- Settles O58: the conversion by its two cases; the values of R422 are the linear case's. -/
theorem paletteConversion : Obligations.PaletteConversion := by
  refine fun s c => ⟨fun h => ⟨toRgba_linear h c, ?_⟩, fun h => toRgba_curve h c⟩
  simp only [toRgba_linear h]
  decide

/-! ## Lines of one colour (R300, R395, R410) -/

theorem layerOrder_of_dispcnt_zero {s : State} (h : s.display.dispcnt = 0) : s.layerOrder = [] := by
  refine List.eq_nil_iff_forall_not_mem.mpr fun n hn => ?_
  have hshown := ((layerShown_iff s n).mp ((mem_layerOrder s n).mp hn)).1
  simp [h] at hshown

theorem objectLine_of_dispcnt_zero {s : State} (h : s.display.dispcnt = 0) (y : Nat) :
    s.objectLine y = .ok ((List.range 240).map fun _ => ⟨none, false⟩) := by
  have hoff : ¬ dispObjEn s.display.dispcnt = true := by rw [h]; decide
  rw [State.objectLine, if_neg hoff, emptyObjLine, List.map_const', List.length_range]

/-- Without an effect on the backdrop a column with nothing on it shows the backdrop's colour (R395, R400). -/
theorem colourEffect_init {s : State} (h : s.fx.bldcnt.getLsbD 5 = false) (mask : BitVec 6) (backdrop : Colour) :
    s.colourEffect (Col.init mask none backdrop).mergeObject = backdrop := by
  rw [mergeObject_of_not_shown (.inl rfl)]
  have ht1 : Src.bd.inT1 s.fx.bldcnt = false := h
  simp [State.colourEffect, Col.init, backdropPx, ht1]

/-- With DISPCNT 0 the row is the backdrop (the example of R300). -/
theorem lineRow_of_dispcnt_zero {s : State} (h : s.display.dispcnt = 0) {backdrop : Half}
    (hb : s.HalfAt .pram 0 backdrop) (hfx : s.fx.bldcnt.getLsbD 5 = false) (y : Nat) :
    s.lineRow y = .ok (List.replicate 240 (s.toRgba (backdrop.extractLsb' 0 15))) := by
  have hnil := layerOrder_of_dispcnt_zero h
  have hpixel : s.composedPixel y (fun _ => ⟨none, false⟩) (fun _ _ => none) backdrop =
      fun _ => s.toRgba (backdrop.extractLsb' 0 15) := by
    funext x
    rw [State.composedPixel, hnil]
    exact congrArg s.toRgba (colourEffect_init hfx _ _)
  rw [lineRow_composed (by rw [h]; rfl) (by rw [h]; decide) (objectLine_of_dispcnt_zero h y) (by simp [hnil]) hb, hpixel,
    List.map_const', List.length_range]

/-- Settles O45: after the start of the line both rows are known, and the render leaves them. -/
theorem blankAndBackdropLines : Obligations.BlankAndBackdropLines := by
  intro s y hs t
  have hdisp := State.mosaicLineStart_display s y.toNat
  refine ⟨fun hi => exec_renderLine_internal hs hi y, fun hblank => renderLine_of_lineRow_ok ?_,
    fun lo hi hzero hlo hhi hfx hcc => ?_⟩
  · exact lineRow_of_blank (by rwa [hdisp]) _
  · have hb : (s.mosaicLineStart y.toNat).HalfAt .pram 0 (hi ++ lo) :=
      ⟨lo, hi, by rwa [mosaicLineStart_byte?], by rwa [mosaicLineStart_byte?], rfl⟩
    have hrow := lineRow_of_dispcnt_zero (by rwa [hdisp]) hb (by rwa [State.mosaicLineStart_fx]) y.toNat
    rw [toRgba_linear (by rwa [State.mosaicLineStart_output])] at hrow
    exact renderLine_of_lineRow_ok hrow

end Sys2Proof.Machine

/-! Power-on reset (R470, R471): the framebuffers, and the invariants of the state it leaves. -/

namespace Sys2Proof.Machine

open Sys2Proof.Config

/-- A framebuffer of zero pixels has 160 rows of 240 pixels (R42). -/
theorem Frame.zero_shaped : Frame.zero.Shaped :=
  ⟨List.length_replicate, fun _ hr => List.eq_of_mem_replicate hr ▸ List.length_replicate⟩

/-- Every pixel of a zero framebuffer is `(0, 0, 0, 0)`. -/
theorem Frame.zero_pixel {r : Row} {p : Pixel} (hr : r ∈ Frame.zero) (hp : p ∈ r) : p = ⟨0, 0, 0, 0⟩ :=
  List.eq_of_mem_replicate (List.eq_of_mem_replicate hr ▸ hp)

section
variable (video : Video) (capacity : Option Nat) (responses : List (List OpWord))

/-- Every background has its registers at 0 (R470). -/
theorem resetWith_bg (n : Fin 4) : (State.resetWith video capacity responses).bgs.bg n = Bg.reset := by
  fin_cases n <;> rfl

/-- Every affine unit has its registers, references and mosaic references at 0 (R470). -/
theorem resetWith_aff (n : AffineBg) : (State.resetWith video capacity responses).bgs.aff n = Affine.reset := by
  cases n <;> rfl

theorem resetWith_pixel {r : Row} {p : Pixel} (hp : p ∈ r)
    (hr : r ∈ (State.resetWith video capacity responses).output.front ++
      (State.resetWith video capacity responses).output.back) : p = ⟨0, 0, 0, 0⟩ := by
  rcases List.mem_append.mp hr with hr | hr <;> exact Frame.zero_pixel hr hp

/-! The range, the layouts and the LCD's place do not depend on the open parameters: they are those of `State.reset`. -/

/-- The one pending event is the first `HBLANK_START`, at tick 960 (R471). -/
theorem resetWith_inRange : (State.resetWith video capacity responses).sched.InRange :=
  (by decide : State.reset.sched.InRange)

theorem resetWith_regsLegal : (State.resetWith video capacity responses).RegsLegal :=
  (by decide : State.reset.RegsLegal)

/-- Reset is the start of scanline 0 of frame 0, with the clock at its first tick (R471). -/
theorem resetWith_lcdAt : (State.resetWith video capacity responses).LcdAt 0 :=
  (⟨by decide, by decide, by decide, by decide⟩ : State.reset.LcdAt 0)

end

/-- Settles O6: the table of R470 read off `State.resetWith`. -/
theorem resetValues : Obligations.ResetValues := by
  intro video capacity responses s
  refine ⟨rfl, rfl, rfl, fun n => ?_, fun n => ?_, ⟨rfl, rfl, rfl, rfl, rfl, rfl⟩, ⟨rfl, rfl, rfl, rfl⟩,
    ⟨rfl, rfl, rfl⟩, ⟨rfl, rfl⟩,
    ⟨Frame.zero_shaped, Frame.zero_shaped, fun _ hr _ hp => resetWith_pixel video capacity responses hp hr⟩,
    rfl, rfl, rfl, rfl, rfl, rfl, rfl, rfl, rfl, rfl⟩
  · rw [resetWith_bg]
    exact ⟨rfl, rfl, rfl⟩
  · rw [resetWith_aff]
    exact ⟨rfl, rfl, rfl, rfl, rfl, rfl, rfl, rfl, rfl, rfl⟩

/-- Settles O7: the one pending event is in order and in range, and the registers, the framebuffers and the LCD's
place are each a lemma above. -/
theorem resetMeetsInvariants : Obligations.ResetMeetsInvariants :=
  fun video capacity responses hv =>
    have hlcd := resetWith_lcdAt video capacity responses
    ⟨⟨rfl, rfl⟩, hv, List.pairwise_singleton _ _, resetWith_inRange video capacity responses,
      resetWith_regsLegal video capacity responses, ⟨Frame.zero_shaped, Frame.zero_shaped⟩, rfl, rfl, hlcd,
      fun _ => ⟨0, hlcd⟩⟩

end Sys2Proof.Machine

/-! Faults (R440, R441, R445): what a stopped block answers, and how many faults one step records. -/

namespace Sys2Proof.Machine

/-! ## A stopped block -/

/-- Settles O42: each operation is one of four shared forms (`act`, `busRead`, `query`, `actReturning`), and each form
has its lemma for a stopped block. -/
theorem stoppedBlock : Obligations.StoppedBlock := by
  intro s i hs
  cases i with
  | rDispcnt | rNoreg002 | rDispstat | rVcount | rBgcnt | rBgofs | rBgp | rBgref | rWinh | rWinv | rWinin | rWinout
  | rMosaic | rNoreg04e | rBldcnt | rBldalpha | rBldy | rNoreg056 | rNoreg058 | rIe | rIf | rIme | rNoreg20a | rPram
  | rVramLo | rVramHi | rOam => exact busRead_stopped hs _
  | schedNext | schedNow | irqLine | irqHaltexit | hostReadframe | hostReady | hostFrames =>
    exact query_stopped hs _ _
  | schedPop | schedHaltskip => exact actReturning_stopped hs _ fun _ => _
  | _ => exact act_stopped hs fun _ => _

/-! ## The faults of one step -/

/-- `s` has the faults `old` and at most one more, and none more where `old` holds one already. -/
def AddsAtMostOneFault (old : List FaultRecord) (s : State) : Prop :=
  ∃ l, s.faults = old ++ l ∧ l.length ≤ 1 ∧ (old ≠ [] → l = [])

theorem AddsAtMostOneFault.refl (s : State) : AddsAtMostOneFault s.faults s :=
  ⟨[], (List.append_nil _).symm, Nat.zero_le _, fun _ => rfl⟩

section
variable {old : List FaultRecord} {s : State}

theorem AddsAtMostOneFault.congr {t : State} (h : AddsAtMostOneFault old s) (hf : t.faults = s.faults) :
    AddsAtMostOneFault old t := by
  rwa [AddsAtMostOneFault, hf]

/-- A running block has no fault yet, so the one it raises is the first (R440). -/
theorem AddsAtMostOneFault.raise (h : AddsAtMostOneFault old s) (hr : s.Running) (k : FaultKind) (op : FaultOp) :
    AddsAtMostOneFault old (s.raise k op) := by
  obtain ⟨l, hl, -, -⟩ := h
  obtain ⟨rfl, -⟩ := List.append_eq_nil_iff.mp (hl.symm.trans hr)
  exact ⟨[⟨k, op⟩], by rw [State.raise_faults, hr], Nat.le_refl _, fun hne => absurd rfl hne⟩

theorem AddsAtMostOneFault.schedule (h : AddsAtMostOneFault old s) (hr : s.Running) (tag : Byte) (d : Int)
    (op : FaultOp) : AddsAtMostOneFault old (s.schedule tag d op) := by
  rcases schedule_cases s tag d op with ⟨k, hk⟩ | ⟨-, -, -, hk⟩ <;> rw [hk]
  · exact h.raise hr k op
  · exact h

theorem AddsAtMostOneFault.advance (h : AddsAtMostOneFault old s) (hr : s.Running) (n : Int) (op : FaultOp) :
    AddsAtMostOneFault old (s.advance n op) := by
  rcases advance_cases s n op with ⟨k, hk⟩ | ⟨-, -, hk⟩ <;> rw [hk]
  · exact h.raise hr k op
  · exact h

end

/-- No part of a step clears a fault, and the parts that raise one run in a running block only (R440, R441). -/
theorem addsAtMostOneFault_kept (old : List FaultRecord) : KeptByParts (AddsAtMostOneFault old) := by
  constructor
  constructor
  case raise => exact fun k op hr h => h.raise hr k op
  case schedule => exact fun tag d op _ hr h => h.schedule hr tag d op
  case lcdSchedule => exact fun tag d op hr h => h.schedule hr tag d op
  case advance => exact fun n op hr h => h.advance hr n op
  case lineStart => exact fun y _ h => h.congr (State.mosaicLineStart_faults _ y)
  all_goals intros; assumption

/-- Settles O43: the faults a step starts from are no more than themselves, and every part of the step keeps to that
bound (`addsAtMostOneFault_kept`). -/
theorem atMostOneFault : Obligations.AtMostOneFault :=
  fun s _ ht => (addsAtMostOneFault_kept s.faults).step (.refl s) ht

end Sys2Proof.Machine
